-- ==== Sys2Proof/Word.lean ====
section
/-! DEFINITION. The W-bit word (W = 32, 00_scope R12) and its three readings (R15). -/

namespace Sys2Proof

/-- A register or a buffer element: W = 32 bits (00_scope R12). -/
abbrev Word := BitVec 32

/-- `uint(w)`: the unsigned value of a word (00_scope R15). -/
def uint (w : Word) : Nat := w.toNat

/-- `sint(w)`: the two's-complement value of a word (00_scope R15). -/
def sint (w : Word) : Int := w.toInt

/-- `word(i)`: the two's-complement word of an integer of the signed range (00_scope R15). -/
def word (i : Int) : Word := BitVec.ofInt 32 i

end Sys2Proof
end

