-- ==== Sys2Proof/Config.lean ====
section
/-! DEFINITION. What an implementation fixes (00_scope R12, 93_implementation_defined section 1) and the
free values. The parameters that are plain data form `Config`, which State carries (log 1). NUM_FMT (R19) is
the structure `NumFmt`: every modulation meaning is a function of it, and the chip's own format has no body
(log 2). -/

namespace Sys2Proof

/-- GRID_ENDPOINT (00_scope R12, 41_modulation R215). -/
inductive GridEndpoint where
  | excl
  | incl
  deriving DecidableEq, Repr, Inhabited

/-- A line polarity: low is −1 and high is +1 (40_line_codes R140, R149). -/
inductive Polarity where
  | low
  | high
  deriving DecidableEq, Repr, Inhabited

/-- The level of a polarity. -/
def Polarity.level : Polarity → Int
  | .low => -1
  | .high => 1

/-- BUS_ENDIAN, a platform parameter that no rule reads (20_memory R73). -/
inductive Endian where
  | little
  | big
  deriving DecidableEq, Repr, Inhabited

/-- The implementation parameters that are plain data. The two capacities are held as their excess over the
least value 00_scope R12 allows, so a value of this type is always an allowed choice. -/
structure Config where
  /-- CAP_IN − 1 -/
  inMore : Nat
  /-- CAP_OUT − 3 -/
  outMore : Nat
  /-- GRID_ENDPOINT -/
  gridEndpoint : GridEndpoint
  /-- DM_INIT -/
  dmInit : Polarity
  /-- HAS_CONV_B -/
  hasConvB : Bool
  /-- CORE_BASE (20_memory R71); no rule reads it -/
  coreBase : Nat
  /-- BUS_ENDIAN (20_memory R73); no rule reads it -/
  busEndian : Endian
  deriving DecidableEq, Repr, Inhabited

/-- CAP_IN ≥ 1: the number of elements of IN and of TIN (00_scope R12). -/
def Config.capIn (c : Config) : Nat := c.inMore + 1

/-- CAP_OUT ≥ 3: the number of elements of OUT and of TOUT (00_scope R12). -/
def Config.capOut (c : Config) : Nat := c.outMore + 3

/-- MAX_LEVELS: the entries of the level-to-parameter table (00_scope R12). -/
def Config.maxLevels : Nat := 3

/-- NUM_FMT (00_scope R19): the numeric format of sample, time and real-parameter words, over the numbers
`Num`. `num` answers `none` for a word that is no finite number. -/
structure NumFmt (Num : Type) where
  num : Word → Option Num
  enc : Num → Word
  add : Num → Num → Num
  sub : Num → Num → Num
  mul : Num → Num → Num
  div : Num → Num → Num
  abs : Num → Num
  lt : Num → Num → Bool
  pi : Num
  ofInt : Int → Num
  cos : Num → Num
  deriving Inhabited

/-- The reference reading of 00_scope R19: exact real arithmetic, with `cos` the real cosine of an argument
in radians (R20). `num` and `enc` stay free. -/
structure NumFmt.Exact (F : NumFmt ℝ) : Prop where
  add : ∀ x y, F.add x y = x + y
  sub : ∀ x y, F.sub x y = x - y
  mul : ∀ x y, F.mul x y = x * y
  div : ∀ x y, F.div x y = x / y
  abs : ∀ x, F.abs x = |x|
  lt : ∀ x y, F.lt x y = true ↔ x < y
  pi : F.pi = Real.pi
  ofInt : ∀ i : Int, F.ofInt i = (i : ℝ)
  cos : ∀ x, F.cos x = Real.cos x

/-- The parameters of the chip at hand: a free value (log 1). -/
opaque Config.chip : Config

/-- The one thing taken of every NUM_FMT: some word is a number above 0. A format without one could not hold any
duration of MODULATE (41_modulation R216; log 2). -/
def NumFmt.Usable {Num : Type} (F : NumFmt Num) : Prop :=
  ∃ w x, F.num w = some x ∧ F.lt (F.ofInt 0) x = true

/-- A usable format. The finite numbers of any format are reals. -/
structure ChipFmt where
  fmt : NumFmt ℝ
  usable : fmt.Usable

/-- The type of usable formats has a member; nothing else is made of this one. -/
def ChipFmt.sample : ChipFmt where
  fmt := { (default : NumFmt ℝ) with num := fun _ => some default, lt := fun _ _ => true }
  usable := ⟨0, default, rfl, rfl⟩

/-- The usable format of the chip at hand: a free value (log 2). It has no body; the argument says only that the type
has a member. -/
opaque Config.chipFmt [Inhabited ChipFmt] : ChipFmt

/-- NUM_FMT of the chip at hand. -/
def Config.numFmt : NumFmt ℝ := (@Config.chipFmt ⟨ChipFmt.sample⟩).fmt

/-- The chip's format is usable. -/
theorem Config.numFmt_usable : Config.numFmt.Usable := (@Config.chipFmt ⟨ChipFmt.sample⟩).usable

/-- What OUT_LEN holds after a command that wrote 2^32 elements or more: a free value of the count
(log 10). -/
opaque Config.lenBeyondWord : Nat → Word

end Sys2Proof
end

