-- ==== Sys2Proof/Syntax.lean ====
section
/-! DEFINITION. The command set: one constructor per row of spec/opcode_table.json (30_encoding R105, R106).
No command has an operand (R112). -/

namespace Sys2Proof

/-- The seven line-code variants, in the order of VAR (30_encoding R102). -/
inductive LineCode where
  | nrz
  | nrzl
  | nrzi
  | ami
  | pst
  | man
  | dman
  deriving DecidableEq, Repr

/-- The commands (30_encoding R106). -/
inductive Instr where
  | encNrz
  | encNrzl
  | encNrzi
  | encAmi
  | encPst
  | encMan
  | encDman
  | decNrz
  | decNrzl
  | decNrzi
  | decAmi
  | decPst
  | decMan
  | decDman
  | lvlNrz
  | lvlNrzl
  | lvlNrzi
  | lvlAmi
  | lvlPst
  | lvlMan
  | lvlDman
  | mod
  | modDur
  | demod
  | sig
  | mlvl
  | modg
  | demodb
  deriving DecidableEq, Repr

/-- The commands of convention B (00_scope R4). -/
def Instr.isConvB : Instr → Bool
  | .modg | .demodb => true
  | .encNrz | .encNrzl | .encNrzi | .encAmi | .encPst | .encMan | .encDman
  | .decNrz | .decNrzl | .decNrzi | .decAmi | .decPst | .decMan | .decDman
  | .lvlNrz | .lvlNrzl | .lvlNrzi | .lvlAmi | .lvlPst | .lvlMan | .lvlDman
  | .mod | .modDur | .demod | .sig | .mlvl => false

end Sys2Proof
end

