-- ==== Sys2Proof/WellFormed.lean ====
section
/-! DEFINITION. Which commands exist on a chip. A command has no operand field that could be out of range
(30_encoding R112); the one check is that convention B's commands exist only where HAS_CONV_B is true
(30_encoding R105). -/

namespace Sys2Proof

/-- The command is one of the legal words of a chip with these parameters (30_encoding R105). -/
def Instr.wellFormed (c : Config) (i : Instr) : Bool := !i.isConvB || c.hasConvB

end Sys2Proof
end

