-- ==== Sys2Proof/Decode.lean ====
section
/-! DEFINITION. The command word (30_encoding R100 to R109): its fields, the decoder, total on every word and
refusing by name, and after it the encoder, written from the same tables. The core has no byte-addressed
storage, so a command is one word and no byte order enters (20_memory R73). HAS_CONV_B is no matter of decoding:
the two convention-B words decode everywhere, and the engine step turns them away (log 13). -/

namespace Sys2Proof

/-- OP = CMD[3:0] (30_encoding R100). -/
def opField (c : Word) : BitVec 4 := c.extractLsb' 0 4
/-- VAR = CMD[7:4]. -/
def varField (c : Word) : BitVec 4 := c.extractLsb' 4 4
/-- DUR = CMD[8]. -/
def durField (c : Word) : BitVec 1 := c.extractLsb' 8 1
/-- RSV = CMD[31:9]. -/
def rsvField (c : Word) : BitVec 23 := c.extractLsb' 9 23

/-- Why a word is no command, whatever HAS_CONV_B is (30_encoding R109). -/
inductive DecodeError where
  /-- RSV is not 0 -/
  | nonzeroRsv
  /-- OP is 0x0 or 0xA to 0xF -/
  | reservedOp
  /-- VAR is 7 to 15 with OP 1 to 3 -/
  | reservedVar
  /-- VAR is not 0 with OP 4 to 9 -/
  | misplacedVar
  /-- DUR is 1 with an OP other than 4 -/
  | misplacedDur
  deriving DecidableEq, Repr

/-- OP 1, 2, 3: VAR selects the variant and DUR must be 0 (30_encoding R102, R103). -/
def decodeLine (row : LineCode → Instr) (var : BitVec 4) (dur : BitVec 1) : Except DecodeError Instr :=
  if dur != 0#1 then .error .misplacedDur
  else match var.toNat with
    | 0 => .ok (row .nrz)
    | 1 => .ok (row .nrzl)
    | 2 => .ok (row .nrzi)
    | 3 => .ok (row .ami)
    | 4 => .ok (row .pst)
    | 5 => .ok (row .man)
    | 6 => .ok (row .dman)
    | _ => .error .reservedVar

/-- OP 5 to 9: VAR and DUR must be 0 (30_encoding R102, R103). -/
def decodePlain (i : Instr) (var : BitVec 4) (dur : BitVec 1) : Except DecodeError Instr :=
  if var != 0#4 then .error .misplacedVar
  else if dur != 0#1 then .error .misplacedDur
  else .ok i

/-- ENCODE of a variant (30_encoding R106). -/
def encRow : LineCode → Instr
  | .nrz => .encNrz
  | .nrzl => .encNrzl
  | .nrzi => .encNrzi
  | .ami => .encAmi
  | .pst => .encPst
  | .man => .encMan
  | .dman => .encDman

/-- DECODE of a variant (30_encoding R106). -/
def decRow : LineCode → Instr
  | .nrz => .decNrz
  | .nrzl => .decNrzl
  | .nrzi => .decNrzi
  | .ami => .decAmi
  | .pst => .decPst
  | .man => .decMan
  | .dman => .decDman

/-- ELEVELS of a variant (30_encoding R106). -/
def lvlRow : LineCode → Instr
  | .nrz => .lvlNrz
  | .nrzl => .lvlNrzl
  | .nrzi => .lvlNrzi
  | .ami => .lvlAmi
  | .pst => .lvlPst
  | .man => .lvlMan
  | .dman => .lvlDman

/-- The decoder of 30_encoding R107, on every word. -/
def decode (c : Word) : Except DecodeError Instr :=
  let var := varField c
  let dur := durField c
  if rsvField c != 0#23 then .error .nonzeroRsv
  else match (opField c).toNat with
    | 1 => decodeLine encRow var dur
    | 2 => decodeLine decRow var dur
    | 3 => decodeLine lvlRow var dur
    | 4 =>
      if var != 0#4 then .error .misplacedVar
      else if dur != 0#1 then .ok .modDur
      else .ok .mod
    | 5 => decodePlain .demod var dur
    | 6 => decodePlain .sig var dur
    | 7 => decodePlain .mlvl var dur
    | 8 => decodePlain .modg var dur
    | 9 => decodePlain .demodb var dur
    | _ => .error .reservedOp

/-- `legal(c)` of 30_encoding R108, term by term. -/
def legal (hasConvB : Bool) (c : Word) : Bool :=
  let op := (opField c).toNat
  let var := (varField c).toNat
  let dur := (durField c).toNat
  rsvField c == 0#23 &&
    (((op == 1 || op == 2 || op == 3) && decide (var ≤ 6) && dur == 0)
    || (op == 4 && var == 0)
    || ((op == 5 || op == 6 || op == 7) && var == 0 && dur == 0)
    || ((op == 8 || op == 9) && var == 0 && dur == 0 && hasConvB))

/-- A command word from its fields, RSV = 0 (30_encoding R100, R104). -/
def commandWord (op var : BitVec 4) (dur : BitVec 1) : Word := 0#23 ++ dur ++ var ++ op

/-- VAR of a line code (30_encoding R102). -/
def LineCode.var : LineCode → BitVec 4
  | .nrz => 0
  | .nrzl => 1
  | .nrzi => 2
  | .ami => 3
  | .pst => 4
  | .man => 5
  | .dman => 6

/-- The word of a command (30_encoding R101, R102, R103). -/
def encode : Instr → Word
  | .encNrz => commandWord 1 LineCode.nrz.var 0
  | .encNrzl => commandWord 1 LineCode.nrzl.var 0
  | .encNrzi => commandWord 1 LineCode.nrzi.var 0
  | .encAmi => commandWord 1 LineCode.ami.var 0
  | .encPst => commandWord 1 LineCode.pst.var 0
  | .encMan => commandWord 1 LineCode.man.var 0
  | .encDman => commandWord 1 LineCode.dman.var 0
  | .decNrz => commandWord 2 LineCode.nrz.var 0
  | .decNrzl => commandWord 2 LineCode.nrzl.var 0
  | .decNrzi => commandWord 2 LineCode.nrzi.var 0
  | .decAmi => commandWord 2 LineCode.ami.var 0
  | .decPst => commandWord 2 LineCode.pst.var 0
  | .decMan => commandWord 2 LineCode.man.var 0
  | .decDman => commandWord 2 LineCode.dman.var 0
  | .lvlNrz => commandWord 3 LineCode.nrz.var 0
  | .lvlNrzl => commandWord 3 LineCode.nrzl.var 0
  | .lvlNrzi => commandWord 3 LineCode.nrzi.var 0
  | .lvlAmi => commandWord 3 LineCode.ami.var 0
  | .lvlPst => commandWord 3 LineCode.pst.var 0
  | .lvlMan => commandWord 3 LineCode.man.var 0
  | .lvlDman => commandWord 3 LineCode.dman.var 0
  | .mod => commandWord 4 0 0
  | .modDur => commandWord 4 0 1
  | .demod => commandWord 5 0 0
  | .sig => commandWord 6 0 0
  | .mlvl => commandWord 7 0 0
  | .modg => commandWord 8 0 0
  | .demodb => commandWord 9 0 0

/-- The instruction the decoder reads from a table word: a command is one 32-bit word (30_encoding R100), so
any bit from 32 upward is refused. -/
def decodeTableWord (nbits w : Nat) : Option Instr :=
  if nbits ≤ 32 && decide (w < 2 ^ 32) then
    match decode (BitVec.ofNat 32 w) with
    | .ok i => some i
    | .error _ => none
  else none

end Sys2Proof
end

