-- ==== Sys2Proof/Machine/State.lean ====
section
/-! DEFINITION. The machine's state (10_state R30, R60, R61) as plain data, its faults and refusals, and the state
after reset. A register that R60 marks unspecified holds a word that the model names and is counted as unwritten, and a
read of it is marked as Unwritten (log 3). A buffer element that nothing has written holds no value (log 19). -/

namespace Sys2Proof.Machine

/-- The modulator variants, MOD_CFG.VARIANT 0 to 3 (10_state R46). -/
inductive Variant where
  | dflt
  | ask
  | fsk
  | psk
  deriving DecidableEq, Repr

/-- The hardware errors (60_exceptions R270). -/
inductive ErrCode where
  | illegal
  | config
  | capacity
  | shape
  | domain
  | alphabet
  deriving DecidableEq, Repr

/-- STATUS (10_state R36): its four fields. The reserved bits read 0 and have no storage. An ECODE of 7 to 15
is reported by nothing (60_exceptions R270), so it is no value of the field; `none` is code 0, NONE. -/
structure Status where
  busy : Bool
  done : Bool
  err : Bool
  ecode : Option ErrCode
  deriving DecidableEq, Repr

/-- MOD_CFG (10_state R46): its two fields. The reserved bits are write-ignored and read 0, and have no
storage. -/
structure ModCfg where
  variant : Variant
  k : BitVec 2
  deriving DecidableEq, Repr

/-- The registers of the register map (10_state R33). -/
inductive Reg where
  | cmd
  | status
  | eidx
  | inLen
  | tinLen
  | outLen
  | argDur
  | argBins
  | modCfg
  | modSps
  | modFreq
  | modAmp
  | modDur
  | modLvl (i : Fin 3)
  | modPar (i : Fin 3)
  deriving DecidableEq, Repr

/-- The element buffers (10_state R56). -/
inductive Buf where
  | inB
  | tin
  | out
  | tout
  deriving DecidableEq, Repr

/-- A place a read can find unwritten: a register or a buffer element. -/
inductive Loc where
  | reg (r : Reg)
  | elem (b : Buf) (i : Nat)
  deriving DecidableEq, Repr

/-- Which rule a forbidden host access breaks (log 14). -/
inductive Hazard where
  /-- an access other than a STATUS read while BUSY = 1 (20_memory R84) -/
  | busy
  /-- a register access that is no whole word at a multiple of 4 (20_memory R74) -/
  | form
  /-- a reserved register offset (20_memory R85), or an offset outside the window (log 15) -/
  | reserved
  /-- a buffer index at or beyond the capacity (20_memory R77) -/
  | index
  deriving DecidableEq, Repr

/-- The marks of the model's fault record (00_scope section 8, 10_state R60 and R61, 60_exceptions R282). -/
inductive ModelFault where
  /-- `model_fault Unwritten` (00_scope R21) at a place -/
  | unwritten (l : Loc)
  /-- `model_fault HostHazard` (00_scope R22) -/
  | hostHazard (h : Hazard)
  deriving DecidableEq, Repr

/-- What stops the model, at places where the spec gives the outcome no meaning (93_implementation_defined). Both are
safe: the chip goes on, the model stops. -/
inductive Fault where
  /-- The engine or the host reads a buffer element that nothing has written since reset, which holds no value
  (10_state R60, 20_memory R88, log 19). Raised by every command that reads such an element of IN or TIN and by host
  reads of an element; safe. `stop` is that element, and `first` is the place at which `model_fault Unwritten` is taken
  (60_exceptions R282): the element itself, or an unwritten register that the command read before it. -/
  | unwritten (stop first : Loc)
  /-- `model_fault HostHazard` (00_scope R22): the host makes an access the spec forbids. Raised by host accesses
  only; safe. -/
  | hostHazard (h : Hazard)
  deriving DecidableEq, Repr

/-- The refusals. -/
inductive Refusal where
  /-- Raised by an arm of `exec` whose instruction has no meaning yet; safe. No arm raises it. -/
  | notModelled (mnemonic : String)
  deriving DecidableEq, Repr

/-- One host access (20_memory R90). A register access carries its byte offset and its width in bytes, so that
the forms R74 forbids can be asked for; a write carries the word. -/
inductive Access where
  | readReg (offset width : Nat)
  | writeReg (offset width : Nat) (v : Word)
  | readBuf (b : Buf) (i : Nat)
  | writeBuf (b : Buf) (i : Nat) (v : Word)
  deriving DecidableEq, Repr

/-- What can happen next (log 6): a host access, the engine's turn, or the platform's reset signal. -/
inductive Move where
  | host (a : Access)
  | engine
  | reset
  deriving DecidableEq, Repr

/-- A register whose reset value R60 leaves unspecified: the word it holds, and whether anything has written it since
reset (log 3). -/
structure Held where
  word : Word
  written : Bool
  deriving DecidableEq, Repr

/-- Such a register right after reset: the model names the word 0 (log 3). -/
def Held.atReset : Held := { word := 0#32, written := false }

/-- The three entries of one column of the level-to-parameter table (10_state R51). -/
structure Table where
  e0 : Held
  e1 : Held
  e2 : Held
  deriving DecidableEq, Repr

/-- A buffer's content: (index, element) pairs, indices strictly rising. An index not listed holds no value
(10_state R60, log 5, log 19). The addressable unit is one whole element (20_memory R72). -/
abbrev Memory := List (Nat × Word)

/-- The canonical form: indices strictly rising. No entry can equal what an unlisted index reads as, since that
is no value. -/
def Memory.wf : Memory → Bool
  | [] => true
  | [_] => true
  | a :: b :: m => decide (a.1 < b.1) && Memory.wf (b :: m)

/-- The state of the core (10_state R30, R33, R51, R55, R56), its parameters, its fault record (R60, R61), and the
model's own two lists for the outside world (log 6, log 7). -/
structure State where
  /-- the implementation parameters (00_scope R12); no step changes them -/
  cfg : Config
  /-- CMD; the latched command while BUSY = 1 -/
  cmd : Word
  status : Status
  eidx : Word
  inLen : Word
  tinLen : Word
  outLen : Word
  argDur : Held
  argBins : Word
  modCfg : ModCfg
  modSps : Word
  modFreq : Held
  modAmp : Held
  modDur : Held
  /-- MOD_LVL0..2 -/
  lvl : Table
  /-- MOD_PAR0..2 -/
  par : Table
  inBuf : Memory
  tinBuf : Memory
  outBuf : Memory
  toutBuf : Memory
  /-- ESTATE, hidden (10_state R30 d, R55): one level value, −1 or +1; nothing reads it (log 4) -/
  estate : Int
  /-- the model's fault record (10_state R60, R61) -/
  faults : List ModelFault
  /-- the model's own: what happens next, oldest first -/
  agenda : List Move
  /-- the model's own: the words the host's reads have returned, oldest first -/
  reads : List Word
  deriving DecidableEq, Repr

/-- ESTATE right after reset, where R60 leaves it unspecified: the model names the level −1 (log 4). -/
def estateAtReset : Int := -1

/-- The state right after reset (10_state R60) of a core with the given parameters, at the launch of a run
(70_reset R328: clean entry). -/
def State.resetWith (c : Config) : State where
  cfg := c
  cmd := 0#32
  status := { busy := false, done := false, err := false, ecode := none }
  eidx := 0#32
  inLen := 0#32
  tinLen := 0#32
  outLen := 0#32
  argDur := Held.atReset
  argBins := 0#32
  modCfg := { variant := .dflt, k := 0#2 }
  modSps := 0#32
  modFreq := Held.atReset
  modAmp := Held.atReset
  modDur := Held.atReset
  lvl := { e0 := Held.atReset, e1 := Held.atReset, e2 := Held.atReset }
  par := { e0 := Held.atReset, e1 := Held.atReset, e2 := Held.atReset }
  inBuf := []
  tinBuf := []
  outBuf := []
  toutBuf := []
  estate := estateAtReset
  faults := []
  agenda := []
  reads := []

/-- The state right after reset of the chip at hand. -/
def State.reset : State := State.resetWith Config.chip

/-- The outcome of a step of this machine. -/
abbrev Step := Host.Outcome State Fault Refusal

end Sys2Proof.Machine
end

