-- ==== Sys2Proof/Machine/Flags.lean ====
section
/-! DEFINITION. The core's only flags, STATUS.BUSY, DONE, ERR and the code ECODE (10_state R36, R59), the three
events that write them, and the words of the two packed registers. -/

namespace Sys2Proof.Machine

/-- STATUS.ECODE of an error (60_exceptions R270). -/
def ErrCode.code : ErrCode → BitVec 4
  | .illegal => 1
  | .config => 2
  | .capacity => 3
  | .shape => 4
  | .domain => 5
  | .alphabet => 6

/-- The four bits of STATUS.ECODE; NONE is 0 (60_exceptions R270). -/
def ecodeBits : Option ErrCode → BitVec 4
  | none => 0
  | some e => e.code

/-- The word a read of STATUS returns (10_state R36). -/
def Status.toWord (f : Status) : Word :=
  0#24 ++ ecodeBits f.ecode ++ 0#1 ++ BitVec.ofBool f.err ++ BitVec.ofBool f.done ++ BitVec.ofBool f.busy

/-- STATUS after reset (10_state R60). -/
def Status.idle : Status := { busy := false, done := false, err := false, ecode := none }

/-- STATUS after a write of CMD (20_memory R87). -/
def Status.latched : Status := { busy := true, done := false, err := false, ecode := none }

/-- STATUS after a successful engine step (60_exceptions R285). -/
def Status.success : Status := { busy := false, done := true, err := false, ecode := none }

/-- STATUS after an engine step that ended in an error (60_exceptions R285). -/
def Status.failure (e : ErrCode) : Status := { busy := false, done := false, err := true, ecode := some e }

/-- MOD_CFG.VARIANT of a variant (10_state R46). -/
def Variant.code : Variant → BitVec 2
  | .dflt => 0
  | .ask => 1
  | .fsk => 2
  | .psk => 3

/-- The variant a MOD_CFG.VARIANT value selects: all four are legal (10_state R46). -/
def Variant.ofCode (b : BitVec 2) : Variant :=
  match b.toNat with
  | 0 => .dflt
  | 1 => .ask
  | 2 => .fsk
  | _ => .psk

/-- The word a read of MOD_CFG returns: the reserved bits read 0 (10_state R34, R46). -/
def ModCfg.toWord (m : ModCfg) : Word := 0#26 ++ m.k ++ 0#2 ++ m.variant.code

/-- What a write of MOD_CFG stores: the reserved bits are ignored (10_state R34, R46). -/
def ModCfg.ofWord (w : Word) : ModCfg :=
  { variant := Variant.ofCode (w.extractLsb' 0 2), k := w.extractLsb' 4 2 }

end Sys2Proof.Machine
end

