-- ==== Sys2Proof/Machine/Ops.lean ====
section
/-! DEFINITION. The shared operations: buffers, registers, the start of a command, the end of one (success and
error entry), and reset. Every read and write of a register or an element goes through here. -/

namespace Sys2Proof.Machine

/-! ### Buffers -/

/-- The element at an index; `none` where nothing has written it (10_state R60). -/
def Memory.read : Memory → Nat → Option Word
  | [], _ => none
  | (j, w) :: m, i => if j = i then some w else Memory.read m i

/-- Store one element, keeping the canonical form. -/
def Memory.write : Memory → Nat → Word → Memory
  | [], i, w => [(i, w)]
  | (j, v) :: m, i, w =>
    if i < j then (i, w) :: (j, v) :: m
    else if i = j then (i, w) :: m
    else (j, v) :: Memory.write m i w

/-- Store a list of elements at ascending indices from `j` on (20_memory R78). -/
def Memory.writeFrom : Memory → Nat → List Word → Memory
  | m, _, [] => m
  | m, j, w :: ws => Memory.writeFrom (m.write j w) (j + 1) ws

/-- Every listed index is below a capacity. -/
def Memory.within (cap : Nat) (m : Memory) : Bool := m.all fun e => decide (e.1 < cap)

/-- The content of a buffer. -/
def State.buf (s : State) : Buf → Memory
  | .inB => s.inBuf
  | .tin => s.tinBuf
  | .out => s.outBuf
  | .tout => s.toutBuf

/-- The state with a buffer's content replaced. -/
def State.setBuf (s : State) (b : Buf) (m : Memory) : State :=
  match b with
  | .inB => { s with inBuf := m }
  | .tin => { s with tinBuf := m }
  | .out => { s with outBuf := m }
  | .tout => { s with toutBuf := m }

/-- A buffer's capacity (10_state R56). -/
def capOf (c : Config) : Buf → Nat
  | .inB => c.capIn
  | .tin => c.capIn
  | .out => c.capOut
  | .tout => c.capOut

/-! ### Registers -/

/-- A register that holds a word and counts as written. -/
def Held.of (w : Word) : Held := { word := w, written := true }

/-- The value 10_state R60 and R61 give a register: its word, or `none` where it is unspecified and unwritten. -/
def Held.read (h : Held) : Option Word := if h.written then some h.word else none

/-- The register counted as written, with the word it holds. -/
def Held.settle (h : Held) : Held := Held.of h.word

/-- One entry of a table column. -/
def Table.at (t : Table) (i : Fin 3) : Held :=
  match i with
  | 0 => t.e0
  | 1 => t.e1
  | 2 => t.e2

/-- The value of one entry of a table column. -/
def Table.get (t : Table) (i : Fin 3) : Option Word := (t.at i).read

/-- One entry of a table column replaced. -/
def Table.set (t : Table) (i : Fin 3) (w : Word) : Table :=
  match i with
  | 0 => { t with e0 := Held.of w }
  | 1 => { t with e1 := Held.of w }
  | 2 => { t with e2 := Held.of w }

/-- Every entry counted as written. -/
def Table.settle (t : Table) : Table := { e0 := t.e0.settle, e1 := t.e1.settle, e2 := t.e2.settle }

/-- The register at a byte offset; `none` for a reserved offset (10_state R33). -/
def Reg.ofOffset : Nat → Option Reg
  | 0x00 => some .cmd
  | 0x04 => some .status
  | 0x08 => some .eidx
  | 0x0C => some .inLen
  | 0x10 => some .tinLen
  | 0x14 => some .outLen
  | 0x18 => some .argDur
  | 0x1C => some .argBins
  | 0x20 => some .modCfg
  | 0x24 => some .modSps
  | 0x28 => some .modFreq
  | 0x2C => some .modAmp
  | 0x30 => some .modDur
  | 0x38 => some (.modLvl 0)
  | 0x3C => some (.modLvl 1)
  | 0x40 => some (.modLvl 2)
  | 0x44 => some (.modPar 0)
  | 0x48 => some (.modPar 1)
  | 0x4C => some (.modPar 2)
  | _ => none

/-- The byte offset of a register (10_state R33, R51). -/
def Reg.offset : Reg → Nat
  | .cmd => 0x00
  | .status => 0x04
  | .eidx => 0x08
  | .inLen => 0x0C
  | .tinLen => 0x10
  | .outLen => 0x14
  | .argDur => 0x18
  | .argBins => 0x1C
  | .modCfg => 0x20
  | .modSps => 0x24
  | .modFreq => 0x28
  | .modAmp => 0x2C
  | .modDur => 0x30
  | .modLvl i => 0x38 + 4 * i.val
  | .modPar i => 0x44 + 4 * i.val

/-- What a register holds. One that R60 gives a reset value counts as written from reset on. -/
def State.reg (s : State) : Reg → Held
  | .cmd => .of s.cmd
  | .status => .of s.status.toWord
  | .eidx => .of s.eidx
  | .inLen => .of s.inLen
  | .tinLen => .of s.tinLen
  | .outLen => .of s.outLen
  | .argDur => s.argDur
  | .argBins => .of s.argBins
  | .modCfg => .of s.modCfg.toWord
  | .modSps => .of s.modSps
  | .modFreq => s.modFreq
  | .modAmp => s.modAmp
  | .modDur => s.modDur
  | .modLvl i => s.lvl.at i
  | .modPar i => s.par.at i

/-- `x[NAME]` (00_scope R16) as 10_state R61 types it: the word a register holds; `none` where it is unspecified and
unwritten (10_state R60). -/
def State.regRead (s : State) (r : Reg) : Option Word := (s.reg r).read

/-- Every register counted as written, with the word it holds (log 3). -/
def State.settled (s : State) : State :=
  { s with
    argDur := s.argDur.settle
    modFreq := s.modFreq.settle
    modAmp := s.modAmp.settle
    modDur := s.modDur.settle
    lvl := s.lvl.settle
    par := s.par.settle }

/-- A mark added to the fault record, which nothing ever clears (00_scope R21, 60_exceptions R282). -/
def State.mark (s : State) (m : ModelFault) : State := { s with faults := s.faults ++ [m] }

/-- A host write of CMD while idle (20_memory R87): the word is latched, DONE, ERR, ECODE and EIDX are cleared and
BUSY is set. -/
def State.latch (s : State) (v : Word) : State :=
  { s with cmd := v, status := Status.latched, eidx := 0#32 }

/-- A host write of a register while idle (10_state R34, 20_memory R75): CMD starts a command, the read-only
registers ignore it, and the others store it. -/
def State.regWrite (s : State) (r : Reg) (v : Word) : State :=
  match r with
  | .cmd => s.latch v
  | .status => s
  | .eidx => s
  | .outLen => s
  | .inLen => { s with inLen := v }
  | .tinLen => { s with tinLen := v }
  | .argDur => { s with argDur := Held.of v }
  | .argBins => { s with argBins := v }
  | .modCfg => { s with modCfg := ModCfg.ofWord v }
  | .modSps => { s with modSps := v }
  | .modFreq => { s with modFreq := Held.of v }
  | .modAmp => { s with modAmp := Held.of v }
  | .modDur => { s with modDur := Held.of v }
  | .modLvl i => { s with lvl := s.lvl.set i v }
  | .modPar i => { s with par := s.par.set i v }

/-! ### Inside a command -/

/-- How a command's computation can end before it has a result: a hardware error with its index, `raise E(info)`
(00_scope R17), or the first read of an unwritten place (R21, 60_exceptions R282). -/
inductive Halt where
  | err (e : ErrCode) (info : Nat)
  | unwritten (l : Loc)
  deriving DecidableEq, Repr

/-- What a command that completes writes: the elements of OUT, those of TOUT where the command writes times
(10_state R58), and ESTATE where the command sets it (R55). -/
structure Result where
  out : List Word
  tout : Option (List Word)
  estate : Option Int
  deriving DecidableEq, Repr

/-- `if c then raise E(info)`. -/
def failIf (c : Bool) (e : ErrCode) (info : Nat) : Except Halt Unit :=
  if c then .error (.err e info) else .ok ()

/-- A value that must have been written: `model_fault Unwritten` is taken otherwise. -/
def present (o : Option Word) (l : Loc) : Except Halt Word :=
  match o with
  | some w => .ok w
  | none => .error (.unwritten l)

/-- The engine's read of a register. -/
def State.fetchReg (s : State) (r : Reg) : Except Halt Word := present (s.regRead r) (.reg r)

/-- `MemRead(BUF, i)` by the engine. -/
def State.fetchElem (s : State) (b : Buf) (i : Nat) : Except Halt Word := present ((s.buf b).read i) (.elem b i)

/-- `for i in start .. start + count − 1`, in ascending order, collecting what each turn gives and ending at the
first turn that halts (00_scope R18, 20_memory R78, 60_exceptions R281, R282). -/
def collect {α : Type} (f : Nat → Except Halt α) : Nat → Nat → Except Halt (List α)
  | _, 0 => .ok []
  | start, count + 1 =>
    match f start with
    | .error h => .error h
    | .ok a =>
      match collect f (start + 1) count with
      | .error h => .error h
      | .ok as => .ok (a :: as)

/-! ### The end of a command -/

/-- The word OUT_LEN takes for a count: the count itself where 32 bits hold it (10_state R43), else a free value
(log 10). -/
def lenWord (m : Nat) : Word := if m < 2 ^ 32 then BitVec.ofNat 32 m else Config.lenBeyondWord m

/-- The successful end of an engine step (10_state R58, 60_exceptions R285). -/
def State.succeed (s : State) (r : Result) : State :=
  { s with
    outBuf := s.outBuf.writeFrom 0 r.out
    toutBuf :=
      match r.tout with
      | none => s.toutBuf
      | some ts => s.toutBuf.writeFrom 0 ts
    outLen := lenWord r.out.length
    estate := r.estate.getD s.estate
    status := Status.success
    eidx := 0#32 }

/-- TAKING A HARDWARE ERROR (60_exceptions R284, R285): only STATUS and EIDX change. There is no saved pc, no vector
and no mode; the next write of CMD clears it (R287, `State.latch`). -/
def State.raise (s : State) (e : ErrCode) (info : Nat) : State :=
  { s with status := Status.failure e, eidx := BitVec.ofNat 32 info }

/-- The end of an engine step: success, error entry (60_exceptions R285), or the stop at an element that holds no value
(R282, log 19); `first` is an unwritten register that the command read before. -/
def conclude (s : State) (first : Option Loc) (c : Except Halt Result) : Step :=
  match c with
  | .ok r => .next (s.succeed r)
  | .error (.err e info) => .next (s.raise e info)
  | .error (.unwritten l) => .fault (.unwritten l (first.getD l))

/-- The unwritten register at which a computation takes `model_fault Unwritten`, if it is a register. -/
def unwrittenRegister : Except Halt Result → Option Reg
  | .error (.unwritten (.reg r)) => some r
  | .error (.unwritten (.elem _ _)) => none
  | .error (.err _ _) => none
  | .ok _ => none

/-- The engine step of a command with the computation `body`. At the first unwritten register it reads,
`model_fault Unwritten` is recorded (60_exceptions R282) and the command goes on with the words the registers hold
(log 3). -/
def finish (s : State) (body : State → Except Halt Result) : Step :=
  match unwrittenRegister (body s) with
  | none => conclude s none (body s)
  | some r => conclude (s.mark (.unwritten (.reg r))) (some (.reg r)) (body s.settled)

/-- The gate of convention B (30_encoding R108, 60_exceptions R271): on a chip without it the command is ILLEGAL,
whatever its computation would do. -/
def convB (s : State) (o : Step) : Step :=
  match o with
  | .next t => .next (if s.cfg.hasConvB then t else s.raise .illegal 0)
  | .fault f => if s.cfg.hasConvB then .fault f else .next (s.raise .illegal 0)
  | .refused r => if s.cfg.hasConvB then .refused r else .next (s.raise .illegal 0)

/-! ### Reset -/

/-- The platform reset (70_reset R310): every register and element takes its R60 value and a command in progress
is abandoned. The fault record and what is outside the core (log 6, log 7) stay. -/
def State.takeReset (s : State) : State :=
  { State.resetWith s.cfg with faults := s.faults, agenda := s.agenda, reads := s.reads }

end Sys2Proof.Machine
end

