-- ==== Sys2Proof/Machine/Operands.lean ====
section
/-! DEFINITION. The operand forms: an element read as a bit, as a level or as a number, a register read as a
number (10_state R57), the words results are written as, and the checked configuration of the modulation unit
(41_modulation R200, R201). -/

namespace Sys2Proof.Machine

/-- The word of an output bit, `word(0)` or `word(1)` (10_state R57). -/
def bitWord (b : Bool) : Word := word (if b then 1 else 0)

/-- IN[i] as a bit: exactly 0 or 1, else DOMAIN(i) (10_state R57 a, 40_line_codes R131). -/
def State.fetchBit (s : State) (i : Nat) : Except Halt Bool := do
  let w ← s.fetchElem .inB i
  failIf (w != 0#32 && w != 1#32) .domain i
  .ok (w == 1#32)

/-- IN[i] as a level of an alphabet, else DOMAIN(i) (10_state R57 b, 40_line_codes R132). -/
def State.fetchLevel (s : State) (alphabet : List Int) (i : Nat) : Except Halt Int := do
  let w ← s.fetchElem .inB i
  failIf (!alphabet.contains (sint w)) .domain i
  .ok (sint w)

/-- An element as a finite number, else DOMAIN(i) (10_state R57 c). -/
def State.fetchNum {Num : Type} (F : NumFmt Num) (s : State) (b : Buf) (i : Nat) : Except Halt Num := do
  let w ← s.fetchElem b i
  match F.num w with
  | none => .error (.err .domain i)
  | some x => .ok x

/-- A register as a finite number, else CONFIG(0) (10_state R57 c). -/
def State.fetchRegNum {Num : Type} (F : NumFmt Num) (s : State) (r : Reg) : Except Halt Num := do
  let w ← s.fetchReg r
  match F.num w with
  | none => .error (.err .config 0)
  | some x => .ok x

/-! ### The checked configuration of the modulation unit -/

/-- The index of a table entry as the register map numbers it. -/
def entry (i : Nat) : Fin 3 := Fin.ofNat 3 i

/-- The levels are strictly ascending (10_state R51). -/
def ascending : List Int → Bool
  | [] => true
  | [_] => true
  | a :: b :: l => decide (a < b) && ascending (b :: l)

/-- The first half of `ModConfig` (41_modulation R200): K is 2 or 3 and the K levels are strictly ascending. -/
def State.modLevels (s : State) : Except Halt (List Int) := do
  failIf (s.modCfg.k != 2#2 && s.modCfg.k != 3#2) .config 0
  let lvl ← collect (fun i => do
    let w ← s.fetchReg (.modLvl (entry i))
    .ok (sint w)) 0 s.modCfg.k.toNat
  failIf (!ascending lvl) .config 0
  .ok lvl

/-- The carrier of a variant with the carrier numbers its references use (41_modulation R203 to R206). -/
inductive Carrier (Num : Type) where
  | dflt
  | ask (f : Num)
  | fsk (a : Num)
  | psk (f a : Num)
  deriving DecidableEq, Repr

/-- A configuration that passed `ModConfig(_, true)`: the levels ℓ_i, the parameters P_i and the carrier. -/
structure Modem (Num : Type) where
  lvl : List Int
  par : List Num
  carrier : Carrier Num
  deriving DecidableEq, Repr

/-- The part `if needPar` of `ModConfig` (41_modulation R200): P_0 to P_{K−1}, then MOD_FREQ for ASK and PSK, then
MOD_AMP for FSK and PSK. -/
def State.modParams {Num : Type} (F : NumFmt Num) (s : State) : Except Halt (List Num × Carrier Num) := do
  let par ← collect (fun i => s.fetchRegNum F (.modPar (entry i))) 0 s.modCfg.k.toNat
  match s.modCfg.variant with
  | .dflt => .ok (par, .dflt)
  | .ask => do
    let f ← s.fetchRegNum F .modFreq
    .ok (par, .ask f)
  | .fsk => do
    let a ← s.fetchRegNum F .modAmp
    .ok (par, .fsk a)
  | .psk => do
    let f ← s.fetchRegNum F .modFreq
    let a ← s.fetchRegNum F .modAmp
    .ok (par, .psk f a)

/-- `ModConfig(false, true)` (41_modulation R200). -/
def State.modConfig {Num : Type} (F : NumFmt Num) (s : State) : Except Halt (Modem Num) := do
  let lvl ← s.modLevels
  let p ← s.modParams F
  .ok { lvl := lvl, par := p.1, carrier := p.2 }

/-- The part `if needS` of `ModConfig` (41_modulation R200): S ≥ 1. -/
def State.modSamples (s : State) : Except Halt Nat := do
  failIf (uint s.modSps == 0) .config 0
  .ok (uint s.modSps)

/-- `ModConfig(true, true)` (41_modulation R200). -/
def State.modConfigS {Num : Type} (F : NumFmt Num) (s : State) : Except Halt (Modem Num × Nat) := do
  let c ← s.modConfig F
  let n ← s.modSamples
  .ok (c, n)

/-- `idx(ℓ)` (41_modulation R201): the index of the table entry that holds the level. -/
def levelIndex (lvl : List Int) (l : Int) : Option Nat := lvl.findIdx? (· == l)

/-- The parameter of the table entry that holds a level: P[idx(ℓ)]. -/
def Modem.parOf {Num : Type} (c : Modem Num) (l : Int) : Option Num :=
  (levelIndex c.lvl l).bind fun i => c.par[i]?

/-- IN[j] as a table level, answering its entry's parameter, else ALPHABET(j) (41_modulation R217). -/
def State.fetchSymbol {Num : Type} (s : State) (c : Modem Num) (j : Nat) : Except Halt Num := do
  let w ← s.fetchElem .inB j
  match c.parOf (sint w) with
  | none => .error (.err .alphabet j)
  | some p => .ok p

end Sys2Proof.Machine
end

