-- ==== Sys2Proof/Machine/LineCode.lean ====
section
/-! DEFINITION. The line-code unit (40_line_codes): the alphabets, the three command frames, the seven codes,
and the 21 meanings. Bits are Booleans (1 is true) and levels are integers. -/

namespace Sys2Proof.Machine

/-! ### Alphabets and frames -/

/-- `levels(v)`, ascending (40_line_codes R130). -/
def levelsOf : LineCode → List Int
  | .nrz | .nrzl | .nrzi | .man | .dman => [-1, 1]
  | .ami | .pst => [-1, 0, 1]

/-- `mult(v)`: symbols per bit (40_line_codes R130). -/
def multOf : LineCode → Nat
  | .nrz | .nrzl | .nrzi | .ami | .pst => 1
  | .man | .dman => 2

/-- A fold with a scalar state that emits a list at each element: what ESTATE is inside one command
(10_state R55, R61, 70_reset R312). It answers the emitted elements and the last state. -/
def emit {α β : Type} (f : Int → α → Int × List β) : Int → List α → List β × Int
  | e, [] => ([], e)
  | e, a :: l => ((f e a).2 ++ (emit f (f e a).1 l).1, (emit f (f e a).1 l).2)

/-- The ENCODE frame (40_line_codes R131). `code` answers the levels and, for the variants that use it, the last
ESTATE. -/
def encodeFrame (v : LineCode) (code : List Bool → List Int × Option Int) (s : State) : Except Halt Result := do
  let n := uint s.inLen
  failIf (n > s.cfg.capIn) .capacity 0
  failIf (multOf v * n > s.cfg.capOut) .capacity 0
  let bits ← collect s.fetchBit 0 n
  .ok { out := (code bits).1.map word, tout := none, estate := (code bits).2 }

/-- The DECODE frame (40_line_codes R132). -/
def decodeFrame (v : LineCode) (code : List Int → List Bool × Option Int) (s : State) : Except Halt Result := do
  let n := uint s.inLen
  failIf (n > s.cfg.capIn) .capacity 0
  failIf (multOf v == 2 && n % 2 != 0) .shape 0
  failIf (n / multOf v > s.cfg.capOut) .capacity 0
  let levels ← collect (s.fetchLevel (levelsOf v)) 0 n
  .ok { out := (code levels).1.map bitWord, tout := none, estate := (code levels).2 }

/-- The ELEVELS frame (40_line_codes R133): it cannot fail. -/
def levelsFrame (v : LineCode) : Except Halt Result :=
  .ok { out := (levelsOf v).map word, tout := none, estate := none }

/-- The consecutive pairs of a list of even length. -/
def pairs {α : Type} : List α → List (α × α)
  | [] => []
  | [_] => []
  | a :: b :: l => (a, b) :: pairs l

/-! ### The codes -/

/-- 40_line_codes R134. -/
def encodeNrz (b : List Bool) : List Int := b.map fun x => if x then 1 else -1

/-- 40_line_codes R135. -/
def decodeNrz (s : List Int) : List Bool := s.map fun x => decide (x > 0)

/-- 40_line_codes R137. -/
def encodeNrzl (b : List Bool) : List Int := b.map fun x => if x then -1 else 1

/-- 40_line_codes R138. -/
def decodeNrzl (s : List Int) : List Bool := s.map fun x => decide (x < 0)

/-- 40_line_codes R140: toggle on 1, hold on 0, emit after the toggle; ESTATE starts low. -/
def encodeNrzi (b : List Bool) : List Int × Int :=
  emit (fun e x => if x then (-e, [-e]) else (e, [e])) (-1) b

/-- 40_line_codes R141: 1 where a sample differs from the one before; the first is compared with low. -/
def decodeNrzi (s : List Int) : List Bool × Int :=
  emit (fun e x => (x, [x != e])) (-1) s

/-- 40_line_codes R143: 0 is 0; each 1 flips the sign and emits it, the first emitting +1. -/
def encodeAmi (b : List Bool) : List Int × Int :=
  emit (fun e x => if x then (-e, [-e]) else (e, [0])) (-1) b

/-- 40_line_codes R144: nonzero is 1; the first position is forced 0. -/
def decodeAmi : List Int → List Bool
  | [] => []
  | _ :: s => false :: s.map fun x => x != 0

/-- 40_line_codes R146: the mirror of AMI. -/
def encodePst (b : List Bool) : List Int × Int :=
  emit (fun e x => if x then (e, [0]) else (-e, [-e])) (-1) b

/-- 40_line_codes R147: zero is 1; the first position is forced 0. -/
def decodePst : List Int → List Bool
  | [] => []
  | _ :: s => false :: s.map fun x => x == 0

/-- 40_line_codes R149: 1 is (low, high), 0 is (high, low). -/
def encodeMan (b : List Bool) : List Int := b.flatMap fun x => if x then [-1, 1] else [1, -1]

/-- 40_line_codes R150: 1 where the first half is the lower. -/
def decodeMan (s : List Int) : List Bool := (pairs s).map fun p => decide (p.1 < p.2)

/-- 40_line_codes R152: invert at the boundary on 1, always invert at the middle; ESTATE is the final half. -/
def encodeDman (init : Polarity) (b : List Bool) : List Int × Int :=
  emit (fun e x => let h := if x then -e else e; (-h, [h, -h])) init.level b

/-- 40_line_codes R153: 1 where a boundary value differs from the previous interval's final value. -/
def decodeDman (init : Polarity) (s : List Int) : List Bool × Int :=
  emit (fun e p => (p.2, [p.1 != e])) init.level (pairs s)

/-- A code without ESTATE. -/
def stateless {α β : Type} (f : List α → List β) (l : List α) : List β × Option Int := (f l, none)

/-- A code that sets ESTATE. -/
def stateful {α β : Type} (f : List α → List β × Int) (l : List α) : List β × Option Int := ((f l).1, some (f l).2)

/-- A DECODE of AMI or Pseudoternary sets ESTATE to the initial −1 and uses it no further (10_state R55,
70_reset R312, 40_line_codes R130; log 4). -/
def startsEstate {α β : Type} (f : List α → List β) (l : List α) : List β × Option Int := (f l, some (-1))

/-! ### The meanings -/

/-- `enc.nrz` (40_line_codes R134). -/
def execEncNrz (s : State) : Step := finish s (encodeFrame .nrz (stateless encodeNrz))
/-- `enc.nrzl` (40_line_codes R137). -/
def execEncNrzl (s : State) : Step := finish s (encodeFrame .nrzl (stateless encodeNrzl))
/-- `enc.nrzi` (40_line_codes R140). -/
def execEncNrzi (s : State) : Step := finish s (encodeFrame .nrzi (stateful encodeNrzi))
/-- `enc.ami` (40_line_codes R143). -/
def execEncAmi (s : State) : Step := finish s (encodeFrame .ami (stateful encodeAmi))
/-- `enc.pst` (40_line_codes R146). -/
def execEncPst (s : State) : Step := finish s (encodeFrame .pst (stateful encodePst))
/-- `enc.man` (40_line_codes R149). -/
def execEncMan (s : State) : Step := finish s (encodeFrame .man (stateless encodeMan))
/-- `enc.dman` (40_line_codes R152). -/
def execEncDman (s : State) : Step := finish s (encodeFrame .dman (stateful (encodeDman s.cfg.dmInit)))

/-- `dec.nrz` (40_line_codes R135). -/
def execDecNrz (s : State) : Step := finish s (decodeFrame .nrz (stateless decodeNrz))
/-- `dec.nrzl` (40_line_codes R138). -/
def execDecNrzl (s : State) : Step := finish s (decodeFrame .nrzl (stateless decodeNrzl))
/-- `dec.nrzi` (40_line_codes R141). -/
def execDecNrzi (s : State) : Step := finish s (decodeFrame .nrzi (stateful decodeNrzi))
/-- `dec.ami` (40_line_codes R144). -/
def execDecAmi (s : State) : Step := finish s (decodeFrame .ami (startsEstate decodeAmi))
/-- `dec.pst` (40_line_codes R147). -/
def execDecPst (s : State) : Step := finish s (decodeFrame .pst (startsEstate decodePst))
/-- `dec.man` (40_line_codes R150). -/
def execDecMan (s : State) : Step := finish s (decodeFrame .man (stateless decodeMan))
/-- `dec.dman` (40_line_codes R153). -/
def execDecDman (s : State) : Step := finish s (decodeFrame .dman (stateful (decodeDman s.cfg.dmInit)))

/-- `lvl.nrz` (40_line_codes R136). -/
def execLvlNrz (s : State) : Step := finish s fun _ => levelsFrame .nrz
/-- `lvl.nrzl` (40_line_codes R139). -/
def execLvlNrzl (s : State) : Step := finish s fun _ => levelsFrame .nrzl
/-- `lvl.nrzi` (40_line_codes R142). -/
def execLvlNrzi (s : State) : Step := finish s fun _ => levelsFrame .nrzi
/-- `lvl.ami` (40_line_codes R145). -/
def execLvlAmi (s : State) : Step := finish s fun _ => levelsFrame .ami
/-- `lvl.pst` (40_line_codes R148). -/
def execLvlPst (s : State) : Step := finish s fun _ => levelsFrame .pst
/-- `lvl.man` (40_line_codes R151). -/
def execLvlMan (s : State) : Step := finish s fun _ => levelsFrame .man
/-- `lvl.dman` (40_line_codes R154). -/
def execLvlDman (s : State) : Step := finish s fun _ => levelsFrame .dman

end Sys2Proof.Machine
end

