-- ==== Sys2Proof/Machine/Modulation.lean ====
section
/-! DEFINITION. The modulation unit (41_modulation): the signal primitive, the time grid, the classifier, the vote,
the median, the command bodies and the 7 meanings. Everything is a function of NUM_FMT (00_scope R19); a meaning
applies it to the chip's own format `Config.numFmt` (log 2). -/

namespace Sys2Proof.Machine

variable {Num : Type}

/-! ### The signal primitive -/

/-- `2π × f × t` (00_scope R20). The rules are written over exact reals and state no grouping; the model multiplies from
the left (log 18). -/
def angle (F : NumFmt Num) (f t : Num) : Num := F.mul (F.mul (F.mul (F.ofInt 2) F.pi) f) t

/-- `ref_i(t)` of the table entry with parameter `p` (41_modulation R202 to R206). -/
def refAt (F : NumFmt Num) (c : Carrier Num) (p t : Num) : Num :=
  match c with
  | .dflt => p
  | .ask f => F.mul p (F.cos (angle F f t))
  | .fsk a => F.mul a (F.cos (angle F p t))
  | .psk f a => F.mul a (F.cos (F.add (angle F f t) p))

/-- `signal(T)` (41_modulation R207): for each table level, its waveform at the time points. -/
def signal (F : NumFmt Num) (c : Modem Num) (ts : List Num) : List (List Num) :=
  c.par.map fun p => ts.map fun t => refAt F c.carrier p t

/-- `grid(N, D)` (41_modulation R215). The product is formed before the quotient (log 18). -/
def grid (F : NumFmt Num) (g : GridEndpoint) (n : Nat) (d : Num) : List Num :=
  match g with
  | .excl => (List.range n).map fun k : Nat => F.div (F.mul (F.ofInt k) d) (F.ofInt n)
  | .incl =>
    if n = 1 then [F.ofInt 0]
    else (List.range n).map fun k : Nat => F.div (F.mul (F.ofInt k) d) (F.ofInt (n - 1))

/-! ### Classification, vote and median -/

/-- The index of the least element of a list, the first one on a tie: `best` is the least so far, at index `bi`,
and `i` is the index of the list's head (log 11). -/
def argminFrom (F : NumFmt Num) (best : Num) (bi : Nat) : Nat → List Num → Nat
  | _, [] => bi
  | i, d :: ds => if F.lt d best then argminFrom F d i (i + 1) ds else argminFrom F best bi (i + 1) ds

/-- The least index of a least element (41_modulation R220, R228). -/
def argmin (F : NumFmt Num) : List Num → Nat
  | [] => 0
  | d :: ds => argminFrom F d 0 1 ds

/-- The index whose reference is nearest to a value, the lowest on a tie. -/
def nearest (F : NumFmt Num) (refs : List Num) (x : Num) : Nat := argmin F (refs.map fun r => F.abs (F.sub x r))

/-- `classify(x, t)` (41_modulation R220). -/
def classify (F : NumFmt Num) (c : Modem Num) (x t : Num) : Nat :=
  nearest F (c.par.map fun p => refAt F c.carrier p t) x

/-- `vote(c)` (41_modulation R221): the median of the codes; for an even count the mean of the two middle ones,
rounded half to even. -/
def vote (codes : List Nat) : Nat :=
  let d := codes.insertionSort (· ≤ ·)
  let s := codes.length
  if s % 2 = 1 then d.getD ((s - 1) / 2) 0
  else
    let a := d.getD (s / 2 - 1) 0
    let b := d.getD (s / 2) 0
    if (a + b) % 2 = 0 then (a + b) / 2
    else
      let lo := (a + b - 1) / 2
      if lo % 2 = 0 then lo else lo + 1

/-- The ascending sort of numbers. -/
def sortNum (F : NumFmt Num) (xs : List Num) : List Num := xs.insertionSort fun a b => F.lt b a = false

/-- `med` (41_modulation R226), of one number or more. -/
def med (F : NumFmt Num) (xs : List Num) : Num :=
  let d := sortNum F xs
  let w := xs.length
  let hi := d.getD (w / 2) (F.ofInt 0)
  if w % 2 = 1 then hi
  else F.div (F.add (d.getD (w / 2 - 1) (F.ofInt 0)) hi) (F.ofInt 2)

/-- The first `count` groups of `size` consecutive elements. -/
def groups {α : Type} (size : Nat) : Nat → List α → List (List α)
  | 0, _ => []
  | count + 1, l => l.take size :: groups size count (l.drop size)

/-- The word of a table level by its index. The index is always one of the table's (`Laws/Modulation.lean`;
log 12). -/
def Modem.levelWord (c : Modem Num) (i : Nat) : Word := word (c.lvl.getD i 0)

/-- `aref_i` (41_modulation R227). -/
def Modem.arefs (c : Modem Num) : List Num :=
  match c.carrier with
  | .dflt => c.par
  | .ask _ => c.par
  | .fsk a => c.par.map fun _ => a
  | .psk _ a => c.par.map fun _ => a

/-! ### The command bodies -/

/-- MLEVELS (41_modulation R211). -/
def mlevelsBody (s : State) : Except Halt Result := do
  let lvl ← s.modLevels
  .ok { out := lvl.map word, tout := none, estate := none }

/-- SIGNAL (41_modulation R210), level-major. -/
def signalBody (F : NumFmt Num) (s : State) : Except Halt Result := do
  let c ← s.modConfig F
  let n := uint s.tinLen
  failIf (n > s.cfg.capIn) .capacity 0
  failIf (s.modCfg.k.toNat * n > s.cfg.capOut) .capacity 0
  let ts ← collect (s.fetchNum F .tin) 0 n
  .ok { out := (signal F c ts).flatten.map F.enc, tout := none, estate := none }

/-- The duration of MODULATE (41_modulation R216): a finite number above 0, else CONFIG(0). -/
def duration (F : NumFmt Num) (r : Reg) (s : State) : Except Halt Num := do
  let d ← s.fetchRegNum F r
  failIf (!F.lt (F.ofInt 0) d) .config 0
  .ok d

/-- Each symbol repeated S times (41_modulation R217). -/
def repeatEach {α : Type} (n : Nat) (l : List α) : List α := l.flatMap fun a => List.replicate n a

/-- MODULATE (41_modulation R217); `r` is the register the duration comes from. -/
def modulateBody (F : NumFmt Num) (r : Reg) (s : State) : Except Halt Result := do
  let (c, sps) ← s.modConfigS F
  let d ← duration F r s
  let l := uint s.inLen
  failIf (l > s.cfg.capIn) .capacity 0
  let n := sps * l
  failIf (n > s.cfg.capOut) .capacity 0
  let syms ← collect (s.fetchSymbol c) 0 l
  let ts := grid F s.cfg.gridEndpoint n d
  .ok {
    out := (List.zipWith (refAt F c.carrier) (repeatEach sps syms) ts).map F.enc
    tout := some (ts.map F.enc)
    estate := none }

/-- One sample of DEMODULATE: the sample is checked before its time, and the two classify to a code
(41_modulation R222). -/
def fetchCode (F : NumFmt Num) (c : Modem Num) (s : State) (k : Nat) : Except Halt Nat := do
  let x ← s.fetchNum F .inB k
  let t ← s.fetchNum F .tin k
  .ok (classify F c x t)

/-- DEMODULATE (41_modulation R222). -/
def demodulateBody (F : NumFmt Num) (s : State) : Except Halt Result := do
  let (c, sps) ← s.modConfigS F
  let n := uint s.inLen
  let m := uint s.tinLen
  failIf (n > s.cfg.capIn || m > s.cfg.capIn) .capacity 0
  failIf (m != n) .shape 0
  failIf (n % sps != 0) .shape 0
  failIf (n / sps > s.cfg.capOut) .capacity 0
  let codes ← collect (fetchCode F c s) 0 n
  .ok {
    out := (groups sps (n / sps) codes).map fun g => c.levelWord (vote g)
    tout := none
    estate := none }

/-- MODULATE_GRID (41_modulation R225): the symbols over the given grid, then zeros; TOUT is TIN word for word. -/
def modulateGridBody (F : NumFmt Num) (s : State) : Except Halt Result := do
  let (c, sps) ← s.modConfigS F
  let l := uint s.inLen
  let m := uint s.tinLen
  failIf (l > s.cfg.capIn || m > s.cfg.capIn) .capacity 0
  failIf (m < sps * l) .shape 0
  failIf (m > s.cfg.capOut) .capacity 0
  let syms ← collect (s.fetchSymbol c) 0 l
  let ts ← collect (s.fetchNum F .tin) 0 m
  let tws ← collect (s.fetchElem .tin) 0 m
  .ok {
    out := (List.zipWith (refAt F c.carrier) (repeatEach sps syms) ts).map F.enc
      ++ List.replicate (m - sps * l) (F.enc (F.ofInt 0))
    tout := some tws
    estate := none }

/-- DEMODULATE_BINS (41_modulation R228). -/
def demodulateBinsBody (F : NumFmt Num) (s : State) : Except Halt Result := do
  let c ← s.modConfig F
  let b := uint s.argBins
  failIf (b == 0) .config 0
  let n := uint s.inLen
  failIf (n > s.cfg.capIn) .capacity 0
  if n = 0 then
    .ok { out := [], tout := none, estate := none }
  else do
    failIf (n % b != 0) .shape 0
    failIf (b > s.cfg.capOut) .capacity 0
    let xs ← collect (s.fetchNum F .inB) 0 n
    .ok {
      out := (groups (n / b) b xs).map fun g => c.levelWord (nearest F c.arefs (med F (g.map F.abs)))
      tout := none
      estate := none }

/-! ### The meanings, over any numeric format -/

/-- MODULATE with the duration from a register, over a format. -/
def modulateWith (F : NumFmt Num) (r : Reg) (s : State) : Step := finish s (modulateBody F r)
/-- DEMODULATE over a format. -/
def demodulateWith (F : NumFmt Num) (s : State) : Step := finish s (demodulateBody F)
/-- SIGNAL over a format. -/
def signalWith (F : NumFmt Num) (s : State) : Step := finish s (signalBody F)
/-- MODULATE_GRID over a format; ILLEGAL without convention B. -/
def modulateGridWith (F : NumFmt Num) (s : State) : Step := convB s (finish s (modulateGridBody F))
/-- DEMODULATE_BINS over a format; ILLEGAL without convention B. -/
def demodulateBinsWith (F : NumFmt Num) (s : State) : Step := convB s (finish s (demodulateBinsBody F))

/-! ### The meanings of the chip -/

/-- `mod` (41_modulation R217, DUR = 0). -/
def execMod (s : State) : Step := modulateWith Config.numFmt .modDur s
/-- `mod.dur` (41_modulation R217, DUR = 1). -/
def execModDur (s : State) : Step := modulateWith Config.numFmt .argDur s
/-- `demod` (41_modulation R222). -/
def execDemod (s : State) : Step := demodulateWith Config.numFmt s
/-- `sig` (41_modulation R210). -/
def execSig (s : State) : Step := signalWith Config.numFmt s
/-- `mlvl` (41_modulation R211). -/
def execMlvl (s : State) : Step := finish s mlevelsBody
/-- `modg` (41_modulation R225). -/
def execModg (s : State) : Step := modulateGridWith Config.numFmt s
/-- `demodb` (41_modulation R228). -/
def execDemodb (s : State) : Step := demodulateBinsWith Config.numFmt s

end Sys2Proof.Machine
end

