-- ==== Sys2Proof/Machine/Dispatch.lean ====
section
/-! DEFINITION. The dispatch: one arm per command. -/

namespace Sys2Proof.Machine

def exec (i : Instr) (s : State) : Host.Outcome State Fault Refusal :=
  match i with
  | .encNrz => Sys2Proof.Machine.execEncNrz s
  | .encNrzl => Sys2Proof.Machine.execEncNrzl s
  | .encNrzi => Sys2Proof.Machine.execEncNrzi s
  | .encAmi => Sys2Proof.Machine.execEncAmi s
  | .encPst => Sys2Proof.Machine.execEncPst s
  | .encMan => Sys2Proof.Machine.execEncMan s
  | .encDman => Sys2Proof.Machine.execEncDman s
  | .decNrz => Sys2Proof.Machine.execDecNrz s
  | .decNrzl => Sys2Proof.Machine.execDecNrzl s
  | .decNrzi => Sys2Proof.Machine.execDecNrzi s
  | .decAmi => Sys2Proof.Machine.execDecAmi s
  | .decPst => Sys2Proof.Machine.execDecPst s
  | .decMan => Sys2Proof.Machine.execDecMan s
  | .decDman => Sys2Proof.Machine.execDecDman s
  | .lvlNrz => Sys2Proof.Machine.execLvlNrz s
  | .lvlNrzl => Sys2Proof.Machine.execLvlNrzl s
  | .lvlNrzi => Sys2Proof.Machine.execLvlNrzi s
  | .lvlAmi => Sys2Proof.Machine.execLvlAmi s
  | .lvlPst => Sys2Proof.Machine.execLvlPst s
  | .lvlMan => Sys2Proof.Machine.execLvlMan s
  | .lvlDman => Sys2Proof.Machine.execLvlDman s
  | .mod => Sys2Proof.Machine.execMod s
  | .modDur => Sys2Proof.Machine.execModDur s
  | .demod => Sys2Proof.Machine.execDemod s
  | .sig => Sys2Proof.Machine.execSig s
  | .mlvl => Sys2Proof.Machine.execMlvl s
  | .modg => Sys2Proof.Machine.execModg s
  | .demodb => Sys2Proof.Machine.execDemodb s

end Sys2Proof.Machine
end

