-- ==== Sys2Proof/Machine/HostPort.lean ====
section
/-! DEFINITION. The host interface (20_memory sections 1, 2, 4, 5; 70_reset R327): one host access, and the host
statements and pseudo-instructions of 30_encoding R114, R115 as lists of moves. -/

namespace Sys2Proof.Machine

/-- What the host reads is kept for it (log 7). -/
def State.answer (s : State) (w : Word) : State := { s with reads := s.reads ++ [w] }

/-- A read of STATUS: one whole word at offset 4, the only access admitted while BUSY = 1 (20_memory R84). -/
def Access.readsStatus : Access → Bool
  | .readReg off width => off == 0x04 && width == 4
  | .writeReg _ _ _ | .readBuf _ _ | .writeBuf _ _ _ => false

/-- The register a register access reaches, or the hazard it is (20_memory R74, R85; log 15). -/
def targetReg (off width : Nat) : Except Hazard Reg :=
  if width != 4 || off % 4 != 0 then .error .form
  else match Reg.ofOffset off with
    | none => .error .reserved
    | some r => .ok r

/-- The answer to a host read of a register: the word held; where it is unspecified and unwritten, Unwritten is recorded
(20_memory R88, log 3). -/
def State.answerReg (s : State) (r : Reg) : State :=
  if (s.reg r).written then s.answer (s.reg r).word
  else (s.mark (.unwritten (.reg r))).answer (s.reg r).word

/-- The answer to a host read of an element: the word held, or the stop at Unwritten (20_memory R88, log 19). -/
def State.answerElem (s : State) (b : Buf) (i : Nat) : Step :=
  match (s.buf b).read i with
  | some w => .next (s.answer w)
  | none => .fault (.unwritten (.elem b i) (.elem b i))

/-- A host access while BUSY = 0 (20_memory R74 to R77, R85, R87, R88). -/
def State.accessIdle (s : State) : Access → Step
  | .readReg off width =>
    match targetReg off width with
    | .error h => .fault (.hostHazard h)
    | .ok r => .next (s.answerReg r)
  | .writeReg off width v =>
    match targetReg off width with
    | .error h => .fault (.hostHazard h)
    | .ok r => .next (s.regWrite r v)
  | .readBuf b i =>
    if i < capOf s.cfg b then s.answerElem b i
    else .fault (.hostHazard .index)
  | .writeBuf b i v =>
    if i < capOf s.cfg b then .next (s.setBuf b ((s.buf b).write i v))
    else .fault (.hostHazard .index)

/-- One host access: while BUSY = 1 only a STATUS read is admitted (20_memory R84). -/
def State.access (s : State) (a : Access) : Step :=
  if s.status.busy && !a.readsStatus then .fault (.hostHazard .busy)
  else s.accessIdle a

/-! ### Host statements (30_encoding R114) and pseudo-instructions (R115) -/

/-- `wr REG, value` -/
def wr (r : Reg) (v : Word) : Move := .host (.writeReg r.offset 4 v)
/-- `rd REG` -/
def rd (r : Reg) : Move := .host (.readReg r.offset 4)
/-- `wri i, value` -/
def wri (i : Nat) (v : Word) : Move := .host (.writeBuf .inB i v)
/-- `wrt i, value` -/
def wrt (i : Nat) (v : Word) : Move := .host (.writeBuf .tin i v)
/-- `rdo i` -/
def rdo (i : Nat) : Move := .host (.readBuf .out i)
/-- `rdto i` -/
def rdto (i : Nat) : Move := .host (.readBuf .tout i)

/-- `<mnemonic>`: the write of the command's word to CMD. -/
def issue (i : Instr) : Move := wr .cmd (encode i)

/-- `run <mnemonic>` on a schedule in which the host polls `polls` times before the engine's step and once after it
(`wait`; log 16). -/
def run (i : Instr) (polls : Nat) : List Move :=
  issue i :: List.replicate polls (rd .status) ++ [.engine, rd .status]

/-- Statements over ascending indices. -/
def eachFrom (f : Nat → Word → List Move) : Nat → List Word → List Move
  | _, [] => []
  | i, w :: ws => f i w ++ eachFrom f (i + 1) ws

/-- `ldin [a0, …]` -/
def ldin (ws : List Word) : List Move :=
  eachFrom (fun i w => [wri i w]) 0 ws ++ [wr .inLen (BitVec.ofNat 32 ws.length)]

/-- `ldt [t0, …]` -/
def ldt (ws : List Word) : List Move :=
  eachFrom (fun i w => [wrt i w]) 0 ws ++ [wr .tinLen (BitVec.ofNat 32 ws.length)]

/-- `mvout`, given the words the host reads from OUT[0..k−1]. -/
def mvout (ws : List Word) : List Move :=
  rd .outLen :: eachFrom (fun i w => [rdo i, wri i w]) 0 ws ++ [wr .inLen (BitVec.ofNat 32 ws.length)]

/-- `mvtout`, given the words the host reads from TOUT[0..k−1]. -/
def mvtout (ws : List Word) : List Move :=
  rd .outLen :: eachFrom (fun i w => [rdto i, wrt i w]) 0 ws ++ [wr .tinLen (BitVec.ofNat 32 ws.length)]

/-- The writes of the table entries of `cfgmod`. -/
def cfgEntries : List (Fin 3 × Word × Word) → List Move
  | [] => []
  | (i, l, p) :: es => wr (.modLvl i) l :: wr (.modPar i) p :: cfgEntries es

/-- `cfgmod var, [l0, …], [p0, …]`, given the entries in ascending order. -/
def cfgmod (v : Variant) (es : List (Fin 3 × Word × Word)) : List Move :=
  wr .modCfg (ModCfg.toWord { variant := v, k := BitVec.ofNat 2 es.length }) :: cfgEntries es

end Sys2Proof.Machine
end

