-- ==== Sys2Proof/Machine/Engine.lean ====
section
/-! DEFINITION. One engine step, and one move of the three agents (00_scope R11, 20_memory R90, 70_reset R310). -/

namespace Sys2Proof.Machine

/-- The engine step (30_encoding R108, 60_exceptions R280): a word that is no command is ILLEGAL before anything
else; a command has its meaning. -/
def engineStep (s : State) : Step :=
  match decode s.cmd with
  | .ok i => exec i s
  | .error _ => .next (s.raise .illegal 0)

/-- The engine has a step only while BUSY = 1 (00_scope R11); its turn passes otherwise. -/
def engineTurn (s : State) : Step := if s.status.busy then engineStep s else .next s

/-- One move. -/
def moveStep (m : Move) (s : State) : Step :=
  match m with
  | .host a => s.access a
  | .engine => engineTurn s
  | .reset => .next s.takeReset

end Sys2Proof.Machine
end

