-- ==== Sys2Proof/Machine/Step.lean ====
section
/-! DEFINITION. The step of the machine (log 6): the first move of the agenda, or, where the agenda is empty, the
engine's turn, so that a latched command is always executed in the end (20_memory R90). -/

namespace Sys2Proof.Machine

/-- One step. An idle core with an empty agenda stays as it is (70_reset R311). -/
def step (s : State) : Host.Outcome State Fault Refusal :=
  match s.agenda with
  | [] => engineTurn s
  | m :: rest => moveStep m { s with agenda := rest }

/-- The state in which the very next step runs the command with this word (log 8): the word latched as by a host
write of CMD (20_memory R87), and the engine's turn first in the agenda. -/
def State.withFetchWord (s : State) (nbits w : Nat) : State :=
  { s.latch (BitVec.ofNat 32 (w % 2 ^ nbits)) with agenda := .engine :: s.agenda }

end Sys2Proof.Machine
end

