-- ==== Sys2Proof/Safety.lean ====
section
/-! DEFINITION. What a safe run is: one without a model fault (00_scope section 8); the fault record of a run (10_state
R60, 60_exceptions R282, log 9); and the record that 10_state R61 gives as the state of a Lean model. -/

namespace Sys2Proof

/-- The mark that a stop leaves (60_exceptions R282). -/
def markOf : Machine.Fault → Machine.ModelFault
  | .unwritten _ first => .unwritten first
  | .hostHazard h => .hostHazard h

/-- The state after one step as an observer records it: a stop leaves the state, whose further course is not
modelled, with its mark in the record (60_exceptions R282). -/
def recorded (s : Machine.State) : Machine.State :=
  match Machine.step s with
  | .next t => t
  | .fault f => s.mark (markOf f)
  | .refused _ => s

/-- The first `k` steps end in no stop and record no model fault. -/
def safeRun (k : Nat) (s : Machine.State) : Prop := ∃ t, core.run k s = .next t ∧ t.faults = s.faults

/-- Clean entry (70_reset R328): the state directly after reset, with a host program still to run. -/
def CleanEntry (s : Machine.State) : Prop :=
  ∃ c ag, s = { Machine.State.resetWith c with agenda := ag }

/-- Every host access of an agenda. -/
def hostMoves (ag : List Machine.Move) : List Machine.Move := ag.filter fun
  | .host _ => true
  | .engine => false
  | .reset => false

/-- The record of 10_state R61, of a core with the given parameters. ESTATE is no field of it. -/
structure Record (c : Config) where
  regs : Machine.Reg → Option Word
  lvl : Fin 3 → Option Word
  par : Fin 3 → Option Word
  inb : Fin c.capIn → Option Word
  tin : Fin c.capIn → Option Word
  out : Fin c.capOut → Option Word
  tout : Fin c.capOut → Option Word
  faults : List Machine.ModelFault

/-- The state as that record. -/
def recordOf (s : Machine.State) : Record s.cfg where
  regs := s.regRead
  lvl := s.lvl.get
  par := s.par.get
  inb := fun i => s.inBuf.read i
  tin := fun i => s.tinBuf.read i
  out := fun i => s.outBuf.read i
  tout := fun i => s.toutBuf.read i
  faults := s.faults

end Sys2Proof
end

