-- ==== Sys2Proof/Certificates/Slice0/Obligations.lean ====
section
/-! DEFINITION. The statements for the provers. First the vocabulary they share, then one definition a statement.
Each docstring names the rule of spec/ it formalises. -/

open Sys2Proof Sys2Proof.Machine

namespace Sys2Proof.Claims

/-! ### What a step leaves -/

/-- The state after a hardware error (60_exceptions R284, R285): only STATUS and EIDX differ. -/
def ErrorState (s : State) (e : ErrCode) (k : Nat) : State :=
  { s with
    status := { busy := false, done := false, err := true, ecode := some e }
    eidx := BitVec.ofNat 32 k }

/-- `t` differs from `s` only in what a command may write: OUT, TOUT, OUT_LEN, ESTATE, STATUS and EIDX. -/
def KeepsTheRest (s t : State) : Prop :=
  t = { s with
    outBuf := t.outBuf, toutBuf := t.toutBuf, outLen := t.outLen, estate := t.estate, status := t.status,
    eidx := t.eidx }

/-- `t` is `s` after a command that succeeded, wrote `out` to OUT from index 0 on and `tout` to TOUT from index 0 on
(`[]` where it writes no times): every other element of OUT and TOUT, IN, TIN, every register but OUT_LEN, STATUS and
EIDX are as before (10_state R58, 60_exceptions R285). ESTATE, which nothing can observe, is spoken of by
`EstateIsSetOnlyByTheDifferentialCommands`. -/
structure Delivers (s t : State) (out tout : List Word) : Prop where
  rest : KeepsTheRest s t
  status : t.status = { busy := false, done := true, err := false, ecode := none }
  eidx : t.eidx = 0#32
  len : out.length < 2 ^ 32 → uint t.outLen = out.length
  out : ∀ j, t.outBuf.read j = (out[j]?).or (s.outBuf.read j)
  tout : ∀ j, t.toutBuf.read j = (tout[j]?).or (s.toutBuf.read j)

/-- The state with one mark more in its fault record: `model_fault Unwritten` at a register (00_scope R21). -/
def Marked (s : State) (r : Reg) : State := { s with faults := s.faults ++ [.unwritten (.reg r)] }

/-- The fault record of `t` is that of `s`, or has one mark more, for a register that nothing had written. -/
def RecordOnlyGrows (s t : State) : Prop :=
  t.faults = s.faults ∨ ∃ r, s.regRead r = none ∧ t.faults = s.faults ++ [.unwritten (.reg r)]

/-- `run` meets the unwritten register `r` first: Unwritten is recorded there (60_exceptions R282), and the run ends as
it does where every register counts as written with the word it holds. The registers themselves are as before. Going on
is the model's choice (log 3). -/
def MarksAndGoesOn (run : State → Step) (s : State) (r : Reg) : Prop :=
  match run s.settled, run s with
  | .next v, .next t => t = { v with
      argDur := s.argDur, modFreq := s.modFreq, modAmp := s.modAmp, modDur := s.modDur, lvl := s.lvl, par := s.par,
      faults := s.faults ++ [.unwritten (.reg r)] }
  | .fault (.unwritten l _), .fault f => f = .unwritten l (.reg r)
  | _, _ => False

/-- The stop at an element that holds no value, read before any unwritten register (60_exceptions R282). -/
def unwrittenElem (b : Buf) (k : Nat) : Step := .fault (.unwritten (.elem b k) (.elem b k))

/-! ### What the inputs hold -/

/-- IN holds these bits and IN_LEN their number. -/
def HoldsBits (s : State) (b : List Bool) : Prop :=
  uint s.inLen = b.length ∧
    ∀ i (h : i < b.length), s.inBuf.read i = some (if b[i] then 1#32 else 0#32)

/-- IN holds these levels and IN_LEN their number. -/
def HoldsLevels (s : State) (l : List Int) : Prop :=
  uint s.inLen = l.length ∧ ∀ i (h : i < l.length), ∃ w, s.inBuf.read i = some w ∧ w.toInt = l[i]

/-- A buffer's first elements are these numbers. -/
def HoldsNums {Num : Type} (F : NumFmt Num) (m : Memory) (xs : List Num) : Prop :=
  ∀ i (h : i < xs.length), ∃ w, m.read i = some w ∧ F.num w = some xs[i]

/-- IN[j] is a bit for every j below k. -/
def BitsBelow (s : State) (k : Nat) : Prop := ∀ j, j < k → s.inBuf.read j = some 0#32 ∨ s.inBuf.read j = some 1#32

/-- IN[j] is a level of the alphabet for every j below k. -/
def LevelsBelow (s : State) (alphabet : List Int) (k : Nat) : Prop :=
  ∀ j, j < k → ∃ w, s.inBuf.read j = some w ∧ w.toInt ∈ alphabet

/-- A buffer's element j is a number for every j below k. -/
def NumsBelow {Num : Type} (F : NumFmt Num) (m : Memory) (k : Nat) : Prop :=
  ∀ j, j < k → ∃ w x, m.read j = some w ∧ F.num w = some x

/-- The first K levels of the table are written and are `lvl`. -/
def HoldsTable (s : State) (lvl : List Int) : Prop :=
  lvl.length = s.modCfg.k.toNat ∧
    ∀ i (h : i < lvl.length), ∃ w, s.lvl.get (Fin.ofNat 3 i) = some w ∧ w.toInt = lvl[i]

/-- The carrier registers a variant uses hold the carrier's numbers (10_state R54). -/
def HoldsCarrier {Num : Type} (F : NumFmt Num) (s : State) (c : Carrier Num) : Prop :=
  match s.modCfg.variant, c with
  | .dflt, .dflt => True
  | .ask, .ask f => ∃ w, s.modFreq.read = some w ∧ F.num w = some f
  | .fsk, .fsk a => ∃ w, s.modAmp.read = some w ∧ F.num w = some a
  | .psk, .psk f a => (∃ w, s.modFreq.read = some w ∧ F.num w = some f) ∧ ∃ w, s.modAmp.read = some w ∧ F.num w = some a
  | _, _ => False

/-- The registers hold a configuration that passes `ModConfig(_, true)` (41_modulation R200) and means `c`. -/
structure Configured {Num : Type} (F : NumFmt Num) (s : State) (c : Modem Num) : Prop where
  count : c.lvl.length = 2 ∨ c.lvl.length = 3
  table : HoldsTable s c.lvl
  ascending : c.lvl.Pairwise (· < ·)
  parCount : c.par.length = c.lvl.length
  par : ∀ i (h : i < c.par.length), ∃ w, s.par.get (Fin.ofNat 3 i) = some w ∧ F.num w = some c.par[i]
  carrier : HoldsCarrier F s c.carrier

/-! ### The line-code commands -/

/-- The ENCODE frame of 40_line_codes R131 for one command: its word, its errors in their order, the model fault, and
its result. -/
structure EncodesAs (i : Instr) (cmd : Word) (mult : Nat) (code : Config → List Bool → List Int) : Prop where
  cmdWord : decode cmd = .ok i
  inputCapacity : ∀ s : State, s.cfg.capIn < uint s.inLen → exec i s = .next (ErrorState s .capacity 0)
  outputCapacity : ∀ s : State, uint s.inLen ≤ s.cfg.capIn → s.cfg.capOut < mult * uint s.inLen →
    exec i s = .next (ErrorState s .capacity 0)
  domain : ∀ (s : State) (k : Nat) (w : Word), uint s.inLen ≤ s.cfg.capIn → mult * uint s.inLen ≤ s.cfg.capOut →
    k < uint s.inLen → BitsBelow s k → s.inBuf.read k = some w → w ≠ 0#32 → w ≠ 1#32 →
    exec i s = .next (ErrorState s .domain k)
  unwritten : ∀ (s : State) (k : Nat), uint s.inLen ≤ s.cfg.capIn → mult * uint s.inLen ≤ s.cfg.capOut →
    k < uint s.inLen → BitsBelow s k → s.inBuf.read k = none → exec i s = unwrittenElem .inB k
  success : ∀ (s : State) (b : List Bool), HoldsBits s b → b.length ≤ s.cfg.capIn → mult * b.length ≤ s.cfg.capOut →
    ∃ t, exec i s = .next t ∧ Delivers s t ((code s.cfg b).map word) []

/-- The DECODE frame of 40_line_codes R132 for one command. -/
structure DecodesAs (i : Instr) (cmd : Word) (mult : Nat) (alphabet : List Int)
    (code : Config → List Int → List Bool) : Prop where
  cmdWord : decode cmd = .ok i
  inputCapacity : ∀ s : State, s.cfg.capIn < uint s.inLen → exec i s = .next (ErrorState s .capacity 0)
  shape : ∀ s : State, uint s.inLen ≤ s.cfg.capIn → uint s.inLen % mult ≠ 0 →
    exec i s = .next (ErrorState s .shape 0)
  outputCapacity : ∀ s : State, uint s.inLen ≤ s.cfg.capIn → uint s.inLen % mult = 0 →
    s.cfg.capOut < uint s.inLen / mult → exec i s = .next (ErrorState s .capacity 0)
  domain : ∀ (s : State) (k : Nat) (w : Word), uint s.inLen ≤ s.cfg.capIn → uint s.inLen % mult = 0 →
    uint s.inLen / mult ≤ s.cfg.capOut → k < uint s.inLen → LevelsBelow s alphabet k → s.inBuf.read k = some w →
    w.toInt ∉ alphabet → exec i s = .next (ErrorState s .domain k)
  unwritten : ∀ (s : State) (k : Nat), uint s.inLen ≤ s.cfg.capIn → uint s.inLen % mult = 0 →
    uint s.inLen / mult ≤ s.cfg.capOut → k < uint s.inLen → LevelsBelow s alphabet k → s.inBuf.read k = none →
    exec i s = unwrittenElem .inB k
  success : ∀ (s : State) (l : List Int), HoldsLevels s l → (∀ x ∈ l, x ∈ alphabet) → l.length ≤ s.cfg.capIn →
    l.length % mult = 0 → l.length / mult ≤ s.cfg.capOut →
    ∃ t, exec i s = .next t ∧
      Delivers s t ((code s.cfg l).map fun x => if x then 1#32 else 0#32) []

/-- +1 where a count is odd, −1 where it is even. -/
def signOfCount (n : Nat) : Int := if n % 2 = 1 then 1 else -1

/-- The alphabet of a variant, from the table of 40_line_codes R130. -/
def alphabetOf : LineCode → List Int
  | .nrz | .nrzl | .nrzi | .man | .dman => [-1, 1]
  | .ami | .pst => [-1, 0, 1]

/-- Symbols per bit, from the table of 40_line_codes R130. -/
def symbolsPerBit : LineCode → Nat
  | .nrz | .nrzl | .nrzi | .ami | .pst => 1
  | .man | .dman => 2

/-- What the ENCODE–DECODE round trip gives back (40_line_codes R162): for AMI and Pseudoternary the first bit is
forced 0. -/
def recovered : LineCode → List Bool → List Bool
  | .nrz, b | .nrzl, b | .nrzi, b | .man, b | .dman, b => b
  | .ami, b | .pst, b =>
    match b with
    | [] => []
    | _ :: r => false :: r

/-- The host has copied OUT to IN and OUT_LEN to IN_LEN (20_memory R89), in whatever order and whatever else it did. -/
def CopiedOutToIn (t u : State) : Prop :=
  uint u.inLen = uint t.outLen ∧ ∀ j, j < uint t.outLen → u.inBuf.read j = t.outBuf.read j

/-- The host has copied TOUT to TIN and OUT_LEN to TIN_LEN (20_memory R89). -/
def CopiedToutToTin (t u : State) : Prop :=
  uint u.tinLen = uint t.outLen ∧ ∀ j, j < uint t.outLen → u.tinBuf.read j = t.toutBuf.read j

/-! ### The modulation commands -/

/-- The configuration passes every check of a command that uses S, and S is `n` (41_modulation R200). -/
structure ConfiguredS {Num : Type} (F : NumFmt Num) (s : State) (c : Modem Num) (n : Nat) : Prop where
  conf : Configured F s c
  samples : uint s.modSps = n
  pos : n ≠ 0

/-- A MODULATE whose duration register holds `d` > 0 is ready to look at its input (41_modulation R216). -/
structure ReadyToModulate {Num : Type} (F : NumFmt Num) (reg : Reg) (s : State) (c : Modem Num) (n : Nat) (d : Num) :
    Prop where
  conf : ConfiguredS F s c n
  dur : ∃ w, s.regRead reg = some w ∧ F.num w = some d
  pos : F.lt (F.ofInt 0) d = true

/-- Point k of `grid(N, D)` (41_modulation R215). R215 states no grouping over a format that rounds: that the product k × D
is formed before the quotient is the model's choice (log 18). -/
def gridPoint {Num : Type} (F : NumFmt Num) (g : GridEndpoint) (n : Nat) (d : Num) (k : Nat) : Num :=
  match g with
  | .excl => F.div (F.mul (F.ofInt k) d) (F.ofInt n)
  | .incl => if n = 1 then F.ofInt 0 else F.div (F.mul (F.ofInt k) d) (F.ofInt ((n : Int) - 1))

/-- The result of SIGNAL (41_modulation R210), level-major. -/
def SignalDelivers {Num : Type} (F : NumFmt Num) (run : State → Step) : Prop :=
  ∀ (s : State) (c : Modem Num) (ts : List Num), Configured F s c → uint s.tinLen = ts.length →
    HoldsNums F s.tinBuf ts → ts.length ≤ s.cfg.capIn → c.lvl.length * ts.length ≤ s.cfg.capOut →
    ∃ t out, run s = .next t ∧ Delivers s t out [] ∧ out.length = c.lvl.length * ts.length ∧
      ∀ i k (hi : i < c.par.length) (hk : k < ts.length),
        out[i * ts.length + k]? = some (F.enc (refAt F c.carrier c.par[i] ts[k]))

/-- The result of MODULATE (41_modulation R217): symbol k div S active at grid point k. -/
def ModulateDelivers {Num : Type} (F : NumFmt Num) (reg : Reg) (run : State → Step) : Prop :=
  ∀ (s : State) (c : Modem Num) (n : Nat) (d : Num) (l : List Int), ReadyToModulate F reg s c n d →
    HoldsLevels s l → (∀ x ∈ l, x ∈ c.lvl) → l.length ≤ s.cfg.capIn → n * l.length ≤ s.cfg.capOut →
    ∃ t out tout, run s = .next t ∧ Delivers s t out tout ∧ out.length = n * l.length ∧
      tout.length = n * l.length ∧
      ∀ k i (hi : i < c.par.length), k < n * l.length → c.lvl[i]? = l[k / n]? →
        out[k]? = some (F.enc (refAt F c.carrier c.par[i] (gridPoint F s.cfg.gridEndpoint (n * l.length) d k))) ∧
        tout[k]? = some (F.enc (gridPoint F s.cfg.gridEndpoint (n * l.length) d k))

/-- The result of DEMODULATE (41_modulation R222): each group of S codes voted to one level. -/
def DemodulateDelivers {Num : Type} (F : NumFmt Num) (run : State → Step) : Prop :=
  ∀ (s : State) (c : Modem Num) (n m : Nat) (xs ts : List Num), ConfiguredS F s c n →
    uint s.inLen = n * m → uint s.tinLen = n * m → xs.length = n * m → ts.length = n * m →
    HoldsNums F s.inBuf xs → HoldsNums F s.tinBuf ts → n * m ≤ s.cfg.capIn → m ≤ s.cfg.capOut →
    ∃ t out, run s = .next t ∧ Delivers s t out [] ∧ out.length = m ∧
      ∀ j, j < m → ∃ codes, codes.length = n ∧
        (∀ k x y, k < n → xs[j * n + k]? = some x → ts[j * n + k]? = some y → codes[k]? = some (classify F c x y)) ∧
        ∃ v, c.lvl[vote codes]? = some v ∧ out[j]? = some (word v)

/-- The result of MODULATE_GRID (41_modulation R225): the symbols over the given grid, then zeros; TOUT is TIN. -/
def ModulateGridDelivers {Num : Type} (F : NumFmt Num) (run : State → Step) : Prop :=
  ∀ (s : State) (c : Modem Num) (n : Nat) (l : List Int) (ts : List Num), s.cfg.hasConvB = true →
    ConfiguredS F s c n → HoldsLevels s l → (∀ x ∈ l, x ∈ c.lvl) → uint s.tinLen = ts.length →
    HoldsNums F s.tinBuf ts → l.length ≤ s.cfg.capIn → ts.length ≤ s.cfg.capIn → n * l.length ≤ ts.length →
    ts.length ≤ s.cfg.capOut →
    ∃ t out tout, run s = .next t ∧ Delivers s t out tout ∧ out.length = ts.length ∧ tout.length = ts.length ∧
      (∀ k, k < ts.length → tout[k]? = s.tinBuf.read k) ∧
      (∀ k, n * l.length ≤ k → k < ts.length → out[k]? = some (F.enc (F.ofInt 0))) ∧
      ∀ k i (hi : i < c.par.length) (hk : k < ts.length), k < n * l.length → c.lvl[i]? = l[k / n]? →
        out[k]? = some (F.enc (refAt F c.carrier c.par[i] ts[k]))

/-- The reference amplitude of table entry i (41_modulation R227). -/
def arefAt {Num : Type} (c : Modem Num) (i : Nat) : Option Num :=
  match c.carrier with
  | .dflt => c.par[i]?
  | .ask _ => c.par[i]?
  | .fsk a => (c.par[i]?).map fun _ => a
  | .psk _ a => (c.par[i]?).map fun _ => a

/-- The result of DEMODULATE_BINS (41_modulation R228): `w` samples a window, `b` windows; with no samples, nothing. -/
def DemodulateBinsDelivers {Num : Type} (F : NumFmt Num) (run : State → Step) : Prop :=
  ∀ (s : State) (c : Modem Num) (b w : Nat) (xs : List Num), s.cfg.hasConvB = true → Configured F s c →
    uint s.argBins = b → b ≠ 0 → uint s.inLen = b * w → xs.length = b * w → HoldsNums F s.inBuf xs →
    b * w ≤ s.cfg.capIn → (w ≠ 0 → b ≤ s.cfg.capOut) →
    ∃ t out, run s = .next t ∧ Delivers s t out [] ∧ out.length = (if w = 0 then 0 else b) ∧
      ∀ j, w ≠ 0 → j < b → ∃ refs : List Num, (∀ i, refs[i]? = arefAt c i) ∧
        ∃ v, c.lvl[nearest F refs (med F (((xs.drop (j * w)).take w).map F.abs))]? = some v ∧ out[j]? = some (word v)

/-- The table passes the first half of `ModConfig` (41_modulation R200) and holds these levels. -/
def TablePasses (s : State) (lvl : List Int) : Prop :=
  (lvl.length = 2 ∨ lvl.length = 3) ∧ HoldsTable s lvl ∧ lvl.Pairwise (· < ·)

/-- The parameters of the first `k` table entries are numbers. -/
def ParamsBelow {Num : Type} (F : NumFmt Num) (s : State) (k : Nat) : Prop :=
  ∀ j, j < k → ∃ w x, s.par.get (Fin.ofNat 3 j) = some w ∧ F.num w = some x

/-- The check of the variant's carrier registers comes to `r` (41_modulation R200): MOD_FREQ for ASK and PSK, then
MOD_AMP for FSK and PSK. -/
def CarrierReaches {Num : Type} (F : NumFmt Num) (s : State) (r : Reg) : Prop :=
  r = .modFreq ∧ (s.modCfg.variant = .ask ∨ s.modCfg.variant = .psk) ∨
    r = .modAmp ∧ (s.modCfg.variant = .fsk ∨
      s.modCfg.variant = .psk ∧ ∃ w x, s.regRead .modFreq = some w ∧ F.num w = some x)

/-- The errors every modulation command but MLEVELS raises in its configuration check, and the unwritten registers it
meets there, in their order (41_modulation R200, 60_exceptions R282), on the cores that have the command. -/
structure ConfigurationErrors {Num : Type} (F : NumFmt Num) (has : Config → Bool) (run : State → Step) : Prop where
  count : ∀ s : State, has s.cfg = true → s.modCfg.k ≠ 2#2 → s.modCfg.k ≠ 3#2 →
    run s = .next (ErrorState s .config 0)
  levelUnwritten : ∀ (s : State) (k : Nat), has s.cfg = true → (s.modCfg.k = 2#2 ∨ s.modCfg.k = 3#2) →
    k < s.modCfg.k.toNat → (∀ j, j < k → s.lvl.get (Fin.ofNat 3 j) ≠ none) → s.lvl.get (Fin.ofNat 3 k) = none →
    MarksAndGoesOn run s (.modLvl (Fin.ofNat 3 k))
  order : ∀ (s : State) (lvl : List Int), has s.cfg = true → (lvl.length = 2 ∨ lvl.length = 3) → HoldsTable s lvl →
    ¬lvl.Pairwise (· < ·) → run s = .next (ErrorState s .config 0)
  parameterUnwritten : ∀ (s : State) (lvl : List Int) (k : Nat), has s.cfg = true → TablePasses s lvl →
    k < lvl.length → ParamsBelow F s k → s.par.get (Fin.ofNat 3 k) = none →
    MarksAndGoesOn run s (.modPar (Fin.ofNat 3 k))
  parameter : ∀ (s : State) (lvl : List Int) (k : Nat) (w : Word), has s.cfg = true → TablePasses s lvl →
    k < lvl.length → ParamsBelow F s k → s.par.get (Fin.ofNat 3 k) = some w → F.num w = none →
    run s = .next (ErrorState s .config 0)
  carrierUnwritten : ∀ (s : State) (lvl : List Int) (r : Reg), has s.cfg = true → TablePasses s lvl →
    ParamsBelow F s lvl.length → CarrierReaches F s r → s.regRead r = none → MarksAndGoesOn run s r
  carrier : ∀ (s : State) (lvl : List Int) (r : Reg) (w : Word), has s.cfg = true → TablePasses s lvl →
    ParamsBelow F s lvl.length → CarrierReaches F s r → s.regRead r = some w → F.num w = none →
    run s = .next (ErrorState s .config 0)

/-- The errors of MODULATE after its configuration check and the unwritten places it meets there, in their order
(41_modulation R216, R217, 60_exceptions R282). -/
structure ModulateErrors {Num : Type} (F : NumFmt Num) (reg : Reg) (run : State → Step) : Prop where
  samples : ∀ (s : State) (c : Modem Num), Configured F s c → uint s.modSps = 0 →
    run s = .next (ErrorState s .config 0)
  durationUnwritten : ∀ (s : State) (c : Modem Num) (n : Nat), ConfiguredS F s c n → s.regRead reg = none →
    MarksAndGoesOn run s reg
  duration : ∀ (s : State) (c : Modem Num) (n : Nat) (w : Word), ConfiguredS F s c n → s.regRead reg = some w →
    (∀ d, F.num w = some d → F.lt (F.ofInt 0) d = false) → run s = .next (ErrorState s .config 0)
  capacity : ∀ (s : State) (c : Modem Num) (n : Nat) (d : Num), ReadyToModulate F reg s c n d →
    (s.cfg.capIn < uint s.inLen ∨ s.cfg.capOut < n * uint s.inLen) → run s = .next (ErrorState s .capacity 0)
  alphabet : ∀ (s : State) (c : Modem Num) (n : Nat) (d : Num) (k : Nat) (w : Word), ReadyToModulate F reg s c n d →
    uint s.inLen ≤ s.cfg.capIn → n * uint s.inLen ≤ s.cfg.capOut → k < uint s.inLen → LevelsBelow s c.lvl k →
    s.inBuf.read k = some w → w.toInt ∉ c.lvl → run s = .next (ErrorState s .alphabet k)
  unwritten : ∀ (s : State) (c : Modem Num) (n : Nat) (d : Num) (k : Nat), ReadyToModulate F reg s c n d →
    uint s.inLen ≤ s.cfg.capIn → n * uint s.inLen ≤ s.cfg.capOut → k < uint s.inLen → LevelsBelow s c.lvl k →
    s.inBuf.read k = none → run s = unwrittenElem .inB k

/-- The errors of DEMODULATE after its configuration check and the unwritten places it meets there, in their order
(41_modulation R222, 60_exceptions R282). -/
structure DemodulateErrors {Num : Type} (F : NumFmt Num) (run : State → Step) : Prop where
  samples : ∀ (s : State) (c : Modem Num), Configured F s c → uint s.modSps = 0 →
    run s = .next (ErrorState s .config 0)
  inputCapacity : ∀ (s : State) (c : Modem Num) (n : Nat), ConfiguredS F s c n →
    (s.cfg.capIn < uint s.inLen ∨ s.cfg.capIn < uint s.tinLen) → run s = .next (ErrorState s .capacity 0)
  shape : ∀ (s : State) (c : Modem Num) (n : Nat), ConfiguredS F s c n → uint s.inLen ≤ s.cfg.capIn →
    uint s.tinLen ≤ s.cfg.capIn → (uint s.tinLen ≠ uint s.inLen ∨ uint s.inLen % n ≠ 0) →
    run s = .next (ErrorState s .shape 0)
  outputCapacity : ∀ (s : State) (c : Modem Num) (n : Nat), ConfiguredS F s c n → uint s.inLen ≤ s.cfg.capIn →
    uint s.tinLen = uint s.inLen → uint s.inLen % n = 0 → s.cfg.capOut < uint s.inLen / n →
    run s = .next (ErrorState s .capacity 0)
  domain : ∀ (s : State) (c : Modem Num) (n k : Nat) (w : Word), ConfiguredS F s c n → uint s.inLen ≤ s.cfg.capIn →
    uint s.tinLen = uint s.inLen → uint s.inLen % n = 0 → uint s.inLen / n ≤ s.cfg.capOut → k < uint s.inLen →
    NumsBelow F s.inBuf k → NumsBelow F s.tinBuf k → F.num w = none →
    (s.inBuf.read k = some w ∨ (∃ v x, s.inBuf.read k = some v ∧ F.num v = some x) ∧ s.tinBuf.read k = some w) →
    run s = .next (ErrorState s .domain k)
  unwritten : ∀ (s : State) (c : Modem Num) (n k : Nat), ConfiguredS F s c n → uint s.inLen ≤ s.cfg.capIn →
    uint s.tinLen = uint s.inLen → uint s.inLen % n = 0 → uint s.inLen / n ≤ s.cfg.capOut → k < uint s.inLen →
    NumsBelow F s.inBuf k → NumsBelow F s.tinBuf k →
    (s.inBuf.read k = none → run s = unwrittenElem .inB k) ∧
    ((∃ w x, s.inBuf.read k = some w ∧ F.num w = some x) → s.tinBuf.read k = none → run s = unwrittenElem .tin k)

/-- The errors of SIGNAL after its configuration check and the unwritten places it meets there, in their order
(41_modulation R210, 60_exceptions R282). -/
structure SignalErrors {Num : Type} (F : NumFmt Num) (run : State → Step) : Prop where
  capacity : ∀ (s : State) (c : Modem Num), Configured F s c →
    (s.cfg.capIn < uint s.tinLen ∨ s.cfg.capOut < c.lvl.length * uint s.tinLen) →
    run s = .next (ErrorState s .capacity 0)
  domain : ∀ (s : State) (c : Modem Num) (k : Nat) (w : Word), Configured F s c → uint s.tinLen ≤ s.cfg.capIn →
    c.lvl.length * uint s.tinLen ≤ s.cfg.capOut → k < uint s.tinLen → NumsBelow F s.tinBuf k →
    s.tinBuf.read k = some w → F.num w = none → run s = .next (ErrorState s .domain k)
  unwritten : ∀ (s : State) (c : Modem Num) (k : Nat), Configured F s c → uint s.tinLen ≤ s.cfg.capIn →
    c.lvl.length * uint s.tinLen ≤ s.cfg.capOut → k < uint s.tinLen → NumsBelow F s.tinBuf k →
    s.tinBuf.read k = none → run s = unwrittenElem .tin k

/-- The errors of MODULATE_GRID after its configuration check and the unwritten places it meets there, in their order:
every level is scanned before every time (41_modulation R225, 60_exceptions R280, R282). -/
structure ModulateGridErrors {Num : Type} (F : NumFmt Num) (run : State → Step) : Prop where
  samples : ∀ (s : State) (c : Modem Num), s.cfg.hasConvB = true → Configured F s c → uint s.modSps = 0 →
    run s = .next (ErrorState s .config 0)
  inputCapacity : ∀ (s : State) (c : Modem Num) (n : Nat), s.cfg.hasConvB = true → ConfiguredS F s c n →
    (s.cfg.capIn < uint s.inLen ∨ s.cfg.capIn < uint s.tinLen) → run s = .next (ErrorState s .capacity 0)
  shape : ∀ (s : State) (c : Modem Num) (n : Nat), s.cfg.hasConvB = true → ConfiguredS F s c n →
    uint s.inLen ≤ s.cfg.capIn → uint s.tinLen ≤ s.cfg.capIn → uint s.tinLen < n * uint s.inLen →
    run s = .next (ErrorState s .shape 0)
  outputCapacity : ∀ (s : State) (c : Modem Num) (n : Nat), s.cfg.hasConvB = true → ConfiguredS F s c n →
    uint s.inLen ≤ s.cfg.capIn → uint s.tinLen ≤ s.cfg.capIn → n * uint s.inLen ≤ uint s.tinLen →
    s.cfg.capOut < uint s.tinLen → run s = .next (ErrorState s .capacity 0)
  alphabet : ∀ (s : State) (c : Modem Num) (n k : Nat) (w : Word), s.cfg.hasConvB = true → ConfiguredS F s c n →
    uint s.inLen ≤ s.cfg.capIn → uint s.tinLen ≤ s.cfg.capIn → n * uint s.inLen ≤ uint s.tinLen →
    uint s.tinLen ≤ s.cfg.capOut → k < uint s.inLen → LevelsBelow s c.lvl k → s.inBuf.read k = some w →
    w.toInt ∉ c.lvl → run s = .next (ErrorState s .alphabet k)
  domain : ∀ (s : State) (c : Modem Num) (n k : Nat) (w : Word), s.cfg.hasConvB = true → ConfiguredS F s c n →
    uint s.inLen ≤ s.cfg.capIn → uint s.tinLen ≤ s.cfg.capIn → n * uint s.inLen ≤ uint s.tinLen →
    uint s.tinLen ≤ s.cfg.capOut → LevelsBelow s c.lvl (uint s.inLen) → k < uint s.tinLen →
    NumsBelow F s.tinBuf k → s.tinBuf.read k = some w → F.num w = none → run s = .next (ErrorState s .domain k)
  unwritten : ∀ (s : State) (c : Modem Num) (n k : Nat), s.cfg.hasConvB = true → ConfiguredS F s c n →
    uint s.inLen ≤ s.cfg.capIn → uint s.tinLen ≤ s.cfg.capIn → n * uint s.inLen ≤ uint s.tinLen →
    uint s.tinLen ≤ s.cfg.capOut →
    (k < uint s.inLen → LevelsBelow s c.lvl k → s.inBuf.read k = none → run s = unwrittenElem .inB k) ∧
    (LevelsBelow s c.lvl (uint s.inLen) → k < uint s.tinLen → NumsBelow F s.tinBuf k → s.tinBuf.read k = none →
      run s = unwrittenElem .tin k)

/-- The errors of DEMODULATE_BINS after its configuration check and the unwritten places it meets there, in their order
(41_modulation R228, 60_exceptions R282). -/
structure DemodulateBinsErrors {Num : Type} (F : NumFmt Num) (run : State → Step) : Prop where
  bins : ∀ (s : State) (c : Modem Num), s.cfg.hasConvB = true → Configured F s c → uint s.argBins = 0 →
    run s = .next (ErrorState s .config 0)
  inputCapacity : ∀ (s : State) (c : Modem Num), s.cfg.hasConvB = true → Configured F s c → uint s.argBins ≠ 0 →
    s.cfg.capIn < uint s.inLen → run s = .next (ErrorState s .capacity 0)
  shape : ∀ (s : State) (c : Modem Num), s.cfg.hasConvB = true → Configured F s c → uint s.argBins ≠ 0 →
    uint s.inLen ≤ s.cfg.capIn → uint s.inLen % uint s.argBins ≠ 0 → run s = .next (ErrorState s .shape 0)
  outputCapacity : ∀ (s : State) (c : Modem Num), s.cfg.hasConvB = true → Configured F s c → uint s.argBins ≠ 0 →
    uint s.inLen ≤ s.cfg.capIn → uint s.inLen ≠ 0 → uint s.inLen % uint s.argBins = 0 →
    s.cfg.capOut < uint s.argBins → run s = .next (ErrorState s .capacity 0)
  domain : ∀ (s : State) (c : Modem Num) (k : Nat) (w : Word), s.cfg.hasConvB = true → Configured F s c →
    uint s.argBins ≠ 0 → uint s.inLen ≤ s.cfg.capIn → uint s.inLen % uint s.argBins = 0 →
    uint s.argBins ≤ s.cfg.capOut → k < uint s.inLen → NumsBelow F s.inBuf k → s.inBuf.read k = some w →
    F.num w = none → run s = .next (ErrorState s .domain k)
  unwritten : ∀ (s : State) (c : Modem Num) (k : Nat), s.cfg.hasConvB = true → Configured F s c →
    uint s.argBins ≠ 0 → uint s.inLen ≤ s.cfg.capIn → uint s.inLen % uint s.argBins = 0 →
    uint s.argBins ≤ s.cfg.capOut → k < uint s.inLen → NumsBelow F s.inBuf k → s.inBuf.read k = none →
    run s = unwrittenElem .inB k

/-! ### All commands -/

/-- The commands that write TOUT (30_encoding R112). -/
def writesTimes : Instr → Bool
  | .mod | .modDur | .modg => true
  | .encNrz | .encNrzl | .encNrzi | .encAmi | .encPst | .encMan | .encDman
  | .decNrz | .decNrzl | .decNrzi | .decAmi | .decPst | .decMan | .decDman
  | .lvlNrz | .lvlNrzl | .lvlNrzi | .lvlAmi | .lvlPst | .lvlMan | .lvlDman
  | .demod | .sig | .mlvl | .demodb => false

/-- The number of elements a command that succeeds writes to OUT (30_encoding R112, 60_exceptions R273, 40_line_codes
R167, 41_modulation R230). -/
def outCount (s : State) : Instr → Nat
  | .encNrz | .encNrzl | .encNrzi | .encAmi | .encPst => uint s.inLen
  | .encMan | .encDman => 2 * uint s.inLen
  | .decNrz | .decNrzl | .decNrzi | .decAmi | .decPst => uint s.inLen
  | .decMan | .decDman => uint s.inLen / 2
  | .lvlNrz | .lvlNrzl | .lvlNrzi | .lvlMan | .lvlDman => 2
  | .lvlAmi | .lvlPst => 3
  | .mod | .modDur => uint s.modSps * uint s.inLen
  | .demod => uint s.inLen / uint s.modSps
  | .sig => s.modCfg.k.toNat * uint s.tinLen
  | .mlvl => s.modCfg.k.toNat
  | .modg => uint s.tinLen
  | .demodb => if uint s.inLen = 0 then 0 else uint s.argBins

/-- The commands that read IN and IN_LEN (10_state R54, 30_encoding R112). -/
def readsIn : Instr → Bool
  | .lvlNrz | .lvlNrzl | .lvlNrzi | .lvlAmi | .lvlPst | .lvlMan | .lvlDman | .sig | .mlvl => false
  | .encNrz | .encNrzl | .encNrzi | .encAmi | .encPst | .encMan | .encDman
  | .decNrz | .decNrzl | .decNrzi | .decAmi | .decPst | .decMan | .decDman
  | .mod | .modDur | .demod | .modg | .demodb => true

/-- The commands that read TIN and TIN_LEN. -/
def readsTin : Instr → Bool
  | .sig | .demod | .modg => true
  | .encNrz | .encNrzl | .encNrzi | .encAmi | .encPst | .encMan | .encDman
  | .decNrz | .decNrzl | .decNrzi | .decAmi | .decPst | .decMan | .decDman
  | .lvlNrz | .lvlNrzl | .lvlNrzi | .lvlAmi | .lvlPst | .lvlMan | .lvlDman
  | .mod | .modDur | .mlvl | .demodb => false

/-- The commands that read MOD_CFG and the levels of the table. -/
def readsLevels : Instr → Bool
  | .mod | .modDur | .demod | .sig | .mlvl | .modg | .demodb => true
  | .encNrz | .encNrzl | .encNrzi | .encAmi | .encPst | .encMan | .encDman
  | .decNrz | .decNrzl | .decNrzi | .decAmi | .decPst | .decMan | .decDman
  | .lvlNrz | .lvlNrzl | .lvlNrzi | .lvlAmi | .lvlPst | .lvlMan | .lvlDman => false

/-- The commands that read MOD_SPS. -/
def readsSamples : Instr → Bool
  | .mod | .modDur | .demod | .modg => true
  | .encNrz | .encNrzl | .encNrzi | .encAmi | .encPst | .encMan | .encDman
  | .decNrz | .decNrzl | .decNrzi | .decAmi | .decPst | .decMan | .decDman
  | .lvlNrz | .lvlNrzl | .lvlNrzi | .lvlAmi | .lvlPst | .lvlMan | .lvlDman
  | .sig | .mlvl | .demodb => false

/-- Two states agree on everything 10_state R54 says a command reads. The platform parameters, which no rule reads
(93_implementation_defined section 1), may differ. -/
structure AgreeOnReads (i : Instr) (s u : State) : Prop where
  cfg : u.cfg = { s.cfg with coreBase := u.cfg.coreBase, busEndian := u.cfg.busEndian }
  inp : readsIn i = true → u.inLen = s.inLen ∧ ∀ k, k < uint s.inLen → u.inBuf.read k = s.inBuf.read k
  tin : readsTin i = true → u.tinLen = s.tinLen ∧ ∀ k, k < uint s.tinLen → u.tinBuf.read k = s.tinBuf.read k
  levels : readsLevels i = true → u.modCfg = s.modCfg ∧
    ∀ k, k < s.modCfg.k.toNat → u.lvl.at (Fin.ofNat 3 k) = s.lvl.at (Fin.ofNat 3 k)
  params : readsLevels i = true → i ≠ .mlvl →
    ∀ k, k < s.modCfg.k.toNat → u.par.at (Fin.ofNat 3 k) = s.par.at (Fin.ofNat 3 k)
  freq : readsLevels i = true → i ≠ .mlvl → (s.modCfg.variant = .ask ∨ s.modCfg.variant = .psk) →
    u.modFreq = s.modFreq
  amp : readsLevels i = true → i ≠ .mlvl → (s.modCfg.variant = .fsk ∨ s.modCfg.variant = .psk) → u.modAmp = s.modAmp
  samples : readsSamples i = true → u.modSps = s.modSps
  modDur : i = .mod → u.modDur = s.modDur
  argDur : i = .modDur → u.argDur = s.argDur
  bins : i = .demodb → u.argBins = s.argBins

/-- Two answers, one from `s` and one from `u`, that the host cannot tell apart through STATUS, EIDX and what the command
wrote, and that add the same marks to the fault record. -/
def SameAnswer (i : Instr) (s u : State) : Step → Step → Prop
  | .next t, .next v =>
    (∃ m, t.faults = s.faults ++ m ∧ v.faults = u.faults ++ m) ∧ v.status = t.status ∧ v.eidx = t.eidx ∧
      (t.status.done = true → v.outLen = t.outLen ∧
        ∀ j, j < uint t.outLen → v.outBuf.read j = t.outBuf.read j ∧
          (writesTimes i = true → v.toutBuf.read j = t.toutBuf.read j))
  | .fault f, .fault g => g = f
  | _, _ => False

/-- The engine is the next to move, and `rest` is the agenda after it (log 6). -/
def EngineNext (s : State) (rest : List Move) : Prop :=
  s.agenda = [] ∧ rest = [] ∨ s.agenda = .engine :: rest

/-- The host is idle-side next: BUSY = 0 and this access is the next move. -/
def HostNext (s : State) (a : Access) (rest : List Move) : Prop :=
  s.status.busy = false ∧ s.agenda = .host a :: rest

/-- The invariant of the machine. -/
structure Inv (s : State) : Prop where
  /-- the buffers keep their canonical form -/
  canonical : s.inBuf.wf = true ∧ s.tinBuf.wf = true ∧ s.outBuf.wf = true ∧ s.toutBuf.wf = true
  /-- no buffer holds an element at or beyond its capacity (10_state R56, 20_memory R77) -/
  bounded : s.inBuf.within s.cfg.capIn = true ∧ s.tinBuf.within s.cfg.capIn = true ∧
    s.outBuf.within s.cfg.capOut = true ∧ s.toutBuf.within s.cfg.capOut = true
  /-- every element of OUT below OUT_LEN has been written (93_implementation_defined section 2) -/
  outWritten : ∀ j, j < uint s.outLen → s.outBuf.read j ≠ none
  /-- BUSY, DONE and ERR exclude one another (10_state R37, R38, R39, R59) -/
  oneFlag : ¬(s.status.busy = true ∧ s.status.done = true) ∧ ¬(s.status.busy = true ∧ s.status.err = true) ∧
    ¬(s.status.done = true ∧ s.status.err = true)
  /-- ECODE is an error's code exactly while ERR is set (10_state R39) -/
  ecode : s.status.err = true ↔ s.status.ecode ≠ none
  /-- EIDX is 0 unless an error was reported (10_state R40) -/
  eidx : s.status.err = false → s.eidx = 0#32
  /-- ESTATE holds one level value, −1 or +1 (10_state R55); that it holds one after a reset is the model's choice
  (log 4) -/
  estate : s.estate = -1 ∨ s.estate = 1

end Sys2Proof.Claims

open Sys2Proof.Claims

/-! ### Encoding -/

/-- A few command words written out from 30_encoding R106 decode to their commands. -/
def Obligations.TableWordsDecodeToTheirCommands : Prop :=
  decode 0x00000021#32 = .ok .encNrzi ∧ decode 0x00000052#32 = .ok .decMan ∧ decode 0x00000033#32 = .ok .lvlAmi ∧
    decode 0x00000004#32 = .ok .mod ∧ decode 0x00000104#32 = .ok .modDur ∧ decode 0x00000005#32 = .ok .demod ∧
    decode 0x00000006#32 = .ok .sig ∧ decode 0x00000009#32 = .ok .demodb

/-- Decoding and encoding agree on every word: a word decodes to a command exactly when it is that command's word. -/
def Obligations.DecodeAndEncodeAgreeOnEveryWord : Prop :=
  ∀ (w : Word) (i : Instr), decode w = .ok i ↔ w = encode i

/-- 30_encoding R105: the legal words are exactly the 28 listed, 26 without convention B. -/
def Obligations.LegalWordsAreExactlyTheListed : Prop :=
  ∀ (convB : Bool) (w : Word), legal convB w = true ↔
    (∃ v : Nat, v ≤ 6 ∧ (w = 0x00000001#32 ||| (BitVec.ofNat 32 v <<< 4) ∨ w = 0x00000002#32 ||| (BitVec.ofNat 32 v <<< 4) ∨
      w = 0x00000003#32 ||| (BitVec.ofNat 32 v <<< 4))) ∨
    w = 0x00000004#32 ∨ w = 0x00000104#32 ∨ w = 0x00000005#32 ∨ w = 0x00000006#32 ∨ w = 0x00000007#32 ∨
    (convB = true ∧ (w = 0x00000008#32 ∨ w = 0x00000009#32))

/-- 30_encoding R108, 60_exceptions R271: an engine step raises ILLEGAL(0) exactly for the words `legal` refuses. -/
def Obligations.IllegalIsRaisedExactlyByIllegalWords : Prop :=
  ∀ (s : State) (rest : List Move), EngineNext s rest → s.status.busy = true →
    (legal s.cfg.hasConvB s.cmd = false → step s = .next (ErrorState { s with agenda := rest } .illegal 0)) ∧
    (legal s.cfg.hasConvB s.cmd = true → ∀ t, step s = .next t → t.status.ecode ≠ some .illegal)

/-! ### The step -/

/-- When the engine is next: while BUSY = 1 and the latched word decodes to a command, the step is that command's meaning
on the state whose agenda is the rest; while BUSY = 0 the engine has no step and nothing but the agenda changes
(00_scope R11, 70_reset R311). When the engine is next is the model's choice (log 6). -/
def Obligations.StepRunsTheDecodedCommand : Prop :=
  ∀ (s : State) (rest : List Move), EngineNext s rest →
    (∀ i, s.status.busy = true → decode s.cmd = .ok i → step s = exec i { s with agenda := rest }) ∧
    (s.status.busy = false → step s = .next { s with agenda := rest })

/-- 10_state R37: BUSY is set only by a host write of CMD while it is 0, and cleared only by the engine's step or by
reset. -/
def Obligations.BusyIsSetByCmdWriteAndClearedByEngineOrReset : Prop :=
  ∀ s t : State, step s = .next t →
    (s.status.busy = false → t.status.busy = true →
      ∃ v rest, s.agenda = .host (.writeReg 0x00 4 v) :: rest ∧ t.cmd = v) ∧
    (s.status.busy = true → t.status.busy = false →
      (∃ rest, EngineNext s rest) ∨ ∃ rest, s.agenda = .reset :: rest)

/-- No step changes a parameter of the core (00_scope R12), and none takes a mark out of the fault record, not even a
reset (00_scope R21, 70_reset R310): a step adds at most one, for an unwritten register that it read. -/
def Obligations.StepKeepsParametersAndFaultRecord : Prop :=
  ∀ s t : State, step s = .next t → t.cfg = s.cfg ∧ RecordOnlyGrows s t

/-- 20_memory R90 as a bound: from a state with a latched command, within as many steps as the agenda is long and one
more, the command has completed or the run has stopped. -/
def Obligations.LatchedCommandCompletesWithinTheAgenda : Prop :=
  ∀ s : State, s.status.busy = true → ∃ k, k ≤ s.agenda.length + 1 ∧
    ((∃ t, core.run k s = .next t ∧ t.status.busy = false) ∨ (∃ f, core.run k s = .fault f))

/-! ### ENCODE -/

/-- 40_line_codes R131, R134, R137: NRZ maps 1 to +1, NRZ-L maps 1 to −1. -/
def Obligations.EncNrzAndNrzlMapEachBit : Prop :=
  (EncodesAs .encNrz 0x00000001#32 1 fun _ b => b.map fun x => if x then 1 else -1) ∧
  EncodesAs .encNrzl 0x00000011#32 1 fun _ b => b.map fun x => if x then -1 else 1

/-- 40_line_codes R131, R143, R146: in AMI a 0 emits 0 and the k-th 1 emits +1 when k is odd and −1 when k is even;
Pseudoternary is the mirror, with 0 and 1 exchanged. -/
def Obligations.EncAmiAndPstAlternateMarks : Prop :=
  (EncodesAs .encAmi 0x00000031#32 1 fun _ b =>
    (List.range b.length).map fun i => if b[i]? = some true then signOfCount ((b.take (i + 1)).count true) else 0) ∧
  EncodesAs .encPst 0x00000041#32 1 fun _ b =>
    (List.range b.length).map fun i => if b[i]? = some false then signOfCount ((b.take (i + 1)).count false) else 0

/-- 40_line_codes R131, R140: the level after bit i is high exactly when the ones up to and with bit i are odd in
number. -/
def Obligations.EncNrziTogglesOnOne : Prop :=
  EncodesAs .encNrzi 0x00000021#32 1 fun _ b =>
    (List.range b.length).map fun i => signOfCount ((b.take (i + 1)).count true)

/-- 40_line_codes R131, R149. -/
def Obligations.EncManWritesHalfPairs : Prop :=
  EncodesAs .encMan 0x00000051#32 2 fun _ b => b.flatMap fun x => if x then [-1, 1] else [1, -1]

/-- 40_line_codes R131, R152: the polarity before interval i is DM_INIT, inverted once for each 0 before it; a 1
inverts at the boundary, and the middle always inverts. -/
def Obligations.EncDmanInvertsAtBoundaryOnOne : Prop :=
  EncodesAs .encDman 0x00000061#32 2 fun c b =>
    (List.range b.length).flatMap fun i =>
      let e := if (b.take i).count false % 2 = 0 then c.dmInit.level else -c.dmInit.level
      let h := if b[i]? = some true then -e else e
      [h, -h]

/-! ### DECODE -/

/-- 40_line_codes R132, R135, R138: NRZ decodes a level above 0 to 1, NRZ-L a level below 0. -/
def Obligations.DecNrzAndNrzlThreshold : Prop :=
  (DecodesAs .decNrz 0x00000002#32 1 [-1, 1] fun _ l => l.map fun x => decide (x > 0)) ∧
  DecodesAs .decNrzl 0x00000012#32 1 [-1, 1] fun _ l => l.map fun x => decide (x < 0)

/-- 40_line_codes R132, R144, R147: AMI decodes a nonzero level to 1 and Pseudoternary a zero level, the first position
forced 0; like-signed marks in a row are no error (R168). -/
def Obligations.DecAmiAndPstForceFirstZero : Prop :=
  (DecodesAs .decAmi 0x00000032#32 1 [-1, 0, 1] fun _ l =>
    (List.range l.length).map fun i => decide (i ≠ 0 ∧ l[i]? ≠ some 0)) ∧
  DecodesAs .decPst 0x00000042#32 1 [-1, 0, 1] fun _ l =>
    (List.range l.length).map fun i => decide (i ≠ 0 ∧ l[i]? = some 0)

/-- 40_line_codes R132, R141: 1 where a sample differs from the one before it, the first compared with −1. -/
def Obligations.DecNrziComparesWithPrevious : Prop :=
  DecodesAs .decNrzi 0x00000022#32 1 [-1, 1] fun _ l => List.zipWith (fun p x => decide (x ≠ p)) (-1 :: l) l

/-- 40_line_codes R132, R150, R168: the invalid pairs decode to 0. -/
def Obligations.DecManComparesHalves : Prop :=
  DecodesAs .decMan 0x00000052#32 2 [-1, 1] fun _ l =>
    (List.range (l.length / 2)).map fun i => decide (l.getD (2 * i) 0 < l.getD (2 * i + 1) 0)

/-- 40_line_codes R132, R153: a boundary value is compared with the previous interval's final value, the first with
DM_INIT. -/
def Obligations.DecDmanComparesAcrossBoundary : Prop :=
  DecodesAs .decDman 0x00000062#32 2 [-1, 1] fun c l =>
    (List.range (l.length / 2)).map fun i =>
      decide (l.getD (2 * i) 0 ≠ if i = 0 then c.dmInit.level else l.getD (2 * i - 1) 0)

/-! ### ELEVELS and the laws of the line-code unit -/

/-- 40_line_codes R133, R136, R139, R142, R145, R148, R151, R154: in every state. -/
def Obligations.LevelQueriesWriteTheAlphabetAscending : Prop :=
  ∀ s : State,
    (∀ i ∈ [Instr.lvlNrz, .lvlNrzl, .lvlNrzi, .lvlMan, .lvlDman], ∃ t, exec i s = .next t ∧
      Delivers s t [0xFFFFFFFF#32, 0x00000001#32] [] ∧ uint t.outLen = 2) ∧
    (∀ i ∈ [Instr.lvlAmi, .lvlPst], ∃ t, exec i s = .next t ∧
      Delivers s t [0xFFFFFFFF#32, 0x00000000#32, 0x00000001#32] [] ∧ uint t.outLen = 3) ∧
    decode 0x00000003#32 = .ok .lvlNrz ∧ decode 0x00000013#32 = .ok .lvlNrzl ∧ decode 0x00000023#32 = .ok .lvlNrzi ∧
    decode 0x00000033#32 = .ok .lvlAmi ∧ decode 0x00000043#32 = .ok .lvlPst ∧ decode 0x00000053#32 = .ok .lvlMan ∧
    decode 0x00000063#32 = .ok .lvlDman

/-- 40_line_codes R161: every element an ENCODE writes is a level of its alphabet. -/
def Obligations.EncodedLevelsAreInTheAlphabet : Prop :=
  ∀ (v : LineCode) (s t : State), exec (encRow v) s = .next t → t.status.done = true →
    ∀ j, j < uint t.outLen → ∃ l ∈ alphabetOf v, t.outBuf.read j = some (word l)

/-- 40_line_codes R162: DECODE after ENCODE gives the bits back, for AMI and Pseudoternary with the first bit 0, for
every DM_INIT and however the host copies OUT to IN. -/
def Obligations.DecodeAfterEncodeRecoversTheBits : Prop :=
  ∀ (v : LineCode) (s t u : State) (b : List Bool), HoldsBits s b → exec (encRow v) s = .next t →
    t.status.done = true → CopiedOutToIn t u → u.cfg = s.cfg → symbolsPerBit v * b.length ≤ s.cfg.capIn →
    symbolsPerBit v * b.length < 2 ^ 32 →
    ∃ w, exec (decRow v) u = .next w ∧ Delivers u w ((recovered v b).map fun x => if x then 1#32 else 0#32) []

/-- 40_line_codes R163: the nonzero levels of an AMI encoding of k ones are k in number and alternate from +1 on; the
same for Pseudoternary and zeros. -/
def Obligations.AmiAndPseudoternaryMarksAlternate : Prop :=
  ∀ (s t : State) (b : List Bool), HoldsBits s b →
    (exec .encAmi s = .next t → t.status.done = true →
      (List.range b.length).filterMap (fun j => (t.outBuf.read j).bind fun w => if w = 0#32 then none else some w.toInt) =
        (List.range (b.count true)).map fun k => if k % 2 = 0 then 1 else -1) ∧
    (exec .encPst s = .next t → t.status.done = true →
      (List.range b.length).filterMap (fun j => (t.outBuf.read j).bind fun w => if w = 0#32 then none else some w.toInt) =
        (List.range (b.count false)).map fun k => if k % 2 = 0 then 1 else -1)

/-- 40_line_codes R164, R165: each Manchester pair is (−1, +1) or (+1, −1), and each Differential-Manchester interval
changes sign at its middle; the other DM_INIT negates every encoded level, and decoding gives the same bits when both
its input and DM_INIT are negated. -/
def Obligations.ManchesterIntervalsChangeSignInTheMiddle : Prop :=
  (∀ (s t : State) (i : Instr) (j : Nat), (i = .encMan ∨ i = .encDman) → exec i s = .next t → t.status.done = true →
    j < uint s.inLen →
    t.outBuf.read (2 * j) = some (word (-1)) ∧ t.outBuf.read (2 * j + 1) = some (word 1) ∨
    t.outBuf.read (2 * j) = some (word 1) ∧ t.outBuf.read (2 * j + 1) = some (word (-1))) ∧
  (∀ (s t u : State) (j : Nat), exec .encDman { s with cfg := { s.cfg with dmInit := .low } } = .next t →
    exec .encDman { s with cfg := { s.cfg with dmInit := .high } } = .next u → t.status.done = true →
    j < 2 * uint s.inLen →
    ∃ x : Int, t.outBuf.read j = some (word x) ∧ u.outBuf.read j = some (word (-x)) ∧ (x = 1 ∨ x = -1)) ∧
  (∀ (s u t v : State) (l : List Int), HoldsLevels s l → HoldsLevels u (l.map fun x => -x) →
    s.cfg.dmInit = .low → u.cfg = { s.cfg with dmInit := .high } → exec .decDman s = .next t →
    exec .decDman u = .next v → t.status.done = true →
    v.status.done = true ∧ ∀ j, j < l.length / 2 → v.outBuf.read j = t.outBuf.read j)

/-! ### The modulation unit -/

/-- 41_modulation R203 to R206 over exact reals: the four reference waveforms. -/
def Obligations.ReferenceWaveformsFollowTheirFormulas : Prop :=
  ∀ F : NumFmt ℝ, F.Exact → ∀ p t f a : ℝ,
    refAt F .dflt p t = p ∧
    refAt F (.ask f) p t = p * Real.cos (2 * Real.pi * f * t) ∧
    refAt F (.fsk a) p t = a * Real.cos (2 * Real.pi * p * t) ∧
    refAt F (.psk f a) p t = a * Real.cos (2 * Real.pi * f * t + p)

/-- 41_modulation R211: MLEVELS writes the K levels, and raises CONFIG(0) when K is not 2 or 3 or the levels are not
strictly ascending; no parameter is read. The first unwritten level is marked (60_exceptions R282); that the command then
goes on is the model's choice (log 3). -/
def Obligations.MlevelsWritesTheTable : Prop :=
  decode 0x00000007#32 = .ok .mlvl ∧
  (∀ (s : State) (lvl : List Int), (lvl.length = 2 ∨ lvl.length = 3) → HoldsTable s lvl → lvl.Pairwise (· < ·) →
    ∃ t, exec .mlvl s = .next t ∧ Delivers s t (lvl.map word) [] ∧ uint t.outLen = lvl.length) ∧
  (∀ s : State, s.modCfg.k ≠ 2#2 → s.modCfg.k ≠ 3#2 → exec .mlvl s = .next (ErrorState s .config 0)) ∧
  (∀ (s : State) (lvl : List Int), (lvl.length = 2 ∨ lvl.length = 3) → HoldsTable s lvl → ¬lvl.Pairwise (· < ·) →
    exec .mlvl s = .next (ErrorState s .config 0)) ∧
  (∀ (s : State) (k : Nat), (s.modCfg.k = 2#2 ∨ s.modCfg.k = 3#2) → k < s.modCfg.k.toNat →
    (∀ j, j < k → s.lvl.get (Fin.ofNat 3 j) ≠ none) → s.lvl.get (Fin.ofNat 3 k) = none →
    MarksAndGoesOn (exec .mlvl) s (.modLvl (Fin.ofNat 3 k)))

/-- 41_modulation R200: the configuration check of every command that needs the parameters, over any format: of SIGNAL,
MODULATE and DEMODULATE on every core, of MODULATE_GRID and DEMODULATE_BINS on a core with convention B. That a command
goes on after an unwritten register is the model's choice (log 3). -/
def Obligations.ConfigurationErrorsComeInOrder : Prop :=
  ∀ (Num : Type) (F : NumFmt Num), ConfigurationErrors F (fun _ => true) (signalWith F) ∧
    ConfigurationErrors F (fun _ => true) (modulateWith F .modDur) ∧
    ConfigurationErrors F (fun _ => true) (modulateWith F .argDur) ∧
    ConfigurationErrors F (fun _ => true) (demodulateWith F) ∧
    ConfigurationErrors F Config.hasConvB (modulateGridWith F) ∧
    ConfigurationErrors F Config.hasConvB (demodulateBinsWith F)

/-- 41_modulation R210: the result of SIGNAL, on the chip and over any format. -/
def Obligations.SignalWritesReferencesLevelMajor : Prop :=
  SignalDelivers Config.numFmt (exec .sig) ∧ ∀ (Num : Type) (F : NumFmt Num), SignalDelivers F (signalWith F)

/-- 41_modulation R210: the errors of SIGNAL, over any format. -/
def Obligations.SignalErrorsComeInOrder : Prop :=
  decode 0x00000006#32 = .ok .sig ∧ (∀ s, exec .sig s = signalWith Config.numFmt s) ∧
    ∀ (Num : Type) (F : NumFmt Num), SignalErrors F (signalWith F)

/-- 41_modulation R215 to R217: the result of MODULATE with MOD_DUR and with ARG_DUR, on the chip and over any
format. How the products of a grid point and of a reference are grouped over a format that rounds is the model's choice
(log 18). -/
def Obligations.ModulateWritesSamplesOverTheGrid : Prop :=
  ModulateDelivers Config.numFmt .modDur (exec .mod) ∧ ModulateDelivers Config.numFmt .argDur (exec .modDur) ∧
    ∀ (Num : Type) (F : NumFmt Num), ModulateDelivers F .modDur (modulateWith F .modDur) ∧
      ModulateDelivers F .argDur (modulateWith F .argDur)

/-- 41_modulation R216, R217: the errors of MODULATE, over any format. That it goes on after an unwritten duration register
is the model's choice (log 3). -/
def Obligations.ModulateErrorsComeInOrder : Prop :=
  decode 0x00000004#32 = .ok .mod ∧ decode 0x00000104#32 = .ok .modDur ∧
    (∀ s, exec .mod s = modulateWith Config.numFmt .modDur s) ∧
    (∀ s, exec .modDur s = modulateWith Config.numFmt .argDur s) ∧
    ∀ (Num : Type) (F : NumFmt Num), ModulateErrors F .modDur (modulateWith F .modDur) ∧
      ModulateErrors F .argDur (modulateWith F .argDur)

/-- 41_modulation R222: the result of DEMODULATE, on the chip and over any format. -/
def Obligations.DemodulateVotesNearestLevels : Prop :=
  DemodulateDelivers Config.numFmt (exec .demod) ∧ ∀ (Num : Type) (F : NumFmt Num), DemodulateDelivers F (demodulateWith F)

/-- 41_modulation R222: the errors of DEMODULATE, over any format. -/
def Obligations.DemodulateErrorsComeInOrder : Prop :=
  decode 0x00000005#32 = .ok .demod ∧ (∀ s, exec .demod s = demodulateWith Config.numFmt s) ∧
    ∀ (Num : Type) (F : NumFmt Num), DemodulateErrors F (demodulateWith F)

/-- 41_modulation R225: the result of MODULATE_GRID, on the chip and over any format. -/
def Obligations.ModulateGridPadsWithZeros : Prop :=
  ModulateGridDelivers Config.numFmt (exec .modg) ∧ ∀ (Num : Type) (F : NumFmt Num), ModulateGridDelivers F (modulateGridWith F)

/-- 41_modulation R225: the errors of MODULATE_GRID, over any format; ILLEGAL where convention B is absent. -/
def Obligations.ModulateGridErrorsComeInOrder : Prop :=
  decode 0x00000008#32 = .ok .modg ∧ (∀ s, exec .modg s = modulateGridWith Config.numFmt s) ∧
    (∀ s : State, s.cfg.hasConvB = false → exec .modg s = .next (ErrorState s .illegal 0)) ∧
    ∀ (Num : Type) (F : NumFmt Num), ModulateGridErrors F (modulateGridWith F)

/-- 41_modulation R228: the result of DEMODULATE_BINS, on the chip and over any format. -/
def Obligations.DemodulateBinsMatchesWindowMedians : Prop :=
  DemodulateBinsDelivers Config.numFmt (exec .demodb) ∧
    ∀ (Num : Type) (F : NumFmt Num), DemodulateBinsDelivers F (demodulateBinsWith F)

/-- 41_modulation R228: the errors of DEMODULATE_BINS, over any format; ILLEGAL where convention B is absent. -/
def Obligations.DemodulateBinsErrorsComeInOrder : Prop :=
  decode 0x00000009#32 = .ok .demodb ∧ (∀ s, exec .demodb s = demodulateBinsWith Config.numFmt s) ∧
    (∀ s : State, s.cfg.hasConvB = false → exec .demodb s = .next (ErrorState s .illegal 0)) ∧
    ∀ (Num : Type) (F : NumFmt Num), DemodulateBinsErrors F (demodulateBinsWith F)

/-- 41_modulation R215 over exact reals: N points, evenly spaced, from 0 on, ascending; the last is D under INCL and
below D under EXCL. -/
def Obligations.GridIsUniformFromZero : Prop :=
  ∀ F : NumFmt ℝ, F.Exact → ∀ (g : GridEndpoint) (n : Nat) (d : ℝ), 0 < d →
    (grid F g n d).length = n ∧
    (∀ h : 0 < (grid F g n d).length, (grid F g n d)[0] = 0) ∧
    (∀ k (h : k + 1 < (grid F g n d).length),
      (grid F g n d)[k + 1] - (grid F g n d)[k] = d / (if g = .excl then (n : ℝ) else (n : ℝ) - 1) ∧
      (grid F g n d)[k] < (grid F g n d)[k + 1]) ∧
    (∀ k (h : k < (grid F g n d).length), g = .excl → (grid F g n d)[k] < d) ∧
    (∀ h : n - 1 < (grid F g n d).length, 2 ≤ n → g = .incl → (grid F g n d)[n - 1] = d)

/-- 41_modulation R220 over exact reals: the least table index whose reference is nearest to the sample. -/
def Obligations.ClassifyPicksTheLeastNearestIndex : Prop :=
  ∀ F : NumFmt ℝ, F.Exact → ∀ (c : Modem ℝ) (x t : ℝ), c.par ≠ [] →
    ∃ h : classify F c x t < c.par.length,
      (∀ i (hi : i < c.par.length),
        |x - refAt F c.carrier c.par[classify F c x t] t| ≤ |x - refAt F c.carrier c.par[i] t|) ∧
      ∀ i (hi : i < classify F c x t),
        |x - refAt F c.carrier c.par[classify F c x t] t| < |x - refAt F c.carrier (c.par[i]'(hi.trans h)) t|

/-- 41_modulation R221: the vote is the median of the codes, an even count's mean rounded half to even, and never
leaves the range of the codes. -/
def Obligations.VoteIsTheMedianRoundedHalfToEven : Prop :=
  ∀ codes d : List Nat, codes ≠ [] → d.Perm codes → d.Pairwise (· ≤ ·) →
    (d.length % 2 = 1 → d[(d.length - 1) / 2]? = some (vote codes)) ∧
    (d.length % 2 = 0 → ∃ a b, d[d.length / 2 - 1]? = some a ∧ d[d.length / 2]? = some b ∧
      ((a + b) % 2 = 0 → 2 * vote codes = a + b) ∧
      ((a + b) % 2 = 1 → vote codes % 2 = 0 ∧ (2 * vote codes = a + b + 1 ∨ 2 * vote codes + 1 = a + b))) ∧
    ∀ k, (∀ c ∈ codes, c < k) → vote codes < k

/-- 41_modulation R226 over exact reals: the median of a window. -/
def Obligations.MedianIsMiddleOrMeanOfMiddles : Prop :=
  ∀ F : NumFmt ℝ, F.Exact → ∀ xs d : List ℝ, xs ≠ [] → d.Perm xs → d.Pairwise (· ≤ ·) →
    (d.length % 2 = 1 → d[d.length / 2]? = some (med F xs)) ∧
    (d.length % 2 = 0 → ∃ a b, d[d.length / 2 - 1]? = some a ∧ d[d.length / 2]? = some b ∧ med F xs = (a + b) / 2)

/-- 41_modulation R227, R228 over exact reals: for FSK and PSK every window of DEMODULATE_BINS takes the lowest
level. -/
def Obligations.BinsOfFskAndPskTakeTheLowestLevel : Prop :=
  ∀ F : NumFmt ℝ, F.Exact → ∀ (s t : State) (c : Modem ℝ) (v : Int), Configured F s c →
    (s.modCfg.variant = .fsk ∨ s.modCfg.variant = .psk) → c.lvl[0]? = some v →
    demodulateBinsWith F s = .next t → t.status.done = true →
    ∀ j, j < uint t.outLen → t.outBuf.read j = some (word v)

/-- 41_modulation R232 over exact reals: MODULATE, the host's copy, DEMODULATE. Symbol j comes back when more than half
of its instants have no lower table entry whose reference coincides with the symbol's own. `num(enc(x)) = x` is assumed
for every grid point and for every table entry's reference at every grid point, whether MODULATE writes it or not. -/
def Obligations.DemodulateRecoversUnambiguousSymbols : Prop :=
  ∀ F : NumFmt ℝ, F.Exact → ∀ (reg : Reg) (s t u : State) (c : Modem ℝ) (n : Nat) (d : ℝ) (l : List Int),
    (reg = .modDur ∨ reg = .argDur) → ReadyToModulate F reg s c n d → HoldsLevels s l → (∀ x ∈ l, x ∈ c.lvl) →
    modulateWith F reg s = .next t → t.status.done = true →
    CopiedOutToIn t u → CopiedToutToTin t u → u.cfg = s.cfg → ConfiguredS F u c n →
    n * l.length ≤ s.cfg.capIn → n * l.length < 2 ^ 32 →
    (∀ k p, k < n * l.length → p ∈ c.par →
      F.num (F.enc (gridPoint F s.cfg.gridEndpoint (n * l.length) d k)) =
        some (gridPoint F s.cfg.gridEndpoint (n * l.length) d k) ∧
      F.num (F.enc (refAt F c.carrier p (gridPoint F s.cfg.gridEndpoint (n * l.length) d k))) =
        some (refAt F c.carrier p (gridPoint F s.cfg.gridEndpoint (n * l.length) d k))) →
    ∃ v, demodulateWith F u = .next v ∧ v.status.done = true ∧ uint v.outLen = l.length ∧
      ∀ j i (hj : j < l.length) (hi : i < c.par.length), c.lvl[i]? = some l[j] →
        n < 2 * ((List.range n).filter fun q => decide (∀ i' (hi' : i' < i),
          refAt F c.carrier (c.par[i']'(hi'.trans hi)) (gridPoint F s.cfg.gridEndpoint (n * l.length) d (j * n + q)) ≠
            refAt F c.carrier c.par[i] (gridPoint F s.cfg.gridEndpoint (n * l.length) d (j * n + q)))).length →
        v.outBuf.read j = some (word l[j])

/-! ### All commands: errors, frames, what they read -/

/-- 60_exceptions R284, R285: an engine step ends in success or in an error, and an error changes STATUS and EIDX
only, beside the model's own fault record where an unwritten register was read (log 3). -/
def Obligations.CommandEndsInSuccessOrPreciseError : Prop :=
  ∀ (i : Instr) (s t : State), exec i s = .next t →
    (t.status = { busy := false, done := true, err := false, ecode := none } ∧ t.eidx = 0#32) ∨
    ∃ e k, t = ErrorState { s with faults := t.faults } e k

/-- 60_exceptions R277: EIDX of an error: 0 for ILLEGAL, CONFIG, CAPACITY and SHAPE, the index of an input element for
DOMAIN and ALPHABET. -/
def Obligations.ErrorIndexNamesAnInputElement : Prop :=
  ∀ (i : Instr) (s t : State) (e : ErrCode), exec i s = .next t → t.status.ecode = some e →
    ((e = .illegal ∨ e = .config ∨ e = .capacity ∨ e = .shape) → t.eidx = 0#32) ∧
    (e = .domain → readsIn i = true ∧ uint t.eidx < uint s.inLen ∨ readsTin i = true ∧ uint t.eidx < uint s.tinLen) ∧
    (e = .alphabet → (i = .mod ∨ i = .modDur ∨ i = .modg) ∧ uint t.eidx < uint s.inLen)

/-- 10_state R58, 40_line_codes R167, 41_modulation R230: a command writes OUT[0..count−1], TOUT[0..count−1] when it
writes times, and nothing else of the buffers; every register but OUT_LEN, STATUS and EIDX is as before, and the fault
record takes at most one mark, for an unwritten register. -/
def Obligations.CommandWritesOnlyItsOutputs : Prop :=
  ∀ (i : Instr) (s t : State), exec i s = .next t →
    KeepsTheRest { s with faults := t.faults } t ∧ RecordOnlyGrows s t ∧ (writesTimes i = false → t.toutBuf = s.toutBuf) ∧
    (t.status.done = true →
      (outCount s i < 2 ^ 32 → uint t.outLen = outCount s i) ∧ outCount s i ≤ s.cfg.capOut ∧
      (∀ j, outCount s i ≤ j → t.outBuf.read j = s.outBuf.read j ∧ t.toutBuf.read j = s.toutBuf.read j) ∧
      (∀ j, j < outCount s i → (∃ w, t.outBuf.read j = some w) ∧
        (writesTimes i = true → ∃ w, t.toutBuf.read j = some w)) ∧
      ((i = .decMan ∨ i = .decDman) → uint s.inLen % 2 = 0))

/-- 00_scope R21, 20_memory R77: a command stops only at an element that holds no value, inside its buffer; its model
fault is taken there or at an unwritten register read before (60_exceptions R282); a command never refuses. R21 names
registers and elements alike: that a read of an unwritten register is marked and stops no command, so that only elements
do, is the model's choice (log 3). -/
def Obligations.CommandFaultsOnlyOnUnwrittenReads : Prop :=
  ∀ (i : Instr) (s : State), (∃ t, exec i s = .next t) ∨
    ∃ b k first, exec i s = .fault (.unwritten (.elem b k) first) ∧ (b = .inB ∨ b = .tin) ∧ k < s.cfg.capIn ∧
      (s.buf b).read k = none ∧ (first = .elem b k ∨ ∃ r, first = .reg r ∧ s.regRead r = none)

/-- 10_state R54, 40_line_codes R166, 41_modulation R234: the answer of a command depends only on what the table of R54
says it reads, never on an earlier command, on ESTATE, or on a register it does not read. -/
def Obligations.CommandDependsOnlyOnWhatItReads : Prop :=
  ∀ (i : Instr) (s u : State), AgreeOnReads i s u → SameAnswer i s u (exec i s) (exec i u)

/-- The model's choice for ESTATE (log 4): a command that succeeds sets it exactly for NRZI, Differential-Manchester,
AMI and Pseudoternary; every other command and every error leaves it. -/
def Obligations.EstateIsSetOnlyByTheDifferentialCommands : Prop :=
  ∀ (i : Instr) (s t : State), exec i s = .next t →
    (t.status.done = false → t.estate = s.estate) ∧
    (t.status.done = true →
      i ∈ [Instr.encNrzi, .encAmi, .encPst, .encDman, .decNrzi, .decAmi, .decPst, .decDman] →
      t.estate = -1 ∨ t.estate = 1) ∧
    (i ∉ [Instr.encNrzi, .encAmi, .encPst, .encDman, .decNrzi, .decAmi, .decPst, .decDman] → t.estate = s.estate)

/-- 10_state R61: nothing reads ESTATE: a step on the state with another ESTATE answers the same, apart from ESTATE. -/
def Obligations.EstateIsNeverRead : Prop :=
  ∀ (s : State) (e : Int),
    match step s, step { s with estate := e } with
    | .next t, .next u => u = { t with estate := u.estate }
    | .fault f, .fault g => f = g
    | _, _ => False

/-! ### The host interface -/

/-- 10_state R36: the word a read of STATUS returns. -/
def Obligations.StatusWordPacksTheFlags : Prop :=
  ∀ s : State, ∃ w, s.regRead .status = some w ∧ w[0] = s.status.busy ∧ w[1] = s.status.done ∧ w[2] = s.status.err ∧
    w[3] = false ∧ w.extractLsb' 8 24 = 0#24 ∧
    w.extractLsb' 4 4 = (match s.status.ecode with
      | none => 0#4
      | some .illegal => 1#4
      | some .config => 2#4
      | some .capacity => 3#4
      | some .shape => 4#4
      | some .domain => 5#4
      | some .alphabet => 6#4)

/-- 20_memory R87: the host's write of CMD while BUSY = 0. -/
def Obligations.CmdWriteLatchesTheCommand : Prop :=
  ∀ (s : State) (v : Word) (rest : List Move), HostNext s (.writeReg 0x00 4 v) rest →
    step s = .next { s with
      cmd := v
      status := { busy := true, done := false, err := false, ecode := none }
      eidx := 0#32
      agenda := rest }

/-- 20_memory R84: while BUSY = 1 a STATUS read is answered and every other host access is a HostHazard. -/
def Obligations.BusyAdmitsOnlyStatusReads : Prop :=
  ∀ (s : State) (a : Access) (rest : List Move), s.status.busy = true → s.agenda = .host a :: rest →
    (a = .readReg 0x04 4 → ∃ w, s.regRead .status = some w ∧
      step s = .next { s with reads := s.reads ++ [w], agenda := rest }) ∧
    (a ≠ .readReg 0x04 4 → step s = .fault (.hostHazard .busy))

/-- 20_memory R74, R85, 10_state R33: while BUSY = 0, a register access that is no whole word at a multiple of 4, or is at
offset 0x34 or at 0x50 or above within the window, is a HostHazard. The names of the reasons are the model's (log 14). -/
def Obligations.MalformedAndReservedAccessesAreHazards : Prop :=
  ∀ (s : State) (off width : Nat) (v : Word) (a : Access) (rest : List Move),
    (a = .readReg off width ∨ a = .writeReg off width v) → HostNext s a rest →
    ((width ≠ 4 ∨ off % 4 ≠ 0) → step s = .fault (.hostHazard .form)) ∧
    (width = 4 → off % 4 = 0 → (off = 0x34 ∨ 0x50 ≤ off ∧ off < 0x1000) → step s = .fault (.hostHazard .reserved))

/-- 10_state R34, 20_memory R75: while BUSY = 0, a write of a register other than CMD stores the word (MOD_CFG without its
reserved bits), a write of a read-only register changes nothing, and no other register and no buffer changes. -/
def Obligations.RegisterWritesStoreAndReadBack : Prop :=
  ∀ (s : State) (r : Reg) (v : Word) (rest : List Move), r ≠ .cmd → HostNext s (.writeReg r.offset 4 v) rest →
    ∃ t, step s = .next t ∧ t.agenda = rest ∧
      ((r = .status ∨ r = .eidx ∨ r = .outLen) → t = { s with agenda := rest }) ∧
      (r = .modCfg → t.regRead r = some (v &&& 0x33#32)) ∧
      (r ≠ .status → r ≠ .eidx → r ≠ .outLen → r ≠ .modCfg → t.regRead r = some v) ∧
      (∀ q, q ≠ r → t.regRead q = s.regRead q) ∧ (∀ b, t.buf b = s.buf b) ∧ t.cfg = s.cfg ∧ t.estate = s.estate ∧
      t.status = s.status ∧ t.faults = s.faults ∧ t.reads = s.reads

/-- 20_memory R75, R88: while BUSY = 0, a register read returns the word held and changes nothing of the core; where the
register is unwritten, Unwritten is recorded. That the read then returns the word held is the model's choice (log 3). -/
def Obligations.RegisterReadsAnswerAndMark : Prop :=
  ∀ (s : State) (r : Reg) (rest : List Move), HostNext s (.readReg r.offset 4) rest →
    (∀ w, s.regRead r = some w → step s = .next { s with reads := s.reads ++ [w], agenda := rest }) ∧
    (s.regRead r = none →
      step s = .next { Marked s r with reads := s.reads ++ [(s.reg r).word], agenda := rest })

/-- 20_memory R77, R88: while BUSY = 0, a buffer access at or beyond the capacity is a HostHazard; below it a read returns
the element held or is Unwritten, and a write stores that element and nothing else. -/
def Obligations.BufferAccessesReachOneElement : Prop :=
  ∀ (s : State) (b : Buf) (i : Nat) (v : Word) (rest : List Move),
    (HostNext s (.readBuf b i) rest →
      (capOf s.cfg b ≤ i → step s = .fault (.hostHazard .index)) ∧
      (i < capOf s.cfg b → (s.buf b).read i = none → step s = unwrittenElem b i) ∧
      (i < capOf s.cfg b → ∀ w, (s.buf b).read i = some w →
        step s = .next { s with reads := s.reads ++ [w], agenda := rest })) ∧
    (HostNext s (.writeBuf b i v) rest →
      (capOf s.cfg b ≤ i → step s = .fault (.hostHazard .index)) ∧
      (i < capOf s.cfg b → ∃ t, step s = .next t ∧ t.agenda = rest ∧ (∀ r, t.regRead r = s.regRead r) ∧
        t.cfg = s.cfg ∧ t.estate = s.estate ∧ t.status = s.status ∧ t.faults = s.faults ∧ t.reads = s.reads ∧
        ∀ c k, (t.buf c).read k = if c = b ∧ k = i then some v else (s.buf c).read k))

/-! ### Reset and the invariant -/

/-- 10_state R60: what reset leaves, in every core; and 70_reset R310: the reset move sets it in any state, abandons the
command in progress and keeps the fault record. That ESTATE, which R60
leaves unspecified too, holds a level is the model's choice (log 4). -/
def Obligations.ResetLeavesTheListedValues : Prop :=
  (∀ c : Config, ∀ s : State, (s = State.resetWith c ∨ ∃ u rest, u.agenda = .reset :: rest ∧ step u = .next s) →
    (∀ r, s.regRead r =
      if r = .argDur ∨ r = .modFreq ∨ r = .modAmp ∨ r = .modDur ∨ (∃ i, r = .modLvl i) ∨ (∃ i, r = .modPar i) then none
      else some 0#32) ∧
    s.status = { busy := false, done := false, err := false, ecode := none } ∧
    (∀ b k, (s.buf b).read k = none) ∧ (s.estate = -1 ∨ s.estate = 1)) ∧
  (∀ (u : State) (rest : List Move), u.agenda = .reset :: rest →
    ∃ t, step u = .next t ∧ t.faults = u.faults ∧ t.cfg = u.cfg ∧ t.agenda = rest) ∧
  (∃ c, State.reset = State.resetWith c) ∧ State.reset.faults = []

/-- The invariant holds after reset, whatever the parameters and whatever is to come. Its clause on ESTATE is 10_state R55;
R60 leaves ESTATE unspecified at reset, and that it holds a level there is the model's choice (log 4). -/
def Obligations.InvariantHoldsAtReset : Prop :=
  ∀ (c : Config) (ag : List Move), Inv { State.resetWith c with agenda := ag }

/-- Every step keeps the invariant. Its clause on ESTATE is 10_state R55; that ESTATE holds a level after the reset move is
the model's choice (log 4). -/
def Obligations.EveryStepKeepsTheInvariant : Prop :=
  ∀ s t : State, Inv s → step s = .next t → Inv t

/-- 95_test_vectors LT-2 and LT-4 (20_memory R79, R80, R84), for every command word and every host access: after a write
of CMD the next access is made before the engine's step or after it. Before, it is a HostHazard, or, a read of STATUS,
returns BUSY = 1. After, it is made on the state that step leaves, the step having found the inputs as they were. The
engine's turns `p` before the write and `q` between write and access make every schedule without a reset (log 6). Then
LT-2 and LT-4 themselves: `enc.nrz`, and a read of OUT[0] or a write of IN[0]. -/
def Obligations.LitmusAccessAfterCmdWrite : Prop :=
  (∀ (s u : State) (v : Word) (a : Access) (p q : Nat) (rest : List Move), s.status.busy = false →
    s.agenda = List.replicate p .engine ++ wr .cmd v :: (List.replicate q .engine ++ .host a :: rest) →
    u = { s with cmd := v, status := { busy := true, done := false, err := false, ecode := none }, eidx := 0#32 } →
    (q = 0 →
      (a ≠ .readReg 0x04 4 → core.run (p + 2) s = .fault (.hostHazard .busy)) ∧
      (a = .readReg 0x04 4 → core.run (p + 2) s = .next { u with reads := s.reads ++ [1#32], agenda := rest })) ∧
    (0 < q →
      (∃ t, step { u with agenda := .engine :: .host a :: rest } = .next t ∧ t.status.busy = false ∧
        t.agenda = .host a :: rest ∧ t.inBuf = s.inBuf ∧ t.tinBuf = s.tinBuf ∧ core.run (p + q + 2) s = step t) ∨
      ∃ b k first, step { u with agenda := .engine :: .host a :: rest } = .fault (.unwritten (.elem b k) first) ∧
        (s.buf b).read k = none ∧ core.run (p + q + 2) s = .fault (.unwritten (.elem b k) first))) ∧
  ∀ (s : State) (v : Word), HoldsBits s [true] → s.status.busy = false →
    (∀ ag, s.agenda = ag → .reset ∉ ag → hostMoves ag = [issue .encNrz, rdo 0] →
      (∃ k, core.run k s = .fault (.hostHazard .busy)) ∨
      ∃ t, core.run ag.length s = .next t ∧ t.reads = s.reads ++ [0x00000001#32]) ∧
    (∀ ag, s.agenda = ag → .reset ∉ ag → hostMoves ag = [issue .encNrz, wri 0 v] →
      (∃ k, core.run k s = .fault (.hostHazard .busy)) ∨
      ∃ t, core.run ag.length s = .next t ∧ t.outBuf.read 0 = some 0x00000001#32 ∧ t.inBuf.read 0 = some v)
end

