-- ==== Sys2Proof/Laws/State.lean ====
section
/-! SUPPORT. One lemma a field for each update of the state, true by rfl, so that no later proof unfolds a record
update. -/

namespace Sys2Proof.Machine

/-! ### Success -/

@[simp] theorem State.succeed_cfg (s : State) (r : Result) : (s.succeed r).cfg = s.cfg := rfl
@[simp] theorem State.succeed_cmd (s : State) (r : Result) : (s.succeed r).cmd = s.cmd := rfl
@[simp] theorem State.succeed_status (s : State) (r : Result) : (s.succeed r).status = Status.success := rfl
@[simp] theorem State.succeed_eidx (s : State) (r : Result) : (s.succeed r).eidx = 0#32 := rfl
@[simp] theorem State.succeed_inLen (s : State) (r : Result) : (s.succeed r).inLen = s.inLen := rfl
@[simp] theorem State.succeed_tinLen (s : State) (r : Result) : (s.succeed r).tinLen = s.tinLen := rfl
@[simp] theorem State.succeed_outLen (s : State) (r : Result) : (s.succeed r).outLen = lenWord r.out.length := rfl
@[simp] theorem State.succeed_argDur (s : State) (r : Result) : (s.succeed r).argDur = s.argDur := rfl
@[simp] theorem State.succeed_argBins (s : State) (r : Result) : (s.succeed r).argBins = s.argBins := rfl
@[simp] theorem State.succeed_modCfg (s : State) (r : Result) : (s.succeed r).modCfg = s.modCfg := rfl
@[simp] theorem State.succeed_modSps (s : State) (r : Result) : (s.succeed r).modSps = s.modSps := rfl
@[simp] theorem State.succeed_modFreq (s : State) (r : Result) : (s.succeed r).modFreq = s.modFreq := rfl
@[simp] theorem State.succeed_modAmp (s : State) (r : Result) : (s.succeed r).modAmp = s.modAmp := rfl
@[simp] theorem State.succeed_modDur (s : State) (r : Result) : (s.succeed r).modDur = s.modDur := rfl
@[simp] theorem State.succeed_lvl (s : State) (r : Result) : (s.succeed r).lvl = s.lvl := rfl
@[simp] theorem State.succeed_par (s : State) (r : Result) : (s.succeed r).par = s.par := rfl
@[simp] theorem State.succeed_inBuf (s : State) (r : Result) : (s.succeed r).inBuf = s.inBuf := rfl
@[simp] theorem State.succeed_tinBuf (s : State) (r : Result) : (s.succeed r).tinBuf = s.tinBuf := rfl
@[simp] theorem State.succeed_outBuf (s : State) (r : Result) : (s.succeed r).outBuf = s.outBuf.writeFrom 0 r.out := rfl
@[simp] theorem State.succeed_toutBuf (s : State) (r : Result) : (s.succeed r).toutBuf = (match r.tout with | none => s.toutBuf | some ts => s.toutBuf.writeFrom 0 ts) := rfl
@[simp] theorem State.succeed_estate (s : State) (r : Result) : (s.succeed r).estate = r.estate.getD s.estate := rfl
@[simp] theorem State.succeed_faults (s : State) (r : Result) : (s.succeed r).faults = s.faults := rfl
@[simp] theorem State.succeed_agenda (s : State) (r : Result) : (s.succeed r).agenda = s.agenda := rfl
@[simp] theorem State.succeed_reads (s : State) (r : Result) : (s.succeed r).reads = s.reads := rfl

/-! ### Error entry -/

@[simp] theorem State.raise_cfg (s : State) (e : ErrCode) (n : Nat) : (s.raise e n).cfg = s.cfg := rfl
@[simp] theorem State.raise_cmd (s : State) (e : ErrCode) (n : Nat) : (s.raise e n).cmd = s.cmd := rfl
@[simp] theorem State.raise_status (s : State) (e : ErrCode) (n : Nat) : (s.raise e n).status = Status.failure e := rfl
@[simp] theorem State.raise_eidx (s : State) (e : ErrCode) (n : Nat) : (s.raise e n).eidx = BitVec.ofNat 32 n := rfl
@[simp] theorem State.raise_inLen (s : State) (e : ErrCode) (n : Nat) : (s.raise e n).inLen = s.inLen := rfl
@[simp] theorem State.raise_tinLen (s : State) (e : ErrCode) (n : Nat) : (s.raise e n).tinLen = s.tinLen := rfl
@[simp] theorem State.raise_outLen (s : State) (e : ErrCode) (n : Nat) : (s.raise e n).outLen = s.outLen := rfl
@[simp] theorem State.raise_argDur (s : State) (e : ErrCode) (n : Nat) : (s.raise e n).argDur = s.argDur := rfl
@[simp] theorem State.raise_argBins (s : State) (e : ErrCode) (n : Nat) : (s.raise e n).argBins = s.argBins := rfl
@[simp] theorem State.raise_modCfg (s : State) (e : ErrCode) (n : Nat) : (s.raise e n).modCfg = s.modCfg := rfl
@[simp] theorem State.raise_modSps (s : State) (e : ErrCode) (n : Nat) : (s.raise e n).modSps = s.modSps := rfl
@[simp] theorem State.raise_modFreq (s : State) (e : ErrCode) (n : Nat) : (s.raise e n).modFreq = s.modFreq := rfl
@[simp] theorem State.raise_modAmp (s : State) (e : ErrCode) (n : Nat) : (s.raise e n).modAmp = s.modAmp := rfl
@[simp] theorem State.raise_modDur (s : State) (e : ErrCode) (n : Nat) : (s.raise e n).modDur = s.modDur := rfl
@[simp] theorem State.raise_lvl (s : State) (e : ErrCode) (n : Nat) : (s.raise e n).lvl = s.lvl := rfl
@[simp] theorem State.raise_par (s : State) (e : ErrCode) (n : Nat) : (s.raise e n).par = s.par := rfl
@[simp] theorem State.raise_inBuf (s : State) (e : ErrCode) (n : Nat) : (s.raise e n).inBuf = s.inBuf := rfl
@[simp] theorem State.raise_tinBuf (s : State) (e : ErrCode) (n : Nat) : (s.raise e n).tinBuf = s.tinBuf := rfl
@[simp] theorem State.raise_outBuf (s : State) (e : ErrCode) (n : Nat) : (s.raise e n).outBuf = s.outBuf := rfl
@[simp] theorem State.raise_toutBuf (s : State) (e : ErrCode) (n : Nat) : (s.raise e n).toutBuf = s.toutBuf := rfl
@[simp] theorem State.raise_estate (s : State) (e : ErrCode) (n : Nat) : (s.raise e n).estate = s.estate := rfl
@[simp] theorem State.raise_faults (s : State) (e : ErrCode) (n : Nat) : (s.raise e n).faults = s.faults := rfl
@[simp] theorem State.raise_agenda (s : State) (e : ErrCode) (n : Nat) : (s.raise e n).agenda = s.agenda := rfl
@[simp] theorem State.raise_reads (s : State) (e : ErrCode) (n : Nat) : (s.raise e n).reads = s.reads := rfl

/-! ### A write of CMD -/

@[simp] theorem State.latch_cfg (s : State) (v : Word) : (s.latch v).cfg = s.cfg := rfl
@[simp] theorem State.latch_cmd (s : State) (v : Word) : (s.latch v).cmd = v := rfl
@[simp] theorem State.latch_status (s : State) (v : Word) : (s.latch v).status = Status.latched := rfl
@[simp] theorem State.latch_eidx (s : State) (v : Word) : (s.latch v).eidx = 0#32 := rfl
@[simp] theorem State.latch_inLen (s : State) (v : Word) : (s.latch v).inLen = s.inLen := rfl
@[simp] theorem State.latch_tinLen (s : State) (v : Word) : (s.latch v).tinLen = s.tinLen := rfl
@[simp] theorem State.latch_outLen (s : State) (v : Word) : (s.latch v).outLen = s.outLen := rfl
@[simp] theorem State.latch_argDur (s : State) (v : Word) : (s.latch v).argDur = s.argDur := rfl
@[simp] theorem State.latch_argBins (s : State) (v : Word) : (s.latch v).argBins = s.argBins := rfl
@[simp] theorem State.latch_modCfg (s : State) (v : Word) : (s.latch v).modCfg = s.modCfg := rfl
@[simp] theorem State.latch_modSps (s : State) (v : Word) : (s.latch v).modSps = s.modSps := rfl
@[simp] theorem State.latch_modFreq (s : State) (v : Word) : (s.latch v).modFreq = s.modFreq := rfl
@[simp] theorem State.latch_modAmp (s : State) (v : Word) : (s.latch v).modAmp = s.modAmp := rfl
@[simp] theorem State.latch_modDur (s : State) (v : Word) : (s.latch v).modDur = s.modDur := rfl
@[simp] theorem State.latch_lvl (s : State) (v : Word) : (s.latch v).lvl = s.lvl := rfl
@[simp] theorem State.latch_par (s : State) (v : Word) : (s.latch v).par = s.par := rfl
@[simp] theorem State.latch_inBuf (s : State) (v : Word) : (s.latch v).inBuf = s.inBuf := rfl
@[simp] theorem State.latch_tinBuf (s : State) (v : Word) : (s.latch v).tinBuf = s.tinBuf := rfl
@[simp] theorem State.latch_outBuf (s : State) (v : Word) : (s.latch v).outBuf = s.outBuf := rfl
@[simp] theorem State.latch_toutBuf (s : State) (v : Word) : (s.latch v).toutBuf = s.toutBuf := rfl
@[simp] theorem State.latch_estate (s : State) (v : Word) : (s.latch v).estate = s.estate := rfl
@[simp] theorem State.latch_faults (s : State) (v : Word) : (s.latch v).faults = s.faults := rfl
@[simp] theorem State.latch_agenda (s : State) (v : Word) : (s.latch v).agenda = s.agenda := rfl
@[simp] theorem State.latch_reads (s : State) (v : Word) : (s.latch v).reads = s.reads := rfl

/-! ### The answer to a host read -/

@[simp] theorem State.answer_cfg (s : State) (w : Word) : (s.answer w).cfg = s.cfg := rfl
@[simp] theorem State.answer_cmd (s : State) (w : Word) : (s.answer w).cmd = s.cmd := rfl
@[simp] theorem State.answer_status (s : State) (w : Word) : (s.answer w).status = s.status := rfl
@[simp] theorem State.answer_eidx (s : State) (w : Word) : (s.answer w).eidx = s.eidx := rfl
@[simp] theorem State.answer_inLen (s : State) (w : Word) : (s.answer w).inLen = s.inLen := rfl
@[simp] theorem State.answer_tinLen (s : State) (w : Word) : (s.answer w).tinLen = s.tinLen := rfl
@[simp] theorem State.answer_outLen (s : State) (w : Word) : (s.answer w).outLen = s.outLen := rfl
@[simp] theorem State.answer_argDur (s : State) (w : Word) : (s.answer w).argDur = s.argDur := rfl
@[simp] theorem State.answer_argBins (s : State) (w : Word) : (s.answer w).argBins = s.argBins := rfl
@[simp] theorem State.answer_modCfg (s : State) (w : Word) : (s.answer w).modCfg = s.modCfg := rfl
@[simp] theorem State.answer_modSps (s : State) (w : Word) : (s.answer w).modSps = s.modSps := rfl
@[simp] theorem State.answer_modFreq (s : State) (w : Word) : (s.answer w).modFreq = s.modFreq := rfl
@[simp] theorem State.answer_modAmp (s : State) (w : Word) : (s.answer w).modAmp = s.modAmp := rfl
@[simp] theorem State.answer_modDur (s : State) (w : Word) : (s.answer w).modDur = s.modDur := rfl
@[simp] theorem State.answer_lvl (s : State) (w : Word) : (s.answer w).lvl = s.lvl := rfl
@[simp] theorem State.answer_par (s : State) (w : Word) : (s.answer w).par = s.par := rfl
@[simp] theorem State.answer_inBuf (s : State) (w : Word) : (s.answer w).inBuf = s.inBuf := rfl
@[simp] theorem State.answer_tinBuf (s : State) (w : Word) : (s.answer w).tinBuf = s.tinBuf := rfl
@[simp] theorem State.answer_outBuf (s : State) (w : Word) : (s.answer w).outBuf = s.outBuf := rfl
@[simp] theorem State.answer_toutBuf (s : State) (w : Word) : (s.answer w).toutBuf = s.toutBuf := rfl
@[simp] theorem State.answer_estate (s : State) (w : Word) : (s.answer w).estate = s.estate := rfl
@[simp] theorem State.answer_faults (s : State) (w : Word) : (s.answer w).faults = s.faults := rfl
@[simp] theorem State.answer_agenda (s : State) (w : Word) : (s.answer w).agenda = s.agenda := rfl
@[simp] theorem State.answer_reads (s : State) (w : Word) : (s.answer w).reads = s.reads ++ [w] := rfl

/-! ### A mark in the fault record -/

@[simp] theorem State.mark_cfg (s : State) (m : ModelFault) : (s.mark m).cfg = s.cfg := rfl
@[simp] theorem State.mark_cmd (s : State) (m : ModelFault) : (s.mark m).cmd = s.cmd := rfl
@[simp] theorem State.mark_status (s : State) (m : ModelFault) : (s.mark m).status = s.status := rfl
@[simp] theorem State.mark_eidx (s : State) (m : ModelFault) : (s.mark m).eidx = s.eidx := rfl
@[simp] theorem State.mark_inLen (s : State) (m : ModelFault) : (s.mark m).inLen = s.inLen := rfl
@[simp] theorem State.mark_tinLen (s : State) (m : ModelFault) : (s.mark m).tinLen = s.tinLen := rfl
@[simp] theorem State.mark_outLen (s : State) (m : ModelFault) : (s.mark m).outLen = s.outLen := rfl
@[simp] theorem State.mark_argDur (s : State) (m : ModelFault) : (s.mark m).argDur = s.argDur := rfl
@[simp] theorem State.mark_argBins (s : State) (m : ModelFault) : (s.mark m).argBins = s.argBins := rfl
@[simp] theorem State.mark_modCfg (s : State) (m : ModelFault) : (s.mark m).modCfg = s.modCfg := rfl
@[simp] theorem State.mark_modSps (s : State) (m : ModelFault) : (s.mark m).modSps = s.modSps := rfl
@[simp] theorem State.mark_modFreq (s : State) (m : ModelFault) : (s.mark m).modFreq = s.modFreq := rfl
@[simp] theorem State.mark_modAmp (s : State) (m : ModelFault) : (s.mark m).modAmp = s.modAmp := rfl
@[simp] theorem State.mark_modDur (s : State) (m : ModelFault) : (s.mark m).modDur = s.modDur := rfl
@[simp] theorem State.mark_lvl (s : State) (m : ModelFault) : (s.mark m).lvl = s.lvl := rfl
@[simp] theorem State.mark_par (s : State) (m : ModelFault) : (s.mark m).par = s.par := rfl
@[simp] theorem State.mark_inBuf (s : State) (m : ModelFault) : (s.mark m).inBuf = s.inBuf := rfl
@[simp] theorem State.mark_tinBuf (s : State) (m : ModelFault) : (s.mark m).tinBuf = s.tinBuf := rfl
@[simp] theorem State.mark_outBuf (s : State) (m : ModelFault) : (s.mark m).outBuf = s.outBuf := rfl
@[simp] theorem State.mark_toutBuf (s : State) (m : ModelFault) : (s.mark m).toutBuf = s.toutBuf := rfl
@[simp] theorem State.mark_estate (s : State) (m : ModelFault) : (s.mark m).estate = s.estate := rfl
@[simp] theorem State.mark_faults (s : State) (m : ModelFault) : (s.mark m).faults = s.faults ++ [m] := rfl
@[simp] theorem State.mark_agenda (s : State) (m : ModelFault) : (s.mark m).agenda = s.agenda := rfl
@[simp] theorem State.mark_reads (s : State) (m : ModelFault) : (s.mark m).reads = s.reads := rfl

/-! ### Registers counted as written -/

@[simp] theorem State.settled_cfg (s : State) : (s.settled).cfg = s.cfg := rfl
@[simp] theorem State.settled_cmd (s : State) : (s.settled).cmd = s.cmd := rfl
@[simp] theorem State.settled_status (s : State) : (s.settled).status = s.status := rfl
@[simp] theorem State.settled_eidx (s : State) : (s.settled).eidx = s.eidx := rfl
@[simp] theorem State.settled_inLen (s : State) : (s.settled).inLen = s.inLen := rfl
@[simp] theorem State.settled_tinLen (s : State) : (s.settled).tinLen = s.tinLen := rfl
@[simp] theorem State.settled_outLen (s : State) : (s.settled).outLen = s.outLen := rfl
@[simp] theorem State.settled_argDur (s : State) : (s.settled).argDur = s.argDur.settle := rfl
@[simp] theorem State.settled_argBins (s : State) : (s.settled).argBins = s.argBins := rfl
@[simp] theorem State.settled_modCfg (s : State) : (s.settled).modCfg = s.modCfg := rfl
@[simp] theorem State.settled_modSps (s : State) : (s.settled).modSps = s.modSps := rfl
@[simp] theorem State.settled_modFreq (s : State) : (s.settled).modFreq = s.modFreq.settle := rfl
@[simp] theorem State.settled_modAmp (s : State) : (s.settled).modAmp = s.modAmp.settle := rfl
@[simp] theorem State.settled_modDur (s : State) : (s.settled).modDur = s.modDur.settle := rfl
@[simp] theorem State.settled_lvl (s : State) : (s.settled).lvl = s.lvl.settle := rfl
@[simp] theorem State.settled_par (s : State) : (s.settled).par = s.par.settle := rfl
@[simp] theorem State.settled_inBuf (s : State) : (s.settled).inBuf = s.inBuf := rfl
@[simp] theorem State.settled_tinBuf (s : State) : (s.settled).tinBuf = s.tinBuf := rfl
@[simp] theorem State.settled_outBuf (s : State) : (s.settled).outBuf = s.outBuf := rfl
@[simp] theorem State.settled_toutBuf (s : State) : (s.settled).toutBuf = s.toutBuf := rfl
@[simp] theorem State.settled_estate (s : State) : (s.settled).estate = s.estate := rfl
@[simp] theorem State.settled_faults (s : State) : (s.settled).faults = s.faults := rfl
@[simp] theorem State.settled_agenda (s : State) : (s.settled).agenda = s.agenda := rfl
@[simp] theorem State.settled_reads (s : State) : (s.settled).reads = s.reads := rfl

/-! ### Reset -/

@[simp] theorem State.takeReset_cfg (s : State) : (s.takeReset).cfg = s.cfg := rfl
@[simp] theorem State.takeReset_cmd (s : State) : (s.takeReset).cmd = 0#32 := rfl
@[simp] theorem State.takeReset_status (s : State) : (s.takeReset).status = Status.idle := rfl
@[simp] theorem State.takeReset_eidx (s : State) : (s.takeReset).eidx = 0#32 := rfl
@[simp] theorem State.takeReset_inLen (s : State) : (s.takeReset).inLen = 0#32 := rfl
@[simp] theorem State.takeReset_tinLen (s : State) : (s.takeReset).tinLen = 0#32 := rfl
@[simp] theorem State.takeReset_outLen (s : State) : (s.takeReset).outLen = 0#32 := rfl
@[simp] theorem State.takeReset_argDur (s : State) : (s.takeReset).argDur = Held.atReset := rfl
@[simp] theorem State.takeReset_argBins (s : State) : (s.takeReset).argBins = 0#32 := rfl
@[simp] theorem State.takeReset_modCfg (s : State) : (s.takeReset).modCfg = { variant := .dflt, k := 0#2 } := rfl
@[simp] theorem State.takeReset_modSps (s : State) : (s.takeReset).modSps = 0#32 := rfl
@[simp] theorem State.takeReset_modFreq (s : State) : (s.takeReset).modFreq = Held.atReset := rfl
@[simp] theorem State.takeReset_modAmp (s : State) : (s.takeReset).modAmp = Held.atReset := rfl
@[simp] theorem State.takeReset_modDur (s : State) : (s.takeReset).modDur = Held.atReset := rfl
@[simp] theorem State.takeReset_lvl (s : State) : (s.takeReset).lvl = { e0 := Held.atReset, e1 := Held.atReset, e2 := Held.atReset } := rfl
@[simp] theorem State.takeReset_par (s : State) : (s.takeReset).par = { e0 := Held.atReset, e1 := Held.atReset, e2 := Held.atReset } := rfl
@[simp] theorem State.takeReset_inBuf (s : State) : (s.takeReset).inBuf = [] := rfl
@[simp] theorem State.takeReset_tinBuf (s : State) : (s.takeReset).tinBuf = [] := rfl
@[simp] theorem State.takeReset_outBuf (s : State) : (s.takeReset).outBuf = [] := rfl
@[simp] theorem State.takeReset_toutBuf (s : State) : (s.takeReset).toutBuf = [] := rfl
@[simp] theorem State.takeReset_estate (s : State) : (s.takeReset).estate = estateAtReset := rfl
@[simp] theorem State.takeReset_faults (s : State) : (s.takeReset).faults = s.faults := rfl
@[simp] theorem State.takeReset_agenda (s : State) : (s.takeReset).agenda = s.agenda := rfl
@[simp] theorem State.takeReset_reads (s : State) : (s.takeReset).reads = s.reads := rfl

/-! ### The fetch word -/

@[simp] theorem State.withFetchWord_cmd (s : State) (n w : Nat) :
    (s.withFetchWord n w).cmd = BitVec.ofNat 32 (w % 2 ^ n) := rfl
@[simp] theorem State.withFetchWord_status (s : State) (n w : Nat) :
    (s.withFetchWord n w).status = Status.latched := rfl
@[simp] theorem State.withFetchWord_agenda (s : State) (n w : Nat) :
    (s.withFetchWord n w).agenda = .engine :: s.agenda := rfl

/-! ### Buffers by name -/

@[simp] theorem State.buf_inB (s : State) : s.buf .inB = s.inBuf := rfl
@[simp] theorem State.buf_tin (s : State) : s.buf .tin = s.tinBuf := rfl
@[simp] theorem State.buf_out (s : State) : s.buf .out = s.outBuf := rfl
@[simp] theorem State.buf_tout (s : State) : s.buf .tout = s.toutBuf := rfl
@[simp] theorem State.setBuf_inB (s : State) (m : Memory) : s.setBuf .inB m = { s with inBuf := m } := rfl
@[simp] theorem State.setBuf_tin (s : State) (m : Memory) : s.setBuf .tin m = { s with tinBuf := m } := rfl
@[simp] theorem State.setBuf_out (s : State) (m : Memory) : s.setBuf .out m = { s with outBuf := m } := rfl
@[simp] theorem State.setBuf_tout (s : State) (m : Memory) : s.setBuf .tout m = { s with toutBuf := m } := rfl

/-! ### STATUS -/

@[simp] theorem Status.latched_busy : Status.latched.busy = true := rfl
@[simp] theorem Status.success_busy : Status.success.busy = false := rfl
@[simp] theorem Status.success_done : Status.success.done = true := rfl
@[simp] theorem Status.success_err : Status.success.err = false := rfl
@[simp] theorem Status.success_ecode : Status.success.ecode = none := rfl
@[simp] theorem Status.failure_busy (e : ErrCode) : (Status.failure e).busy = false := rfl
@[simp] theorem Status.failure_done (e : ErrCode) : (Status.failure e).done = false := rfl
@[simp] theorem Status.failure_err (e : ErrCode) : (Status.failure e).err = true := rfl
@[simp] theorem Status.failure_ecode (e : ErrCode) : (Status.failure e).ecode = some e := rfl

end Sys2Proof.Machine
end

