-- ==== Sys2Proof/Laws/Ops.lean ====
section
/-! SUPPORT. What the shared operations can do, once each: buffers, the collecting loop, the end of a command,
registers. -/

namespace Sys2Proof.Machine

/-! ### Buffers -/

@[simp] theorem Memory.read_nil (i : Nat) : Memory.read [] i = none := rfl

/-- Read after write. -/
theorem Memory.read_write (m : Memory) (i : Nat) (w : Word) (k : Nat) :
    (m.write i w).read k = if k = i then some w else m.read k := by
  induction m with
  | nil => simp [Memory.write, Memory.read, eq_comm]
  | cons e m ih =>
    obtain ⟨j, v⟩ := e
    simp only [Memory.write]
    split
    · simp [Memory.read, eq_comm]
    · split
      · subst_vars
        by_cases h : k = j
        · simp [Memory.read, h]
        · simp [Memory.read, h, Ne.symm h]
      · simp only [Memory.read, ih]
        by_cases h : j = k
        · subst h
          simp_all [eq_comm]
        · simp [h]

@[simp] theorem Memory.read_write_same (m : Memory) (i : Nat) (w : Word) : (m.write i w).read i = some w := by
  simp [Memory.read_write]

theorem Memory.read_write_ne (m : Memory) {i k : Nat} (w : Word) (h : k ≠ i) :
    (m.write i w).read k = m.read k := by
  simp [Memory.read_write, h]

/-- What every index reads as after a list is stored from an index on. -/
theorem Memory.read_writeFrom (ws : List Word) : ∀ (m : Memory) (j k : Nat),
    (m.writeFrom j ws).read k = if j ≤ k ∧ k < j + ws.length then ws[k - j]? else m.read k := by
  induction ws with
  | nil =>
    intro m j k
    have h : ¬(j ≤ k ∧ k < j + 0) := by omega
    simp only [Memory.writeFrom, List.length_nil, if_neg h]
  | cons w ws ih =>
    intro m j k
    simp only [Memory.writeFrom, ih, Memory.read_write, List.length_cons]
    by_cases h1 : j + 1 ≤ k ∧ k < j + 1 + ws.length
    · have h2 : j ≤ k ∧ k < j + (ws.length + 1) := by omega
      obtain ⟨d, rfl⟩ : ∃ d, k = j + 1 + d := ⟨k - (j + 1), by omega⟩
      simp [h1, h2, show j + 1 + d - j = d + 1 by omega, show j + 1 + d - (j + 1) = d by omega]
    · by_cases h2 : k = j
      · subst h2
        simp
      · have h3 : ¬(j ≤ k ∧ k < j + (ws.length + 1)) := by omega
        rw [if_neg h1, if_neg h2, if_neg h3]

/-- Storing a list from index 0 on: the stored indices read as the list, the others as before. -/
theorem Memory.read_writeFrom_zero (m : Memory) (ws : List Word) (k : Nat) :
    (m.writeFrom 0 ws).read k = if h : k < ws.length then some ws[k] else m.read k := by
  by_cases h : k < ws.length <;> simp [Memory.read_writeFrom, h]

theorem Memory.wf_cons_iff (a : Nat × Word) (m : Memory) :
    Memory.wf (a :: m) = true ↔ (∀ e ∈ m, a.1 < e.1) ∧ Memory.wf m = true := by
  induction m generalizing a with
  | nil => simp [Memory.wf]
  | cons b m ih =>
    simp only [Memory.wf, Bool.and_eq_true, decide_eq_true_eq, List.mem_cons, forall_eq_or_imp]
    constructor
    · rintro ⟨h1, h2⟩
      exact ⟨⟨h1, fun e he => h1.trans (((ih b).1 h2).1 e he)⟩, h2⟩
    · rintro ⟨⟨h1, -⟩, h2⟩
      exact ⟨h1, h2⟩

theorem Memory.mem_write {m : Memory} {i : Nat} {w : Word} {e : Nat × Word} (h : e ∈ m.write i w) :
    e = (i, w) ∨ e ∈ m := by
  induction m with
  | nil => simpa [Memory.write] using h
  | cons a m ih =>
    obtain ⟨j, v⟩ := a
    simp only [Memory.write] at h
    split at h
    · simpa using h
    · split at h
      · subst_vars
        simp only [List.mem_cons] at h ⊢
        tauto
      · simp only [List.mem_cons] at h ⊢
        rcases h with h | h
        · exact .inr (.inl h)
        · rcases ih h with h | h
          · exact .inl h
          · exact .inr (.inr h)

/-- A write keeps the canonical form. -/
theorem Memory.wf_write {m : Memory} (h : m.wf = true) (i : Nat) (w : Word) : (m.write i w).wf = true := by
  induction m with
  | nil => rfl
  | cons a m ih =>
    obtain ⟨j, v⟩ := a
    have hm := (Memory.wf_cons_iff _ _).1 h
    simp only [Memory.write]
    split
    · rename_i hij
      refine (Memory.wf_cons_iff _ _).2 ⟨fun e he => ?_, h⟩
      rcases List.mem_cons.1 he with rfl | he
      · exact hij
      · exact hij.trans (hm.1 e he)
    · split
      · subst_vars
        exact (Memory.wf_cons_iff _ _).2 ⟨hm.1, hm.2⟩
      · refine (Memory.wf_cons_iff _ _).2 ⟨fun e he => ?_, ih hm.2⟩
        rcases Memory.mem_write he with rfl | he
        · simp only
          omega
        · exact hm.1 e he

/-- Storing a list keeps the canonical form. -/
theorem Memory.wf_writeFrom (ws : List Word) : ∀ {m : Memory} (_ : m.wf = true) (j : Nat),
    (m.writeFrom j ws).wf = true := by
  induction ws with
  | nil => intro m h j; exact h
  | cons w ws ih => intro m h j; exact ih (Memory.wf_write h j w) (j + 1)

/-- A write below the capacity keeps every index below it. -/
theorem Memory.within_write {cap : Nat} {m : Memory} (h : m.within cap = true) {i : Nat} (hi : i < cap) (w : Word) :
    (m.write i w).within cap = true := by
  simp only [Memory.within, List.all_eq_true, decide_eq_true_eq] at h ⊢
  intro e he
  rcases Memory.mem_write he with rfl | he
  · exact hi
  · exact h e he

/-- Storing a list that ends below the capacity keeps every index below it. -/
theorem Memory.within_writeFrom {cap : Nat} (ws : List Word) :
    ∀ {m : Memory} (_ : m.within cap = true) (j : Nat) (_ : j + ws.length ≤ cap),
      (m.writeFrom j ws).within cap = true := by
  induction ws with
  | nil => intro m h j _; exact h
  | cons w ws ih =>
    intro m h j hj
    simp only [List.length_cons] at hj
    exact ih (Memory.within_write h (by omega) w) (j + 1) (by omega)

theorem Memory.read_eq_none_of_lt {m : Memory} {k : Nat} (h : ∀ e ∈ m, k < e.1) : m.read k = none := by
  induction m with
  | nil => rfl
  | cons a m ih =>
    obtain ⟨j, v⟩ := a
    have hj : k < j := h (j, v) (by simp)
    rw [Memory.read, if_neg (by omega)]
    exact ih fun e he => h e (by simp [he])

/-- Canonical buffers that read alike are equal. -/
theorem Memory.ext_of_wf : ∀ {m n : Memory} (_ : m.wf = true) (_ : n.wf = true)
    (_ : ∀ k, m.read k = n.read k), m = n
  | [], [], _, _, _ => rfl
  | [], (j, v) :: n, _, _, h => by have := h j; simp [Memory.read] at this
  | (j, v) :: m, [], _, _, h => by have := h j; simp [Memory.read] at this
  | (j, v) :: m, (k, u) :: n, hm, hn, h => by
    have hm' := (Memory.wf_cons_iff _ _).1 hm
    have hn' := (Memory.wf_cons_iff _ _).1 hn
    have hjk : j = k := by
      rcases lt_trichotomy j k with hlt | heq | hgt
      · have h1 := h j
        rw [Memory.read, if_pos rfl, Memory.read_eq_none_of_lt] at h1
        · cases h1
        · intro e he
          rcases List.mem_cons.1 he with rfl | he
          · exact hlt
          · exact hlt.trans (hn'.1 e he)
      · exact heq
      · have h1 := h k
        rw [Memory.read_eq_none_of_lt (m := (j, v) :: m), Memory.read, if_pos rfl] at h1
        · cases h1
        · intro e he
          rcases List.mem_cons.1 he with rfl | he
          · exact hgt
          · exact hgt.trans (hm'.1 e he)
    subst hjk
    have hvu : v = u := by simpa [Memory.read] using h j
    subst hvu
    have : m = n := by
      refine Memory.ext_of_wf hm'.2 hn'.2 fun k => ?_
      by_cases hk : j = k
      · subst hk
        rw [Memory.read_eq_none_of_lt hm'.1, Memory.read_eq_none_of_lt hn'.1]
      · simpa [Memory.read, hk] using h k
    rw [this]

/-! ### Inside a command -/

theorem bind_eq_ok {α β : Type} {x : Except Halt α} {f : α → Except Halt β} {b : β} :
    (x >>= f) = .ok b ↔ ∃ a, x = .ok a ∧ f a = .ok b := by
  cases x <;> simp [bind, Except.bind]

theorem bind_eq_error {α β : Type} {x : Except Halt α} {f : α → Except Halt β} {h : Halt} :
    (x >>= f) = .error h ↔ x = .error h ∨ ∃ a, x = .ok a ∧ f a = .error h := by
  cases x <;> simp [bind, Except.bind]

@[simp] theorem ok_bind {α β : Type} (a : α) (f : α → Except Halt β) : (Except.ok a >>= f) = f a := rfl

@[simp] theorem error_bind {α β : Type} (h : Halt) (f : α → Except Halt β) :
    ((Except.error h : Except Halt α) >>= f) = .error h := rfl

@[simp] theorem failIf_false (e : ErrCode) (n : Nat) : failIf false e n = .ok () := rfl
@[simp] theorem failIf_true (e : ErrCode) (n : Nat) : failIf true e n = .error (.err e n) := rfl

@[simp] theorem failIf_eq_ok {c : Bool} {e : ErrCode} {n : Nat} {u : Unit} :
    failIf c e n = .ok u ↔ c = false := by
  cases c <;> simp [failIf]

@[simp] theorem failIf_eq_error {c : Bool} {e : ErrCode} {n : Nat} {h : Halt} :
    failIf c e n = .error h ↔ c = true ∧ h = .err e n := by
  cases c <;> simp [failIf, eq_comm]

@[simp] theorem present_eq_ok {o : Option Word} {l : Loc} {w : Word} : present o l = .ok w ↔ o = some w := by
  cases o <;> simp [present]

@[simp] theorem present_eq_error {o : Option Word} {l : Loc} {h : Halt} :
    present o l = .error h ↔ o = none ∧ h = .unwritten l := by
  cases o <;> simp [present, eq_comm]

@[simp] theorem collect_zero {α : Type} (f : Nat → Except Halt α) (a : Nat) : collect f a 0 = .ok [] := rfl

/-- The collecting loop succeeds exactly when every turn does, and answers what the turns answer. -/
theorem collect_eq_ok {α : Type} {f : Nat → Except Halt α} : ∀ {n a : Nat} {l : List α},
    collect f a n = .ok l ↔ l.length = n ∧ ∀ i (h : i < l.length), f (a + i) = .ok l[i]
  | 0, a, l => by
    cases l <;> simp [collect]
  | n + 1, a, l => by
    rw [collect]
    cases hf : f a with
    | error e =>
      simp only [reduceCtorEq, false_iff, not_and, not_forall]
      intro hl
      exact ⟨0, by omega, by simp [hf]⟩
    | ok x =>
      cases hc : collect f (a + 1) n with
      | error e =>
        simp only [reduceCtorEq, false_iff, not_and]
        intro hl hall
        cases l with
        | nil => simp at hl
        | cons y l =>
          have : collect f (a + 1) n = .ok l := collect_eq_ok.2
            ⟨by simpa using hl, fun i hi => by
              have := hall (i + 1) (by simpa using hi)
              rw [show a + 1 + i = a + (i + 1) by omega]
              simpa using this⟩
          rw [this] at hc
          cases hc
      | ok xs =>
        have ih := collect_eq_ok.1 hc
        cases l with
        | nil => simp
        | cons y l =>
          simp only [Except.ok.injEq, List.cons.injEq, List.length_cons, Nat.add_right_cancel_iff]
          constructor
          · rintro ⟨rfl, rfl⟩
            refine ⟨ih.1, fun i hi => ?_⟩
            cases i with
            | zero => simpa using hf
            | succ i =>
              have := ih.2 i (by omega)
              rw [show a + (i + 1) = a + 1 + i by omega]
              simpa using this
          · rintro ⟨hl, hall⟩
            have h0 := hall 0 (by simp)
            simp only [Nat.add_zero, List.getElem_cons_zero, hf, Except.ok.injEq] at h0
            refine ⟨h0, ?_⟩
            have : collect f (a + 1) n = .ok l := collect_eq_ok.2
              ⟨hl, fun i hi => by
                have := hall (i + 1) (by omega)
                rw [show a + 1 + i = a + (i + 1) by omega]
                simpa using this⟩
            rw [hc] at this
            exact (Except.ok.inj this)

/-- The collecting loop halts exactly as its first halting turn does. -/
theorem collect_eq_error {α : Type} {f : Nat → Except Halt α} {h : Halt} : ∀ {n a : Nat},
    collect f a n = .error h ↔ ∃ k, k < n ∧ f (a + k) = .error h ∧ ∀ j, j < k → ∃ x, f (a + j) = .ok x
  | 0, a => by simp [collect]
  | n + 1, a => by
    rw [collect]
    cases hf : f a with
    | error e =>
      simp only [Except.error.injEq]
      constructor
      · rintro rfl
        exact ⟨0, by omega, by simpa using hf, by simp⟩
      · rintro ⟨k, hk, hfk, hj⟩
        cases k with
        | zero => simpa [hf] using hfk
        | succ k =>
          obtain ⟨x, hx⟩ := hj 0 (by omega)
          simp [hf] at hx
    | ok x =>
      have key : collect f (a + 1) n = .error h ↔
          ∃ k, k < n + 1 ∧ f (a + k) = .error h ∧ ∀ j, j < k → ∃ x, f (a + j) = .ok x := by
        rw [collect_eq_error]
        constructor
        · rintro ⟨k, hk, hfk, hj⟩
          refine ⟨k + 1, by omega, by rw [← hfk]; congr 1; omega, fun j hjk => ?_⟩
          cases j with
          | zero => exact ⟨x, by simpa using hf⟩
          | succ j =>
            obtain ⟨y, hy⟩ := hj j (by omega)
            exact ⟨y, by rw [← hy]; congr 1; omega⟩
        · rintro ⟨k, hk, hfk, hj⟩
          cases k with
          | zero => simp [hf] at hfk
          | succ k =>
            refine ⟨k, by omega, by rw [← hfk]; congr 1; omega, fun j hjk => ?_⟩
            obtain ⟨y, hy⟩ := hj (j + 1) (by omega)
            exact ⟨y, by rw [← hy]; congr 1; omega⟩
      rw [← key]
      cases collect f (a + 1) n <;> simp

/-- The collecting loop depends only on the turns it takes. -/
theorem collect_congr {α : Type} {f g : Nat → Except Halt α} : ∀ {n a : Nat},
    (∀ i, i < n → f (a + i) = g (a + i)) → collect f a n = collect g a n
  | 0, _, _ => rfl
  | n + 1, a, h => by
    have h0 : f a = g a := by simpa using h 0 (by omega)
    have hn : collect f (a + 1) n = collect g (a + 1) n := collect_congr fun i hi => by
      have := h (i + 1) (by omega)
      rwa [show a + (i + 1) = a + 1 + i by omega] at this
    rw [collect, collect, h0, hn]

/-- Every way a computation can halt has the property. -/
def HaltsIn (p : Halt → Prop) {α : Type} (x : Except Halt α) : Prop := ∀ h, x = .error h → p h

theorem HaltsIn.ok {p : Halt → Prop} {α : Type} (a : α) : HaltsIn p (Except.ok a) := fun h hh => by cases hh

theorem HaltsIn.bind {p : Halt → Prop} {α β : Type} {x : Except Halt α} {f : α → Except Halt β} (hx : HaltsIn p x)
    (hf : ∀ a, x = .ok a → HaltsIn p (f a)) : HaltsIn p (x >>= f) := fun h hh => by
  rcases bind_eq_error.1 hh with hh | ⟨a, ha, hh⟩
  · exact hx h hh
  · exact hf a ha h hh

theorem HaltsIn.failIf {p : Halt → Prop} {c : Bool} {e : ErrCode} {n : Nat} (h : c = true → p (.err e n)) :
    HaltsIn p (failIf c e n) := fun h' hh => by
  obtain ⟨hc, rfl⟩ := failIf_eq_error.1 hh
  exact h hc

theorem HaltsIn.collect {p : Halt → Prop} {α : Type} {f : Nat → Except Halt α} {a n : Nat}
    (h : ∀ k, k < n → HaltsIn p (f (a + k))) : HaltsIn p (collect f a n) := fun h' hh => by
  obtain ⟨k, hk, hf, -⟩ := collect_eq_error.1 hh
  exact h k hk h' hf

theorem HaltsIn.mono {p q : Halt → Prop} {α : Type} {x : Except Halt α} (hx : HaltsIn p x) (h : ∀ h, p h → q h) :
    HaltsIn q x := fun _ hh => h _ (hx _ hh)

/-! ### The end of a command -/

/-- A computation that answers a next state ended in success or in a hardware error. -/
theorem conclude_eq_next {s t : State} {first : Option Loc} {c : Except Halt Result}
    (h : conclude s first c = .next t) :
    (∃ r, c = .ok r ∧ t = s.succeed r) ∨ (∃ e n, c = .error (.err e n) ∧ t = s.raise e n) := by
  match c, h with
  | .ok r, h => exact .inl ⟨r, rfl, by simpa [conclude] using h.symm⟩
  | .error (.err e n), h => exact .inr ⟨e, n, rfl, by simpa [conclude] using h.symm⟩
  | .error (.unwritten l), h => simp [conclude] at h

/-- A computation that stops met an unwritten place. -/
theorem conclude_eq_fault {s : State} {first : Option Loc} {c : Except Halt Result} {f : Fault}
    (h : conclude s first c = .fault f) : ∃ l, c = .error (.unwritten l) ∧ f = .unwritten l (first.getD l) := by
  match c, h with
  | .error (.unwritten l), h => exact ⟨l, rfl, by simpa [conclude] using h.symm⟩
  | .ok r, h => simp [conclude] at h
  | .error (.err e n), h => simp [conclude] at h

@[simp] theorem conclude_ok (s : State) (first : Option Loc) (r : Result) :
    conclude s first (.ok r) = .next (s.succeed r) := rfl
@[simp] theorem conclude_err (s : State) (first : Option Loc) (e : ErrCode) (n : Nat) :
    conclude s first (.error (.err e n)) = .next (s.raise e n) := rfl
@[simp] theorem conclude_unwritten (s : State) (first : Option Loc) (l : Loc) :
    conclude s first (.error (.unwritten l)) = .fault (.unwritten l (first.getD l)) := rfl

@[simp] theorem unwrittenRegister_ok (r : Result) : unwrittenRegister (.ok r) = none := rfl
@[simp] theorem unwrittenRegister_err (e : ErrCode) (n : Nat) : unwrittenRegister (.error (.err e n)) = none := rfl
@[simp] theorem unwrittenRegister_elem (b : Buf) (k : Nat) :
    unwrittenRegister (.error (.unwritten (.elem b k))) = none := rfl
@[simp] theorem unwrittenRegister_reg (r : Reg) : unwrittenRegister (.error (.unwritten (.reg r))) = some r := rfl

theorem unwrittenRegister_eq_some {c : Except Halt Result} {r : Reg} :
    unwrittenRegister c = some r ↔ c = .error (.unwritten (.reg r)) := by
  match c with
  | .ok _ => simp
  | .error (.err _ _) => simp
  | .error (.unwritten (.elem _ _)) => simp
  | .error (.unwritten (.reg _)) => simp

/-- A command whose computation meets no unwritten register ends as its computation does. -/
theorem finish_of_written {s : State} {body : State → Except Halt Result} (h : unwrittenRegister (body s) = none) :
    finish s body = conclude s none (body s) := by simp only [finish, h]

theorem finish_ok {s : State} {body : State → Except Halt Result} {r : Result} (h : body s = .ok r) :
    finish s body = .next (s.succeed r) := by simp [finish, h]

theorem finish_err {s : State} {body : State → Except Halt Result} {e : ErrCode} {n : Nat}
    (h : body s = .error (.err e n)) : finish s body = .next (s.raise e n) := by simp [finish, h]

theorem finish_elem {s : State} {body : State → Except Halt Result} {b : Buf} {k : Nat}
    (h : body s = .error (.unwritten (.elem b k))) :
    finish s body = .fault (.unwritten (.elem b k) (.elem b k)) := by simp [finish, h]

theorem finish_reg {s : State} {body : State → Except Halt Result} {r : Reg}
    (h : body s = .error (.unwritten (.reg r))) :
    finish s body = conclude (s.mark (.unwritten (.reg r))) (some (.reg r)) (body s.settled) := by simp [finish, h]

/-- Every command ends as a computation does: on the state as it is, or, where that one meets an unwritten register, on
the state with its registers counted as written, the register being marked. -/
theorem finish_eq (s : State) (body : State → Except Halt Result) :
    (unwrittenRegister (body s) = none ∧ finish s body = conclude s none (body s)) ∨
    ∃ r, body s = .error (.unwritten (.reg r)) ∧
      finish s body = conclude (s.mark (.unwritten (.reg r))) (some (.reg r)) (body s.settled) := by
  cases h : unwrittenRegister (body s) with
  | none => exact .inl ⟨rfl, finish_of_written h⟩
  | some r => exact .inr ⟨r, unwrittenRegister_eq_some.1 h, finish_reg (unwrittenRegister_eq_some.1 h)⟩

/-- The gate of convention B is the choice between the command and ILLEGAL. -/
theorem convB_eq (s : State) (o : Step) :
    convB s o = if s.cfg.hasConvB then o else .next (s.raise .illegal 0) := by
  cases o <;> cases h : s.cfg.hasConvB <;> simp [convB, h]

theorem lenWord_toNat {m : Nat} (h : m < 2 ^ 32) : (lenWord m).toNat = m := by
  rw [lenWord, if_pos h, BitVec.toNat_ofNat, Nat.mod_eq_of_lt h]

/-- Every index below OUT_LEN's word is below the count it was set for, whatever the count. -/
theorem lt_of_lt_lenWord {j m : Nat} (h : j < (lenWord m).toNat) : j < m := by
  by_cases hm : m < 2 ^ 32
  · rwa [lenWord_toNat hm] at h
  · have := (lenWord m).isLt
    omega

/-! ### Registers -/

@[simp] theorem Held.read_of (w : Word) : (Held.of w).read = some w := rfl
@[simp] theorem Held.read_atReset : Held.atReset.read = none := rfl
@[simp] theorem Held.read_settle (h : Held) : h.settle.read = some h.word := rfl
@[simp] theorem Held.settle_settle (h : Held) : h.settle.settle = h.settle := rfl

theorem Held.read_eq_some {h : Held} {w : Word} : h.read = some w ↔ h = Held.of w := by
  obtain ⟨u, b⟩ := h
  cases b <;> simp [Held.read, Held.of]

theorem Held.read_eq_none {h : Held} : h.read = none ↔ h.written = false := by
  cases hw : h.written <;> simp [Held.read, hw]

/-- Counting a register as written changes nothing where it is. -/
theorem Held.settle_of_read {h : Held} {w : Word} (hr : h.read = some w) : h.settle = h := by
  rw [Held.read_eq_some.1 hr]; rfl

@[simp] theorem Table.at_settle (t : Table) (i : Fin 3) : t.settle.at i = (t.at i).settle := by
  match i with
  | 0 => rfl
  | 1 => rfl
  | 2 => rfl

@[simp] theorem State.regRead_argDur (s : State) : s.regRead .argDur = s.argDur.read := rfl
@[simp] theorem State.regRead_modFreq (s : State) : s.regRead .modFreq = s.modFreq.read := rfl
@[simp] theorem State.regRead_modAmp (s : State) : s.regRead .modAmp = s.modAmp.read := rfl
@[simp] theorem State.regRead_modDur (s : State) : s.regRead .modDur = s.modDur.read := rfl
@[simp] theorem State.regRead_modLvl (s : State) (i : Fin 3) : s.regRead (.modLvl i) = s.lvl.get i := rfl
@[simp] theorem State.regRead_modPar (s : State) (i : Fin 3) : s.regRead (.modPar i) = s.par.get i := rfl

/-- With its registers counted as written, the state answers every register read with the word held. -/
@[simp] theorem State.regRead_settled (s : State) (r : Reg) : s.settled.regRead r = some (s.reg r).word := by
  cases r <;> simp [State.regRead, State.reg] <;> rfl

@[simp] theorem State.regRead_mark (s : State) (m : ModelFault) (r : Reg) : (s.mark m).regRead r = s.regRead r := rfl

/-- Counting the registers as written changes no register that is. -/
theorem State.regRead_settled_of_some {s : State} {r : Reg} {w : Word} (h : s.regRead r = some w) :
    s.settled.regRead r = some w := by
  rw [State.regRead_settled]
  simp only [State.regRead, Held.read_eq_some] at h
  rw [h]; rfl

@[simp] theorem Table.get_set_same (t : Table) (i : Fin 3) (w : Word) : (t.set i w).get i = some w := by
  match i with
  | 0 => rfl
  | 1 => rfl
  | 2 => rfl

/-- The register map: a register's offset names it. -/
theorem Reg.ofOffset_offset (r : Reg) : Reg.ofOffset r.offset = some r := by
  cases r with
  | modLvl i => match i with
    | 0 => rfl
    | 1 => rfl
    | 2 => rfl
  | modPar i => match i with
    | 0 => rfl
    | 1 => rfl
    | 2 => rfl
  | _ => rfl

theorem Variant.ofCode_code (v : Variant) : Variant.ofCode v.code = v := by cases v <;> rfl

end Sys2Proof.Machine
end

