-- ==== Sys2Proof/Laws/Operands.lean ====
section
/-! SUPPORT. What each operand form answers, and when it halts. -/

namespace Sys2Proof.Machine

variable {Num : Type}

theorem uint_eq (w : Word) : uint w = w.toNat := rfl
theorem sint_eq (w : Word) : sint w = w.toInt := rfl

@[simp] theorem fetchElem_eq_ok {s : State} {b : Buf} {i : Nat} {w : Word} :
    s.fetchElem b i = .ok w ↔ (s.buf b).read i = some w := by
  simp [State.fetchElem]

@[simp] theorem fetchElem_eq_error {s : State} {b : Buf} {i : Nat} {h : Halt} :
    s.fetchElem b i = .error h ↔ (s.buf b).read i = none ∧ h = .unwritten (.elem b i) := by
  simp [State.fetchElem]

@[simp] theorem fetchReg_eq_ok {s : State} {r : Reg} {w : Word} :
    s.fetchReg r = .ok w ↔ s.regRead r = some w := by
  simp [State.fetchReg]

@[simp] theorem fetchReg_eq_error {s : State} {r : Reg} {h : Halt} :
    s.fetchReg r = .error h ↔ s.regRead r = none ∧ h = .unwritten (.reg r) := by
  simp [State.fetchReg]

/-- An element reads as a bit exactly when it is 0 or 1. -/
theorem fetchBit_eq_ok {s : State} {i : Nat} {b : Bool} :
    s.fetchBit i = .ok b ↔ s.inBuf.read i = some (if b then 1#32 else 0#32) := by
  simp only [State.fetchBit, bind_eq_ok, fetchElem_eq_ok, failIf_eq_ok, State.buf_inB]
  constructor
  · rintro ⟨w, hw, -, hf, hb⟩
    simp only [Bool.and_eq_false_iff, bne_eq_false_iff_eq] at hf
    rcases hf with rfl | rfl <;> simp at hb <;> subst hb <;> simpa using hw
  · intro h
    refine ⟨_, h, (), ?_⟩
    cases b <;> simp

theorem fetchBit_eq_error {s : State} {i : Nat} {h : Halt} :
    s.fetchBit i = .error h ↔
      (s.inBuf.read i = none ∧ h = .unwritten (.elem .inB i)) ∨
      ∃ w, s.inBuf.read i = some w ∧ w ≠ 0#32 ∧ w ≠ 1#32 ∧ h = .err .domain i := by
  simp only [State.fetchBit, bind_eq_error, fetchElem_eq_ok, fetchElem_eq_error, failIf_eq_ok, failIf_eq_error,
    State.buf_inB, reduceCtorEq, and_false, exists_false, or_false, Bool.and_eq_true, bne_iff_ne, and_assoc]

/-- An element reads as a level exactly when it is written and in the alphabet. -/
theorem fetchLevel_eq_ok {s : State} {al : List Int} {i : Nat} {x : Int} :
    s.fetchLevel al i = .ok x ↔ ∃ w, s.inBuf.read i = some w ∧ w.toInt = x ∧ x ∈ al := by
  simp only [State.fetchLevel, bind_eq_ok, fetchElem_eq_ok, failIf_eq_ok, State.buf_inB, Bool.not_eq_false',
    List.contains_iff_mem, Except.ok.injEq, sint_eq]
  constructor
  · rintro ⟨w, hw, -, hm, rfl⟩
    exact ⟨w, hw, rfl, hm⟩
  · rintro ⟨w, hw, rfl, hm⟩
    exact ⟨w, hw, (), hm, rfl⟩

theorem fetchLevel_eq_error {s : State} {al : List Int} {i : Nat} {h : Halt} :
    s.fetchLevel al i = .error h ↔
      (s.inBuf.read i = none ∧ h = .unwritten (.elem .inB i)) ∨
      ∃ w, s.inBuf.read i = some w ∧ w.toInt ∉ al ∧ h = .err .domain i := by
  simp only [State.fetchLevel, bind_eq_error, fetchElem_eq_ok, fetchElem_eq_error, failIf_eq_error,
    State.buf_inB, reduceCtorEq, and_false, exists_false, or_false, Bool.not_eq_true', sint_eq]
  simp

/-- An element reads as a number exactly when it is written and NUM_FMT decodes it. -/
theorem fetchNum_eq_ok {F : NumFmt Num} {s : State} {b : Buf} {i : Nat} {x : Num} :
    s.fetchNum F b i = .ok x ↔ ∃ w, (s.buf b).read i = some w ∧ F.num w = some x := by
  simp only [State.fetchNum, bind_eq_ok, fetchElem_eq_ok]
  refine exists_congr fun w => and_congr_right fun _ => ?_
  cases F.num w <;> simp

theorem fetchNum_eq_error {F : NumFmt Num} {s : State} {b : Buf} {i : Nat} {h : Halt} :
    s.fetchNum F b i = .error h ↔
      ((s.buf b).read i = none ∧ h = .unwritten (.elem b i)) ∨
      ∃ w, (s.buf b).read i = some w ∧ F.num w = none ∧ h = .err .domain i := by
  simp only [State.fetchNum, bind_eq_error, fetchElem_eq_ok, fetchElem_eq_error]
  refine or_congr_right (exists_congr fun w => and_congr_right fun _ => ?_)
  cases F.num w <;> simp [eq_comm]

theorem fetchRegNum_eq_ok {F : NumFmt Num} {s : State} {r : Reg} {x : Num} :
    s.fetchRegNum F r = .ok x ↔ ∃ w, s.regRead r = some w ∧ F.num w = some x := by
  simp only [State.fetchRegNum, bind_eq_ok, fetchReg_eq_ok]
  refine exists_congr fun w => and_congr_right fun _ => ?_
  cases F.num w <;> simp

theorem fetchRegNum_eq_error {F : NumFmt Num} {s : State} {r : Reg} {h : Halt} :
    s.fetchRegNum F r = .error h ↔
      (s.regRead r = none ∧ h = .unwritten (.reg r)) ∨
      ∃ w, s.regRead r = some w ∧ F.num w = none ∧ h = .err .config 0 := by
  simp only [State.fetchRegNum, bind_eq_error, fetchReg_eq_ok, fetchReg_eq_error]
  refine or_congr_right (exists_congr fun w => and_congr_right fun _ => ?_)
  cases F.num w <;> simp [eq_comm]

theorem fetchSymbol_eq_ok {s : State} {c : Modem Num} {j : Nat} {p : Num} :
    s.fetchSymbol c j = .ok p ↔ ∃ w, s.inBuf.read j = some w ∧ c.parOf w.toInt = some p := by
  simp only [State.fetchSymbol, bind_eq_ok, fetchElem_eq_ok, State.buf_inB, sint_eq]
  refine exists_congr fun w => and_congr_right fun _ => ?_
  cases c.parOf w.toInt <;> simp

theorem fetchSymbol_eq_error {s : State} {c : Modem Num} {j : Nat} {h : Halt} :
    s.fetchSymbol c j = .error h ↔
      (s.inBuf.read j = none ∧ h = .unwritten (.elem .inB j)) ∨
      ∃ w, s.inBuf.read j = some w ∧ c.parOf w.toInt = none ∧ h = .err .alphabet j := by
  simp only [State.fetchSymbol, bind_eq_error, fetchElem_eq_ok, fetchElem_eq_error, State.buf_inB, sint_eq]
  refine or_congr_right (exists_congr fun w => and_congr_right fun _ => ?_)
  cases c.parOf w.toInt <;> simp [eq_comm]

/-! ### The configuration check -/

/-- The adjacent test is the strict order of the whole list. -/
theorem ascending_iff : ∀ l : List Int, ascending l = true ↔ l.Pairwise (· < ·)
  | [] => by simp [ascending]
  | [a] => by simp [ascending]
  | a :: b :: l => by
    rw [ascending, Bool.and_eq_true, decide_eq_true_eq, ascending_iff (b :: l), List.pairwise_cons (a := a)]
    constructor
    · rintro ⟨hab, hl⟩
      refine ⟨fun c hc => ?_, hl⟩
      rcases List.mem_cons.1 hc with rfl | hc
      · exact hab
      · exact hab.trans ((List.pairwise_cons.1 hl).1 c hc)
    · rintro ⟨ha, hl⟩
      exact ⟨ha b (by simp), hl⟩

theorem entry_eq (i : Nat) : entry i = Fin.ofNat 3 i := rfl

theorem modLevels_eq_ok {s : State} {lvl : List Int} :
    s.modLevels = .ok lvl ↔
      (s.modCfg.k = 2#2 ∨ s.modCfg.k = 3#2) ∧ lvl.length = s.modCfg.k.toNat ∧
      (∀ i (h : i < lvl.length), ∃ w, s.lvl.get (entry i) = some w ∧ w.toInt = lvl[i]) ∧ lvl.Pairwise (· < ·) := by
  simp only [State.modLevels, bind_eq_ok, failIf_eq_ok, collect_eq_ok, fetchReg_eq_ok, State.regRead_modLvl,
    Except.ok.injEq, Bool.not_eq_false', ascending_iff, Bool.and_eq_false_iff, bne_eq_false_iff_eq, Nat.zero_add,
    sint_eq]
  constructor
  · rintro ⟨-, hk, l, ⟨hl, hw⟩, -, ha, rfl⟩
    exact ⟨hk, hl, hw, ha⟩
  · rintro ⟨hk, hl, hw, ha⟩
    exact ⟨(), hk, lvl, ⟨hl, hw⟩, (), ha, rfl⟩

/-- The carrier a variant selects, with its numbers taken from the registers. -/
def CarrierIs (F : NumFmt Num) (s : State) (c : Carrier Num) : Prop :=
  match s.modCfg.variant, c with
  | .dflt, .dflt => True
  | .ask, .ask f => ∃ w, s.modFreq.read = some w ∧ F.num w = some f
  | .fsk, .fsk a => ∃ w, s.modAmp.read = some w ∧ F.num w = some a
  | .psk, .psk f a => (∃ w, s.modFreq.read = some w ∧ F.num w = some f) ∧ ∃ w, s.modAmp.read = some w ∧ F.num w = some a
  | _, _ => False

theorem modParams_eq_ok {F : NumFmt Num} {s : State} {par : List Num} {c : Carrier Num} :
    s.modParams F = .ok (par, c) ↔
      par.length = s.modCfg.k.toNat ∧
      (∀ i (h : i < par.length), ∃ w, s.par.get (entry i) = some w ∧ F.num w = some par[i]) ∧ CarrierIs F s c := by
  simp only [State.modParams, bind_eq_ok, collect_eq_ok, fetchRegNum_eq_ok, State.regRead_modPar, Nat.zero_add]
  cases hv : s.modCfg.variant <;> cases c <;>
    simp [CarrierIs, hv, bind_eq_ok, fetchRegNum_eq_ok, and_assoc]

theorem modConfig_eq_ok {F : NumFmt Num} {s : State} {c : Modem Num} :
    s.modConfig F = .ok c ↔ s.modLevels = .ok c.lvl ∧ s.modParams F = .ok (c.par, c.carrier) := by
  simp only [State.modConfig, bind_eq_ok, Except.ok.injEq]
  constructor
  · rintro ⟨l, hl, p, hp, rfl⟩; exact ⟨hl, hp⟩
  · rintro ⟨hl, hp⟩; exact ⟨_, hl, _, hp, rfl⟩

theorem modSamples_eq_ok {s : State} {n : Nat} : s.modSamples = .ok n ↔ uint s.modSps = n ∧ n ≠ 0 := by
  simp only [State.modSamples, bind_eq_ok, failIf_eq_ok, Except.ok.injEq, beq_eq_false_iff_ne]
  constructor
  · rintro ⟨-, h, rfl⟩; exact ⟨rfl, h⟩
  · rintro ⟨rfl, h⟩; exact ⟨(), h, rfl⟩

theorem modConfigS_eq_ok {F : NumFmt Num} {s : State} {c : Modem Num} {n : Nat} :
    s.modConfigS F = .ok (c, n) ↔ s.modConfig F = .ok c ∧ s.modSamples = .ok n := by
  simp only [State.modConfigS, bind_eq_ok, Except.ok.injEq, Prod.mk.injEq]
  constructor
  · rintro ⟨_, hl, _, hp, rfl, rfl⟩; exact ⟨hl, hp⟩
  · rintro ⟨hl, hp⟩; exact ⟨_, hl, _, hp, rfl, rfl⟩

/-- A checked configuration has two or three levels, as many parameters, and its levels ascend. -/
theorem modConfig_shape {F : NumFmt Num} {s : State} {c : Modem Num} (h : s.modConfig F = .ok c) :
    c.lvl.length = s.modCfg.k.toNat ∧ (c.lvl.length = 2 ∨ c.lvl.length = 3) ∧ c.par.length = c.lvl.length ∧
      c.lvl.Pairwise (· < ·) := by
  obtain ⟨hl, hp⟩ := modConfig_eq_ok.1 h
  obtain ⟨hk, hn, -, ha⟩ := modLevels_eq_ok.1 hl
  obtain ⟨hn', -, -⟩ := modParams_eq_ok.1 hp
  refine ⟨hn, ?_, hn'.trans hn.symm, ha⟩
  rcases hk with hk | hk <;> rw [hk] at hn
  · exact .inl hn
  · exact .inr hn

/-! ### Table lookup -/

theorem levelIndex_eq_none {lvl : List Int} {l : Int} : levelIndex lvl l = none ↔ l ∉ lvl := by
  simp [levelIndex, List.findIdx?_eq_none_iff]
  constructor
  · intro h hl; exact h l hl rfl
  · rintro h x hx rfl; exact h hx

/-- In a table of ascending levels, the index of a level is the one it stands at. -/
theorem levelIndex_eq_some {lvl : List Int} (h : lvl.Pairwise (· < ·)) {l : Int} {i : Nat} :
    levelIndex lvl l = some i ↔ lvl[i]? = some l := by
  rw [levelIndex, List.findIdx?_eq_some_iff_getElem]
  constructor
  · rintro ⟨hi, hl, -⟩
    rw [List.getElem?_eq_getElem hi]
    simpa using hl
  · intro hl
    obtain ⟨hi, rfl⟩ := List.getElem?_eq_some_iff.1 hl
    refine ⟨hi, by simp, fun j hj => ?_⟩
    have := List.pairwise_iff_getElem.1 h j i (hj.trans hi) hi hj
    simp
    omega

theorem parOf_eq_some {c : Modem Num} (h : c.lvl.Pairwise (· < ·)) {l : Int} {p : Num} :
    c.parOf l = some p ↔ ∃ i : Nat, c.lvl[i]? = some l ∧ c.par[i]? = some p := by
  simp [Modem.parOf, Option.bind_eq_some_iff, levelIndex_eq_some h]

theorem parOf_eq_none {c : Modem Num} (h : c.lvl.Pairwise (· < ·)) (hn : c.par.length = c.lvl.length) {l : Int} :
    c.parOf l = none ↔ l ∉ c.lvl := by
  rw [← levelIndex_eq_none]
  cases hi : levelIndex c.lvl l with
  | none => simp [Modem.parOf, hi]
  | some i =>
    obtain ⟨hlt, -⟩ := List.getElem?_eq_some_iff.1 ((levelIndex_eq_some h).1 hi)
    simp [Modem.parOf, hi]
    omega

end Sys2Proof.Machine
end

