-- ==== Sys2Proof/Laws/LineCode.lean ====
section
/-! SUPPORT. What the three line-code frames and the seven codes do, once each. -/

namespace Sys2Proof.Machine

theorem multOf_pos (v : LineCode) : 0 < multOf v := by cases v <;> decide

theorem multOf_eq (v : LineCode) : multOf v = 1 ∨ multOf v = 2 := by cases v <;> decide

/-! ### The frames -/

/-- An ENCODE succeeds exactly when the lengths fit and every element is a bit. -/
theorem encodeFrame_eq_ok {v : LineCode} {code : List Bool → List Int × Option Int} {s : State} {r : Result} :
    encodeFrame v code s = .ok r ↔
      uint s.inLen ≤ s.cfg.capIn ∧ multOf v * uint s.inLen ≤ s.cfg.capOut ∧
      ∃ b : List Bool, b.length = uint s.inLen ∧
        (∀ i (h : i < b.length), s.inBuf.read i = some (if b[i] then 1#32 else 0#32)) ∧
        r = { out := (code b).1.map word, tout := none, estate := (code b).2 } := by
  simp only [encodeFrame, bind_eq_ok, failIf_eq_ok, collect_eq_ok, fetchBit_eq_ok, decide_eq_false_iff_not, not_lt,
    gt_iff_lt, Nat.zero_add, Except.ok.injEq]
  constructor
  · rintro ⟨-, h1, -, h2, b, ⟨hl, hb⟩, rfl⟩; exact ⟨h1, h2, b, hl, hb, rfl⟩
  · rintro ⟨h1, h2, b, hl, hb, rfl⟩; exact ⟨(), h1, (), h2, b, ⟨hl, hb⟩, rfl⟩

/-- How an ENCODE halts: a length that does not fit, or the first element that is no bit. -/
theorem encodeFrame_eq_error {v : LineCode} {code : List Bool → List Int × Option Int} {s : State} {h : Halt} :
    encodeFrame v code s = .error h ↔
      s.cfg.capIn < uint s.inLen ∧ h = .err .capacity 0 ∨
      uint s.inLen ≤ s.cfg.capIn ∧ s.cfg.capOut < multOf v * uint s.inLen ∧ h = .err .capacity 0 ∨
      uint s.inLen ≤ s.cfg.capIn ∧ multOf v * uint s.inLen ≤ s.cfg.capOut ∧
        ∃ k, k < uint s.inLen ∧ s.fetchBit k = .error h ∧ ∀ j, j < k → ∃ b, s.fetchBit j = .ok b := by
  simp only [encodeFrame, bind_eq_error, failIf_eq_ok, failIf_eq_error, collect_eq_error, decide_eq_false_iff_not,
    not_lt, gt_iff_lt, Nat.zero_add, decide_eq_true_eq, reduceCtorEq, and_false, exists_false, or_false,
    exists_const]
  constructor
  · rintro (⟨h1, h⟩ | ⟨h1, ⟨h2, h⟩ | ⟨h2, h3⟩⟩)
    · exact .inl ⟨h1, h⟩
    · exact .inr (.inl ⟨h1, h2, h⟩)
    · exact .inr (.inr ⟨h1, h2, h3⟩)
  · rintro (⟨h1, h⟩ | ⟨h1, h2, h⟩ | ⟨h1, h2, h3⟩)
    · exact .inl ⟨h1, h⟩
    · exact .inr ⟨h1, .inl ⟨h2, h⟩⟩
    · exact .inr ⟨h1, .inr ⟨h2, h3⟩⟩

/-- A DECODE succeeds exactly when the lengths fit, the length has the code's shape and every element is a level. -/
theorem decodeFrame_eq_ok {v : LineCode} {code : List Int → List Bool × Option Int} {s : State} {r : Result} :
    decodeFrame v code s = .ok r ↔
      uint s.inLen ≤ s.cfg.capIn ∧ uint s.inLen % multOf v = 0 ∧ uint s.inLen / multOf v ≤ s.cfg.capOut ∧
      ∃ l : List Int, l.length = uint s.inLen ∧
        (∀ i (h : i < l.length), s.fetchLevel (levelsOf v) i = .ok l[i]) ∧
        r = { out := (code l).1.map bitWord, tout := none, estate := (code l).2 } := by
  have hm : ((multOf v == 2 && uint s.inLen % 2 != 0) = false) ↔ uint s.inLen % multOf v = 0 := by
    rcases multOf_eq v with h | h <;> simp [h, Nat.mod_one]
  simp only [decodeFrame, bind_eq_ok, failIf_eq_ok, collect_eq_ok, decide_eq_false_iff_not, not_lt,
    gt_iff_lt, Nat.zero_add, Except.ok.injEq, hm]
  constructor
  · rintro ⟨-, h1, -, h2, -, h3, b, ⟨hl, hb⟩, rfl⟩; exact ⟨h1, h2, h3, b, hl, hb, rfl⟩
  · rintro ⟨h1, h2, h3, b, hl, hb, rfl⟩; exact ⟨(), h1, (), h2, (), h3, b, ⟨hl, hb⟩, rfl⟩

/-- How a DECODE halts. -/
theorem decodeFrame_eq_error {v : LineCode} {code : List Int → List Bool × Option Int} {s : State} {h : Halt} :
    decodeFrame v code s = .error h ↔
      s.cfg.capIn < uint s.inLen ∧ h = .err .capacity 0 ∨
      uint s.inLen ≤ s.cfg.capIn ∧ uint s.inLen % multOf v ≠ 0 ∧ h = .err .shape 0 ∨
      uint s.inLen ≤ s.cfg.capIn ∧ uint s.inLen % multOf v = 0 ∧ s.cfg.capOut < uint s.inLen / multOf v ∧
        h = .err .capacity 0 ∨
      uint s.inLen ≤ s.cfg.capIn ∧ uint s.inLen % multOf v = 0 ∧ uint s.inLen / multOf v ≤ s.cfg.capOut ∧
        ∃ k, k < uint s.inLen ∧ s.fetchLevel (levelsOf v) k = .error h ∧
          ∀ j, j < k → ∃ x, s.fetchLevel (levelsOf v) j = .ok x := by
  have hm : ((multOf v == 2 && uint s.inLen % 2 != 0) = false) ↔ uint s.inLen % multOf v = 0 := by
    rcases multOf_eq v with h | h <;> simp [h, Nat.mod_one]
  have hm' : ((multOf v == 2 && uint s.inLen % 2 != 0) = true) ↔ uint s.inLen % multOf v ≠ 0 := by
    rw [← not_iff_not, Bool.not_eq_true, hm, not_not]
  simp only [decodeFrame, bind_eq_error, failIf_eq_ok, failIf_eq_error, collect_eq_error, decide_eq_false_iff_not,
    not_lt, gt_iff_lt, Nat.zero_add, decide_eq_true_eq, reduceCtorEq, and_false, exists_false, or_false, exists_const,
    hm, hm']
  constructor
  · rintro (⟨h1, h⟩ | ⟨h1, ⟨h2, h⟩ | ⟨h2, ⟨h3, h⟩ | ⟨h3, h4⟩⟩⟩)
    · exact .inl ⟨h1, h⟩
    · exact .inr (.inl ⟨h1, h2, h⟩)
    · exact .inr (.inr (.inl ⟨h1, h2, h3, h⟩))
    · exact .inr (.inr (.inr ⟨h1, h2, h3, h4⟩))
  · rintro (⟨h1, h⟩ | ⟨h1, h2, h⟩ | ⟨h1, h2, h3, h⟩ | ⟨h1, h2, h3, h4⟩)
    · exact .inl ⟨h1, h⟩
    · exact .inr ⟨h1, .inl ⟨h2, h⟩⟩
    · exact .inr ⟨h1, .inr ⟨h2, .inl ⟨h3, h⟩⟩⟩
    · exact .inr ⟨h1, .inr ⟨h2, .inr ⟨h3, h4⟩⟩⟩

@[simp] theorem levelsFrame_eq (v : LineCode) :
    levelsFrame v = .ok { out := (levelsOf v).map word, tout := none, estate := none } := rfl

/-- An ENCODE reads no register that can be unwritten. -/
theorem finish_encodeFrame (v : LineCode) (code : List Bool → List Int × Option Int) (s : State) :
    finish s (encodeFrame v code) = conclude s none (encodeFrame v code s) := by
  refine finish_of_written (Option.eq_none_iff_forall_ne_some.2 fun r hr => ?_)
  rcases encodeFrame_eq_error.1 (unwrittenRegister_eq_some.1 hr) with ⟨-, h⟩ | ⟨-, -, h⟩ | ⟨-, -, k, -, h, -⟩
  · cases h
  · cases h
  · rcases fetchBit_eq_error.1 h with ⟨-, h⟩ | ⟨w, -, -, -, h⟩ <;> cases h

/-- A DECODE reads no register that can be unwritten. -/
theorem finish_decodeFrame (v : LineCode) (code : List Int → List Bool × Option Int) (s : State) :
    finish s (decodeFrame v code) = conclude s none (decodeFrame v code s) := by
  refine finish_of_written (Option.eq_none_iff_forall_ne_some.2 fun r hr => ?_)
  rcases decodeFrame_eq_error.1 (unwrittenRegister_eq_some.1 hr) with ⟨-, h⟩ | ⟨-, -, h⟩ | ⟨-, -, -, h⟩ |
    ⟨-, -, -, k, -, h, -⟩
  · cases h
  · cases h
  · cases h
  · rcases fetchLevel_eq_error.1 h with ⟨-, h⟩ | ⟨w, -, -, h⟩ <;> cases h

/-- ELEVELS reads nothing. -/
theorem finish_levelsFrame (v : LineCode) (s : State) :
    finish s (fun _ => levelsFrame v) =
      .next (s.succeed { out := (levelsOf v).map word, tout := none, estate := none }) := rfl

/-! ### The fold -/

@[simp] theorem emit_nil {α β : Type} (f : Int → α → Int × List β) (e : Int) : emit f e [] = ([], e) := rfl

@[simp] theorem emit_cons {α β : Type} (f : Int → α → Int × List β) (e : Int) (a : α) (l : List α) :
    emit f e (a :: l) = ((f e a).2 ++ (emit f (f e a).1 l).1, (emit f (f e a).1 l).2) := rfl

/-- A fold whose every turn emits `m` elements emits `m` times as many as its input has. -/
theorem emit_length {α β : Type} {f : Int → α → Int × List β} {m : Nat} (h : ∀ e a, (f e a).2.length = m)
    (l : List α) : ∀ e, (emit f e l).1.length = m * l.length := by
  induction l with
  | nil => intro e; simp
  | cons a l ih => intro e; simp [h, ih, Nat.mul_add, Nat.add_comm]

/-- A property of the state that every turn keeps holds of the last state. -/
theorem emit_last {α β : Type} {f : Int → α → Int × List β} {p : Int → Prop} (h : ∀ e a, p e → p (f e a).1)
    (l : List α) : ∀ e, p e → p (emit f e l).2 := by
  induction l with
  | nil => intro e he; exact he
  | cons a l ih => intro e he; exact ih _ (h e a he)

/-- A property of the state and of what each turn emits under it holds of everything emitted. -/
theorem emit_all {α β : Type} {f : Int → α → Int × List β} {p : Int → Prop} {q : β → Prop}
    (h : ∀ e a, p e → p (f e a).1 ∧ ∀ x ∈ (f e a).2, q x) (l : List α) :
    ∀ e, p e → ∀ x ∈ (emit f e l).1, q x := by
  induction l with
  | nil => intro e _ x hx; simp at hx
  | cons a l ih =>
    intro e he x hx
    rcases List.mem_append.1 hx with hx | hx
    · exact (h e a he).2 x hx
    · exact ih _ (h e a he).1 x hx

/-! ### The codes: lengths -/

@[simp] theorem encodeNrz_length (b : List Bool) : (encodeNrz b).length = b.length := by simp [encodeNrz]
@[simp] theorem encodeNrzl_length (b : List Bool) : (encodeNrzl b).length = b.length := by simp [encodeNrzl]
@[simp] theorem encodeNrzi_length (b : List Bool) : (encodeNrzi b).1.length = b.length := by
  rw [encodeNrzi, emit_length (m := 1) fun e x => by cases x <;> rfl, Nat.one_mul]
@[simp] theorem encodeAmi_length (b : List Bool) : (encodeAmi b).1.length = b.length := by
  rw [encodeAmi, emit_length (m := 1) fun e x => by cases x <;> rfl, Nat.one_mul]
@[simp] theorem encodePst_length (b : List Bool) : (encodePst b).1.length = b.length := by
  rw [encodePst, emit_length (m := 1) fun e x => by cases x <;> rfl, Nat.one_mul]
@[simp] theorem encodeMan_length (b : List Bool) : (encodeMan b).length = 2 * b.length := by
  induction b with
  | nil => rfl
  | cons x b ih => cases x <;> simp_all [encodeMan] <;> omega
@[simp] theorem encodeDman_length (i : Polarity) (b : List Bool) : (encodeDman i b).1.length = 2 * b.length := by
  rw [encodeDman, emit_length (m := 2) fun e x => by rfl]

@[simp] theorem pairs_length {α : Type} : ∀ l : List α, (pairs l).length = l.length / 2
  | [] => by simp [pairs]
  | [_] => by simp [pairs]
  | _ :: _ :: l => by
    rw [pairs, List.length_cons, pairs_length l, List.length_cons, List.length_cons]
    omega

/-- A pair holds two elements of the list. -/
theorem mem_of_mem_pairs {α : Type} : ∀ {l : List α} {p : α × α}, p ∈ pairs l → p.1 ∈ l ∧ p.2 ∈ l
  | [], _, h => by simp [pairs] at h
  | [_], _, h => by simp [pairs] at h
  | a :: b :: l, p, h => by
    rcases List.mem_cons.1 h with rfl | h
    · simp
    · have := mem_of_mem_pairs h
      simp [this]

@[simp] theorem decodeNrz_length (l : List Int) : (decodeNrz l).length = l.length := by simp [decodeNrz]
@[simp] theorem decodeNrzl_length (l : List Int) : (decodeNrzl l).length = l.length := by simp [decodeNrzl]
@[simp] theorem decodeNrzi_length (l : List Int) : (decodeNrzi l).1.length = l.length := by
  rw [decodeNrzi, emit_length (m := 1) fun e x => by rfl, Nat.one_mul]
@[simp] theorem decodeAmi_length (l : List Int) : (decodeAmi l).length = l.length := by cases l <;> simp [decodeAmi]
@[simp] theorem decodePst_length (l : List Int) : (decodePst l).length = l.length := by cases l <;> simp [decodePst]
@[simp] theorem decodeMan_length (l : List Int) : (decodeMan l).length = l.length / 2 := by simp [decodeMan]
@[simp] theorem decodeDman_length (i : Polarity) (l : List Int) : (decodeDman i l).1.length = l.length / 2 := by
  rw [decodeDman, emit_length (m := 1) fun e x => by rfl, Nat.one_mul, pairs_length]

/-! ### The codes: ESTATE stays a level -/

/-- −1 or +1. -/
def IsSign (e : Int) : Prop := e = -1 ∨ e = 1

theorem IsSign.neg {e : Int} (h : IsSign e) : IsSign (-e) := by
  rcases h with rfl | rfl
  · exact .inr rfl
  · exact .inl rfl

theorem isSign_level (i : Polarity) : IsSign i.level := by cases i <;> simp [IsSign, Polarity.level]

theorem isSign_of_mem {x : Int} (h : x ∈ ([-1, 1] : List Int)) : IsSign x := by simpa [IsSign] using h

theorem encodeNrzi_estate (b : List Bool) : IsSign (encodeNrzi b).2 :=
  emit_last (fun e x he => by cases x <;> first | exact he | exact he.neg) b _ (.inl rfl)
theorem encodeAmi_estate (b : List Bool) : IsSign (encodeAmi b).2 :=
  emit_last (fun e x he => by cases x <;> first | exact he | exact he.neg) b _ (.inl rfl)
theorem encodePst_estate (b : List Bool) : IsSign (encodePst b).2 :=
  emit_last (fun e x he => by cases x <;> first | exact he | exact he.neg) b _ (.inl rfl)
theorem encodeDman_estate (i : Polarity) (b : List Bool) : IsSign (encodeDman i b).2 :=
  emit_last (fun e x he => by cases x <;> simp [he, he.neg]) b _ (isSign_level i)

/-- The last state of a fold that takes its state from the input is a sign when the input's are. -/
theorem emit_last_mem {α β : Type} {g : α → Int} {o : Int → α → List β} (l : List α) :
    ∀ e, IsSign e → (∀ a ∈ l, IsSign (g a)) → IsSign (emit (fun e a => (g a, o e a)) e l).2 := by
  induction l with
  | nil => intro e he _; exact he
  | cons a l ih => intro e _ h; exact ih _ (h a (by simp)) fun x hx => h x (by simp [hx])

theorem decodeNrzi_estate {l : List Int} (h : ∀ x ∈ l, IsSign x) : IsSign (decodeNrzi l).2 :=
  emit_last_mem (g := id) (o := fun e x => [x != e]) l _ (.inl rfl) h
theorem decodeDman_estate (i : Polarity) {l : List Int} (h : ∀ x ∈ l, IsSign x) : IsSign (decodeDman i l).2 :=
  emit_last_mem (g := Prod.snd) (o := fun e p => [p.1 != e]) (pairs l) _ (isSign_level i)
    fun _ hp => h _ (mem_of_mem_pairs hp).2

/-! ### The codes: what they emit is in the alphabet -/

theorem encodeNrz_mem {b : List Bool} {x : Int} (h : x ∈ encodeNrz b) : IsSign x := by
  obtain ⟨y, -, rfl⟩ := List.mem_map.1 h
  cases y <;> simp [IsSign]
theorem encodeNrzl_mem {b : List Bool} {x : Int} (h : x ∈ encodeNrzl b) : IsSign x := by
  obtain ⟨y, -, rfl⟩ := List.mem_map.1 h
  cases y <;> simp [IsSign]
theorem encodeNrzi_mem {b : List Bool} {x : Int} (h : x ∈ (encodeNrzi b).1) : IsSign x :=
  emit_all (p := IsSign) (q := IsSign) (fun e y he => by cases y <;> simp [he, he.neg]) b _ (.inl rfl) x h
theorem encodeAmi_mem {b : List Bool} {x : Int} (h : x ∈ (encodeAmi b).1) : IsSign x ∨ x = 0 :=
  emit_all (p := IsSign) (q := fun x => IsSign x ∨ x = 0) (fun e y he => by cases y <;> simp [he, he.neg]) b _
    (.inl rfl) x h
theorem encodePst_mem {b : List Bool} {x : Int} (h : x ∈ (encodePst b).1) : IsSign x ∨ x = 0 :=
  emit_all (p := IsSign) (q := fun x => IsSign x ∨ x = 0) (fun e y he => by cases y <;> simp [he, he.neg]) b _
    (.inl rfl) x h
theorem encodeMan_mem {b : List Bool} {x : Int} (h : x ∈ encodeMan b) : IsSign x := by
  obtain ⟨y, -, hx⟩ := List.mem_flatMap.1 h
  cases y <;> simp at hx <;> rcases hx with rfl | rfl <;> simp [IsSign]
theorem encodeDman_mem {i : Polarity} {b : List Bool} {x : Int} (h : x ∈ (encodeDman i b).1) : IsSign x :=
  emit_all (p := IsSign) (q := IsSign) (fun e y he => by cases y <;> simp [he, he.neg]) b _ (isSign_level i) x h

end Sys2Proof.Machine
end

