-- ==== Sys2Proof/Laws/Modulation.lean ====
section
/-! SUPPORT. What the parts and the bodies of the modulation commands do, once each. -/

namespace Sys2Proof.Machine

variable {Num : Type}

/-! ### The grid and the signal -/

@[simp] theorem grid_length (F : NumFmt Num) (g : GridEndpoint) (n : Nat) (d : Num) : (grid F g n d).length = n := by
  cases g
  · simp [grid]
  · simp only [grid]
    split
    · simp [*]
    · simp

/-- Point k of the grid. -/
theorem grid_getElem? (F : NumFmt Num) (g : GridEndpoint) (n : Nat) (d : Num) {k : Nat} (h : k < n) :
    (grid F g n d)[k]? = some (match g with
      | .excl => F.div (F.mul (F.ofInt k) d) (F.ofInt n)
      | .incl => if n = 1 then F.ofInt 0 else F.div (F.mul (F.ofInt k) d) (F.ofInt ((n : Int) - 1))) := by
  cases g
  · simp [grid, h]
  · by_cases hn : n = 1
    · subst hn
      obtain rfl : k = 0 := by omega
      simp [grid]
    · simp [grid, hn, h]

@[simp] theorem signal_length (F : NumFmt Num) (c : Modem Num) (ts : List Num) :
    (signal F c ts).length = c.par.length := by simp [signal]

/-- A list of rows of one length, flattened, is row-major. -/
theorem flatten_length_of_rows {α : Type} {n : Nat} : ∀ {ls : List (List α)}, (∀ l ∈ ls, l.length = n) →
    ls.flatten.length = ls.length * n
  | [], _ => by simp
  | l :: ls, h => by
    have ih := flatten_length_of_rows fun l' hl => h l' (List.mem_cons_of_mem l hl)
    rw [List.flatten_cons, List.length_append, h l (by simp), ih, List.length_cons]
    ring

theorem flatten_getElem?_of_rows {α : Type} {n : Nat} : ∀ {ls : List (List α)}, (∀ l ∈ ls, l.length = n) →
    ∀ {i k : Nat}, k < n → ls.flatten[i * n + k]? = (ls[i]?).bind fun l => l[k]?
  | [], _, i, k, _ => by simp
  | l :: ls, h, 0, k, hk => by
    have := h l (by simp)
    simp [List.getElem?_append_left, this, hk]
  | l :: ls, h, i + 1, k, hk => by
    have hl := h l (by simp)
    rw [List.flatten_cons, List.getElem?_append_right (by rw [hl]; nlinarith),
      show (i + 1) * n + k - l.length = i * n + k by rw [hl, Nat.add_mul]; omega,
      flatten_getElem?_of_rows (fun l hl => h l (by simp [hl])) hk]
    simp

/-- Value k of entry i of SIGNAL's output. -/
theorem signal_flatten_getElem? (F : NumFmt Num) (c : Modem Num) (ts : List Num) {i k : Nat} (hi : i < c.par.length)
    (hk : k < ts.length) : (signal F c ts).flatten[i * ts.length + k]? = some (refAt F c.carrier c.par[i] ts[k]) := by
  rw [flatten_getElem?_of_rows (n := ts.length) (by simp [signal]) hk]
  simp [signal, hi, hk]

theorem signal_flatten_length (F : NumFmt Num) (c : Modem Num) (ts : List Num) :
    (signal F c ts).flatten.length = c.par.length * ts.length := by
  rw [flatten_length_of_rows (n := ts.length) (by simp [signal]), signal_length]

/-! ### Repetition and groups -/

@[simp] theorem repeatEach_length {α : Type} (n : Nat) (l : List α) : (repeatEach n l).length = n * l.length := by
  induction l with
  | nil => simp [repeatEach]
  | cons a l ih =>
    have : repeatEach n (a :: l) = List.replicate n a ++ repeatEach n l := rfl
    simp [this, ih, Nat.mul_add, Nat.add_comm]

/-- Element k of the repetition is element k div n of the list. -/
theorem repeatEach_getElem? {α : Type} (n : Nat) (l : List α) {k : Nat} (h : k < n * l.length) :
    (repeatEach n l)[k]? = l[k / n]? := by
  have hn : 0 < n := by
    rcases Nat.eq_zero_or_pos n with rfl | hn
    · simp at h
    · exact hn
  induction l generalizing k with
  | nil => simp at h
  | cons a l ih =>
    have he : repeatEach n (a :: l) = List.replicate n a ++ repeatEach n l := rfl
    rw [he]
    by_cases hk : k < n
    · rw [List.getElem?_append_left (by simpa using hk), Nat.div_eq_of_lt hk]
      simp [hk]
    · rw [List.getElem?_append_right (by simpa using hk), List.length_replicate, ih (by
        simp only [List.length_cons, Nat.mul_add, Nat.mul_one] at h
        omega)]
      obtain ⟨m, rfl⟩ : ∃ m, k = n + m := ⟨k - n, by omega⟩
      rw [Nat.add_sub_cancel_left, Nat.add_div_left _ hn]
      simp

@[simp] theorem groups_length {α : Type} (size : Nat) : ∀ (count : Nat) (l : List α), (groups size count l).length = count
  | 0, _ => rfl
  | count + 1, l => by simp [groups, groups_length size count]

/-- Group j holds the elements from j times the size on. -/
theorem groups_getElem {α : Type} (size : Nat) : ∀ (count : Nat) (l : List α) (j : Nat)
    (h : j < (groups size count l).length), (groups size count l)[j] = (l.drop (j * size)).take size
  | 0, _, _, h => by simp [groups] at h
  | count + 1, l, 0, _ => by simp [groups]
  | count + 1, l, j + 1, h => by
    have := groups_getElem size count (l.drop size) j (by simpa [groups] using h)
    simp only [groups, List.getElem_cons_succ, this, List.drop_drop]
    congr 2
    ring

/-! ### Classification -/

theorem argminFrom_lt (F : NumFmt Num) : ∀ (ds : List Num) (best : Num) (bi i n : Nat), bi < i → i + ds.length ≤ n →
    argminFrom F best bi i ds < n
  | [], _, _, _, _, hb, hn => by simp [argminFrom] at *; omega
  | d :: ds, best, bi, i, n, hb, hn => by
    simp only [argminFrom, List.length_cons] at *
    split
    · exact argminFrom_lt F ds d i (i + 1) n (by omega) (by omega)
    · exact argminFrom_lt F ds best bi (i + 1) n (by omega) (by omega)

/-- The least index is one of the list's. -/
theorem argmin_lt (F : NumFmt Num) {ds : List Num} (h : ds ≠ []) : argmin F ds < ds.length := by
  cases ds with
  | nil => exact absurd rfl h
  | cons d ds => exact argminFrom_lt F ds d 0 1 _ (by omega) (by simp; omega)

theorem nearest_lt (F : NumFmt Num) {refs : List Num} (h : refs ≠ []) (x : Num) : nearest F refs x < refs.length := by
  have := argmin_lt F (ds := refs.map fun r => F.abs (F.sub x r)) (by simpa using h)
  simpa [nearest] using this

/-- A classified index is a table index (41_modulation R220). -/
theorem classify_lt (F : NumFmt Num) {c : Modem Num} (h : c.par ≠ []) (x t : Num) : classify F c x t < c.par.length := by
  have := nearest_lt F (refs := c.par.map fun p => refAt F c.carrier p t) (by simpa using h) x
  simpa [classify] using this

@[simp] theorem arefs_length (c : Modem Num) : c.arefs.length = c.par.length := by
  unfold Modem.arefs
  split <;> simp

/-! ### The vote -/

theorem sort_length (codes : List Nat) : (codes.insertionSort (· ≤ ·)).length = codes.length :=
  (List.perm_insertionSort _ _).length_eq

theorem mem_sort {codes : List Nat} {c : Nat} : c ∈ codes.insertionSort (· ≤ ·) ↔ c ∈ codes :=
  (List.perm_insertionSort _ _).mem_iff

/-- The vote of codes below k is below k (41_modulation R221): the two middle codes bound it. -/
theorem vote_lt {codes : List Nat} (h : codes ≠ []) {k : Nat} (hk : ∀ c ∈ codes, c < k) : vote codes < k := by
  have hpos : 0 < codes.length := List.length_pos_iff.2 h
  have hd : ∀ i, i < codes.length → (codes.insertionSort (· ≤ ·)).getD i 0 < k := fun i hi => by
    rw [List.getD_eq_getElem?_getD, List.getElem?_eq_getElem (by rwa [sort_length])]
    exact hk _ (mem_sort.1 (List.getElem_mem _))
  simp only [vote]
  split
  · exact hd _ (by omega)
  · have ha := hd (codes.length / 2 - 1) (by omega)
    have hb := hd (codes.length / 2) (by omega)
    split
    · omega
    · split
      · omega
      · rename_i h1 h2 h3
        omega

/-- The sort of numbers keeps their number, so that both middles of `med` are elements (log 12). -/
theorem sortNum_length (F : NumFmt Num) (xs : List Num) : (sortNum F xs).length = xs.length :=
  (List.perm_insertionSort _ _).length_eq

/-! ### The bodies -/

theorem duration_eq_ok {F : NumFmt Num} {r : Reg} {s : State} {d : Num} :
    duration F r s = .ok d ↔ (∃ w, s.regRead r = some w ∧ F.num w = some d) ∧ F.lt (F.ofInt 0) d = true := by
  simp only [duration, bind_eq_ok, failIf_eq_ok, fetchRegNum_eq_ok, Bool.not_eq_false', Except.ok.injEq]
  constructor
  · rintro ⟨d, h, -, hl, rfl⟩; exact ⟨h, hl⟩
  · rintro ⟨h, hl⟩; exact ⟨d, h, (), hl, rfl⟩

theorem mlevelsBody_eq_ok {s : State} {r : Result} :
    mlevelsBody s = .ok r ↔
      ∃ lvl, s.modLevels = .ok lvl ∧ r = { out := lvl.map word, tout := none, estate := none } := by
  simp only [mlevelsBody, bind_eq_ok, Except.ok.injEq, eq_comm (b := r)]

theorem signalBody_eq_ok {F : NumFmt Num} {s : State} {r : Result} :
    signalBody F s = .ok r ↔
      ∃ c, s.modConfig F = .ok c ∧ uint s.tinLen ≤ s.cfg.capIn ∧ s.modCfg.k.toNat * uint s.tinLen ≤ s.cfg.capOut ∧
      ∃ ts, collect (s.fetchNum F .tin) 0 (uint s.tinLen) = .ok ts ∧
        r = { out := (signal F c ts).flatten.map F.enc, tout := none, estate := none } := by
  simp only [signalBody, bind_eq_ok, failIf_eq_ok, decide_eq_false_iff_not, not_lt, gt_iff_lt, Except.ok.injEq]
  constructor
  · rintro ⟨c, hc, -, h1, -, h2, ts, ht, rfl⟩; exact ⟨c, hc, h1, h2, ts, ht, rfl⟩
  · rintro ⟨c, hc, h1, h2, ts, ht, rfl⟩; exact ⟨c, hc, (), h1, (), h2, ts, ht, rfl⟩

theorem modulateBody_eq_ok {F : NumFmt Num} {reg : Reg} {s : State} {r : Result} :
    modulateBody F reg s = .ok r ↔
      ∃ c n d, s.modConfigS F = .ok (c, n) ∧ duration F reg s = .ok d ∧ uint s.inLen ≤ s.cfg.capIn ∧
        n * uint s.inLen ≤ s.cfg.capOut ∧
      ∃ syms, collect (s.fetchSymbol c) 0 (uint s.inLen) = .ok syms ∧
        r = {
          out := (List.zipWith (refAt F c.carrier) (repeatEach n syms)
            (grid F s.cfg.gridEndpoint (n * uint s.inLen) d)).map F.enc
          tout := some ((grid F s.cfg.gridEndpoint (n * uint s.inLen) d).map F.enc)
          estate := none } := by
  simp only [modulateBody, bind_eq_ok, failIf_eq_ok, decide_eq_false_iff_not, not_lt, gt_iff_lt, Except.ok.injEq,
    Prod.exists]
  constructor
  · rintro ⟨c, n, hc, d, hd, -, h1, -, h2, ts, ht, rfl⟩; exact ⟨c, n, d, hc, hd, h1, h2, ts, ht, rfl⟩
  · rintro ⟨c, n, d, hc, hd, h1, h2, ts, ht, rfl⟩; exact ⟨c, n, hc, d, hd, (), h1, (), h2, ts, ht, rfl⟩

theorem demodulateBody_eq_ok {F : NumFmt Num} {s : State} {r : Result} :
    demodulateBody F s = .ok r ↔
      ∃ c n, s.modConfigS F = .ok (c, n) ∧ uint s.inLen ≤ s.cfg.capIn ∧ uint s.tinLen = uint s.inLen ∧
        uint s.inLen % n = 0 ∧ uint s.inLen / n ≤ s.cfg.capOut ∧
      ∃ codes, collect (fetchCode F c s) 0 (uint s.inLen) = .ok codes ∧
        r = {
          out := (groups n (uint s.inLen / n) codes).map fun g => c.levelWord (vote g)
          tout := none
          estate := none } := by
  simp only [demodulateBody, bind_eq_ok, failIf_eq_ok, decide_eq_false_iff_not, not_lt, gt_iff_lt, Except.ok.injEq,
    Prod.exists, Bool.or_eq_false_iff, bne_eq_false_iff_eq]
  constructor
  · rintro ⟨c, n, hc, -, ⟨h1, -⟩, -, h2, -, h3, -, h4, codes, hk, rfl⟩; exact ⟨c, n, hc, h1, h2, h3, h4, codes, hk, rfl⟩
  · rintro ⟨c, n, hc, h1, h2, h3, h4, codes, hk, rfl⟩
    exact ⟨c, n, hc, (), ⟨h1, h2 ▸ h1⟩, (), h2, (), h3, (), h4, codes, hk, rfl⟩

theorem modulateGridBody_eq_ok {F : NumFmt Num} {s : State} {r : Result} :
    modulateGridBody F s = .ok r ↔
      ∃ c n, s.modConfigS F = .ok (c, n) ∧ uint s.inLen ≤ s.cfg.capIn ∧ uint s.tinLen ≤ s.cfg.capIn ∧
        n * uint s.inLen ≤ uint s.tinLen ∧ uint s.tinLen ≤ s.cfg.capOut ∧
      ∃ syms ts tws, collect (s.fetchSymbol c) 0 (uint s.inLen) = .ok syms ∧
        collect (s.fetchNum F .tin) 0 (uint s.tinLen) = .ok ts ∧
        collect (s.fetchElem .tin) 0 (uint s.tinLen) = .ok tws ∧
        r = {
          out := (List.zipWith (refAt F c.carrier) (repeatEach n syms) ts).map F.enc
            ++ List.replicate (uint s.tinLen - n * uint s.inLen) (F.enc (F.ofInt 0))
          tout := some tws
          estate := none } := by
  simp only [modulateGridBody, bind_eq_ok, failIf_eq_ok, decide_eq_false_iff_not, not_lt, gt_iff_lt, Except.ok.injEq,
    Prod.exists, Bool.or_eq_false_iff]
  constructor
  · rintro ⟨c, n, hc, -, ⟨h1, h2⟩, -, h3, -, h4, syms, hs, ts, ht, tws, hw, rfl⟩
    exact ⟨c, n, hc, h1, h2, h3, h4, syms, ts, tws, hs, ht, hw, rfl⟩
  · rintro ⟨c, n, hc, h1, h2, h3, h4, syms, ts, tws, hs, ht, hw, rfl⟩
    exact ⟨c, n, hc, (), ⟨h1, h2⟩, (), h3, (), h4, syms, hs, ts, ht, tws, hw, rfl⟩

theorem demodulateBinsBody_eq_ok {F : NumFmt Num} {s : State} {r : Result} :
    demodulateBinsBody F s = .ok r ↔
      ∃ c, s.modConfig F = .ok c ∧ uint s.argBins ≠ 0 ∧ uint s.inLen ≤ s.cfg.capIn ∧
        (uint s.inLen = 0 ∧ r = { out := [], tout := none, estate := none } ∨
        uint s.inLen ≠ 0 ∧ uint s.inLen % uint s.argBins = 0 ∧ uint s.argBins ≤ s.cfg.capOut ∧
        ∃ xs, collect (s.fetchNum F .inB) 0 (uint s.inLen) = .ok xs ∧
          r = {
            out := (groups (uint s.inLen / uint s.argBins) (uint s.argBins) xs).map fun g =>
              c.levelWord (nearest F c.arefs (med F (g.map F.abs)))
            tout := none
            estate := none }) := by
  simp only [demodulateBinsBody, bind_eq_ok, failIf_eq_ok, decide_eq_false_iff_not, not_lt, gt_iff_lt,
    beq_eq_false_iff_ne]
  refine exists_congr fun c => and_congr_right fun _ => ?_
  by_cases h0 : uint s.inLen = 0
  · simp only [h0, if_true, Except.ok.injEq, exists_const, true_and, ne_eq, not_true_eq_false, false_and, or_false,
      eq_comm (b := r)]
  · simp only [h0, if_false, bind_eq_ok, failIf_eq_ok, decide_eq_false_iff_not, not_lt, bne_eq_false_iff_eq,
      false_and, false_or, ne_eq, not_false_eq_true, true_and, exists_const, Except.ok.injEq, eq_comm (b := r)]

end Sys2Proof.Machine
end

