-- ==== Sys2Proof/Laws/Exec.lean ====
section
/-! SUPPORT. All commands at once: the computation of each, how it can halt, and what it can write. -/

namespace Sys2Proof.Machine

/-- The computation of a command, before its end is entered in the state. -/
def bodyOf : Instr → State → Except Halt Result
  | .encNrz, s => encodeFrame .nrz (stateless encodeNrz) s
  | .encNrzl, s => encodeFrame .nrzl (stateless encodeNrzl) s
  | .encNrzi, s => encodeFrame .nrzi (stateful encodeNrzi) s
  | .encAmi, s => encodeFrame .ami (stateful encodeAmi) s
  | .encPst, s => encodeFrame .pst (stateful encodePst) s
  | .encMan, s => encodeFrame .man (stateless encodeMan) s
  | .encDman, s => encodeFrame .dman (stateful (encodeDman s.cfg.dmInit)) s
  | .decNrz, s => decodeFrame .nrz (stateless decodeNrz) s
  | .decNrzl, s => decodeFrame .nrzl (stateless decodeNrzl) s
  | .decNrzi, s => decodeFrame .nrzi (stateful decodeNrzi) s
  | .decAmi, s => decodeFrame .ami (startsEstate decodeAmi) s
  | .decPst, s => decodeFrame .pst (startsEstate decodePst) s
  | .decMan, s => decodeFrame .man (stateless decodeMan) s
  | .decDman, s => decodeFrame .dman (stateful (decodeDman s.cfg.dmInit)) s
  | .lvlNrz, _ => levelsFrame .nrz
  | .lvlNrzl, _ => levelsFrame .nrzl
  | .lvlNrzi, _ => levelsFrame .nrzi
  | .lvlAmi, _ => levelsFrame .ami
  | .lvlPst, _ => levelsFrame .pst
  | .lvlMan, _ => levelsFrame .man
  | .lvlDman, _ => levelsFrame .dman
  | .mod, s => modulateBody Config.numFmt .modDur s
  | .modDur, s => modulateBody Config.numFmt .argDur s
  | .demod, s => demodulateBody Config.numFmt s
  | .sig, s => signalBody Config.numFmt s
  | .mlvl, s => mlevelsBody s
  | .modg, s => modulateGridBody Config.numFmt s
  | .demodb, s => demodulateBinsBody Config.numFmt s

/-- A command is ILLEGAL where it does not exist, and else enters the end of its computation. -/
theorem exec_eq (i : Instr) (s : State) : exec i s =
    if i.wellFormed s.cfg then finish s (bodyOf i) else .next (s.raise .illegal 0) := by
  cases i <;> first
    | rfl
    | simp only [exec, execModg, execDemodb, modulateGridWith, demodulateBinsWith, convB_eq, Instr.wellFormed,
        Instr.isConvB, Bool.not_true, Bool.false_or]
      rfl

/-- Where the computation of a command runs (`u`) and what its end is entered in (`v`): the state as it is, or, where an
unwritten register is read, the state with its registers counted as written and the state with that mark. -/
def Runs (i : Instr) (s u v : State) : Prop :=
  (unwrittenRegister (bodyOf i s) = none ∧ u = s ∧ v = s) ∨
    ∃ r, bodyOf i s = .error (.unwritten (.reg r)) ∧ u = s.settled ∧ v = s.mark (.unwritten (.reg r))

/-- What a next state of a command can be. -/
theorem exec_cases {i : Instr} {s t : State} (h : exec i s = .next t) :
    (i.wellFormed s.cfg = false ∧ t = s.raise .illegal 0) ∨
    (i.wellFormed s.cfg = true ∧ ∃ u v, Runs i s u v ∧
      ((∃ r, bodyOf i u = .ok r ∧ t = v.succeed r) ∨ ∃ e n, bodyOf i u = .error (.err e n) ∧ t = v.raise e n)) := by
  rw [exec_eq] at h
  split at h
  · rename_i hw
    refine .inr ⟨hw, ?_⟩
    rcases finish_eq s (bodyOf i) with ⟨hn, hf⟩ | ⟨r, hr, hf⟩ <;> rw [hf] at h
    · exact ⟨s, s, .inl ⟨hn, rfl, rfl⟩, conclude_eq_next h⟩
    · exact ⟨_, _, .inr ⟨r, hr, rfl, rfl⟩, conclude_eq_next h⟩
  · rename_i hw
    exact .inl ⟨by simpa using hw, by simpa using h.symm⟩

/-- A next state that reports success comes from a computation that completed. -/
theorem exec_done {i : Instr} {s t : State} (h : exec i s = .next t) (hd : t.status.done = true) :
    i.wellFormed s.cfg = true ∧ ∃ u v, Runs i s u v ∧ ∃ r, bodyOf i u = .ok r ∧ t = v.succeed r := by
  rcases exec_cases h with ⟨-, rfl⟩ | ⟨hw, u, v, hr, h | ⟨e, n, -, rfl⟩⟩
  · simp at hd
  · exact ⟨hw, u, v, hr, h⟩
  · simp at hd

/-! ### How a command halts -/

/-- The halts of a command that scans IN as bits, levels or numbers (`inp`), scans TIN (`tin`), or looks levels of IN up
in the table (`sym`). -/
def HaltFair (inp tin sym : Bool) (s : State) : Halt → Prop
  | .err .illegal _ => False
  | .err .config k => k = 0
  | .err .capacity k => k = 0
  | .err .shape k => k = 0
  | .err .domain k => inp = true ∧ k < uint s.inLen ∨ tin = true ∧ k < uint s.tinLen
  | .err .alphabet k => sym = true ∧ k < uint s.inLen
  | .unwritten (.reg r) => s.regRead r = none
  | .unwritten (.elem b k) => (b = .inB ∨ b = .tin) ∧ k < s.cfg.capIn ∧ (s.buf b).read k = none

variable {Num : Type} {inp tin sym : Bool} {s : State}

theorem fetchReg_halts (r : Reg) : HaltsIn (HaltFair inp tin sym s) (s.fetchReg r) := fun h hh => by
  obtain ⟨hr, rfl⟩ := fetchReg_eq_error.1 hh
  exact hr

theorem fetchRegNum_halts (F : NumFmt Num) (r : Reg) : HaltsIn (HaltFair inp tin sym s) (s.fetchRegNum F r) :=
  fun h hh => by
    rcases fetchRegNum_eq_error.1 hh with ⟨hr, rfl⟩ | ⟨w, -, -, rfl⟩
    · exact hr
    · rfl

theorem fetchBit_halts {k : Nat} (hk : k < uint s.inLen) (hc : uint s.inLen ≤ s.cfg.capIn) :
    HaltsIn (HaltFair true tin sym s) (s.fetchBit k) := fun h hh => by
  rcases fetchBit_eq_error.1 hh with ⟨hr, rfl⟩ | ⟨w, -, -, -, rfl⟩
  · exact ⟨.inl rfl, by omega, hr⟩
  · exact .inl ⟨rfl, hk⟩

theorem fetchLevel_halts (al : List Int) {k : Nat} (hk : k < uint s.inLen) (hc : uint s.inLen ≤ s.cfg.capIn) :
    HaltsIn (HaltFair true tin sym s) (s.fetchLevel al k) := fun h hh => by
  rcases fetchLevel_eq_error.1 hh with ⟨hr, rfl⟩ | ⟨w, -, -, rfl⟩
  · exact ⟨.inl rfl, by omega, hr⟩
  · exact .inl ⟨rfl, hk⟩

theorem fetchSymbol_halts (c : Modem Num) {k : Nat} (hk : k < uint s.inLen) (hc : uint s.inLen ≤ s.cfg.capIn) :
    HaltsIn (HaltFair inp tin true s) (s.fetchSymbol c k) := fun h hh => by
  rcases fetchSymbol_eq_error.1 hh with ⟨hr, rfl⟩ | ⟨w, -, -, rfl⟩
  · exact ⟨.inl rfl, by omega, hr⟩
  · exact ⟨rfl, hk⟩

theorem fetchNum_inB_halts (F : NumFmt Num) {k : Nat} (hk : k < uint s.inLen) (hc : uint s.inLen ≤ s.cfg.capIn) :
    HaltsIn (HaltFair true tin sym s) (s.fetchNum F .inB k) := fun h hh => by
  rcases fetchNum_eq_error.1 hh with ⟨hr, rfl⟩ | ⟨w, -, -, rfl⟩
  · exact ⟨.inl rfl, by omega, hr⟩
  · exact .inl ⟨rfl, hk⟩

theorem fetchNum_tin_halts (F : NumFmt Num) {k : Nat} (hk : k < uint s.tinLen) (hc : uint s.tinLen ≤ s.cfg.capIn) :
    HaltsIn (HaltFair inp true sym s) (s.fetchNum F .tin k) := fun h hh => by
  rcases fetchNum_eq_error.1 hh with ⟨hr, rfl⟩ | ⟨w, -, -, rfl⟩
  · exact ⟨.inr rfl, by omega, hr⟩
  · exact .inr ⟨rfl, hk⟩

theorem modLevels_halts : HaltsIn (HaltFair inp tin sym s) s.modLevels :=
  .bind (.failIf fun _ => rfl) fun _ _ =>
    .bind (.collect fun _ _ => .bind (fetchReg_halts _) fun _ _ => .ok _) fun _ _ =>
      .bind (.failIf fun _ => rfl) fun _ _ => .ok _

theorem mlevelsBody_halts : HaltsIn (HaltFair inp tin sym s) (mlevelsBody s) :=
  .bind modLevels_halts fun _ _ => .ok _

theorem modParams_halts (F : NumFmt Num) : HaltsIn (HaltFair inp tin sym s) (s.modParams F) :=
  .bind (.collect fun _ _ => fetchRegNum_halts F _) fun _ _ => by
    split
    · exact .ok _
    · exact .bind (fetchRegNum_halts F _) fun _ _ => .ok _
    · exact .bind (fetchRegNum_halts F _) fun _ _ => .ok _
    · exact .bind (fetchRegNum_halts F _) fun _ _ => .bind (fetchRegNum_halts F _) fun _ _ => .ok _

theorem modConfig_halts (F : NumFmt Num) : HaltsIn (HaltFair inp tin sym s) (s.modConfig F) :=
  .bind modLevels_halts fun _ _ => .bind (modParams_halts F) fun _ _ => .ok _

theorem modConfigS_halts (F : NumFmt Num) : HaltsIn (HaltFair inp tin sym s) (s.modConfigS F) :=
  .bind (modConfig_halts F) fun _ _ =>
    .bind (.bind (.failIf fun _ => rfl) fun _ _ => .ok _) fun _ _ => .ok _

theorem encodeFrame_halts (v : LineCode) (code : List Bool → List Int × Option Int) :
    HaltsIn (HaltFair true tin sym s) (encodeFrame v code s) :=
  .bind (.failIf fun _ => rfl) fun _ h1 => .bind (.failIf fun _ => rfl) fun _ _ =>
    .bind (.collect fun k hk => fetchBit_halts (by omega) (by simpa using h1)) fun _ _ => .ok _

theorem decodeFrame_halts (v : LineCode) (code : List Int → List Bool × Option Int) :
    HaltsIn (HaltFair true tin sym s) (decodeFrame v code s) :=
  .bind (.failIf fun _ => rfl) fun _ h1 => .bind (.failIf fun _ => rfl) fun _ _ =>
    .bind (.failIf fun _ => rfl) fun _ _ =>
      .bind (.collect fun k hk => fetchLevel_halts _ (by omega) (by simpa using h1)) fun _ _ => .ok _

theorem modulateBody_halts (F : NumFmt Num) (r : Reg) : HaltsIn (HaltFair inp tin true s) (modulateBody F r s) :=
  .bind (modConfigS_halts F) fun _ _ =>
    .bind (.bind (fetchRegNum_halts F r) fun _ _ => .bind (.failIf fun _ => rfl) fun _ _ => .ok _) fun _ _ =>
      .bind (.failIf fun _ => rfl) fun _ h1 => .bind (.failIf fun _ => rfl) fun _ _ =>
        .bind (.collect fun k hk => fetchSymbol_halts _ (by omega) (by simpa using h1)) fun _ _ => .ok _

theorem signalBody_halts (F : NumFmt Num) : HaltsIn (HaltFair inp true sym s) (signalBody F s) :=
  .bind (modConfig_halts F) fun _ _ => .bind (.failIf fun _ => rfl) fun _ h1 =>
    .bind (.failIf fun _ => rfl) fun _ _ =>
      .bind (.collect fun k hk => fetchNum_tin_halts F (by omega) (by simpa using h1)) fun _ _ => .ok _

theorem demodulateBody_halts (F : NumFmt Num) : HaltsIn (HaltFair true true sym s) (demodulateBody F s) :=
  .bind (modConfigS_halts F) fun _ _ => .bind (.failIf fun _ => rfl) fun _ h1 =>
    .bind (.failIf fun _ => rfl) fun _ h2 => .bind (.failIf fun _ => rfl) fun _ _ =>
      .bind (.failIf fun _ => rfl) fun _ _ => by
        simp only [failIf_eq_ok, Bool.or_eq_false_iff, decide_eq_false_iff_not, not_lt, bne_eq_false_iff_eq,
          gt_iff_lt] at h1 h2
        refine .bind (.collect fun k hk => ?_) fun _ _ => .ok _
        exact .bind (fetchNum_inB_halts F (by omega) h1.1) fun _ _ =>
          .bind (fetchNum_tin_halts F (by omega) h1.2) fun _ _ => .ok _

theorem modulateGridBody_halts (F : NumFmt Num) : HaltsIn (HaltFair inp true true s) (modulateGridBody F s) :=
  .bind (modConfigS_halts F) fun _ _ => .bind (.failIf fun _ => rfl) fun _ h1 =>
    .bind (.failIf fun _ => rfl) fun _ _ => .bind (.failIf fun _ => rfl) fun _ _ => by
      simp only [failIf_eq_ok, Bool.or_eq_false_iff, decide_eq_false_iff_not, not_lt, gt_iff_lt] at h1
      refine .bind (.collect fun k hk => fetchSymbol_halts _ (by omega) h1.1) fun _ _ =>
        .bind (.collect fun k hk => fetchNum_tin_halts F (by omega) h1.2) fun _ _ =>
          .bind (.collect fun k hk h hh => ?_) fun _ _ => .ok _
      obtain ⟨hr, rfl⟩ := fetchElem_eq_error.1 hh
      exact ⟨.inr rfl, by omega, hr⟩

theorem demodulateBinsBody_halts (F : NumFmt Num) : HaltsIn (HaltFair true tin sym s) (demodulateBinsBody F s) :=
  .bind (modConfig_halts F) fun _ _ => .bind (.failIf fun _ => rfl) fun _ _ =>
    .bind (.failIf fun _ => rfl) fun _ h1 => by
      split
      · exact .ok _
      · exact .bind (.failIf fun _ => rfl) fun _ _ => .bind (.failIf fun _ => rfl) fun _ _ =>
          .bind (.collect fun k hk => fetchNum_inB_halts F (by omega) (by simpa using h1)) fun _ _ => .ok _

/-- Whatever a command halts on is fair. -/
theorem bodyOf_halts (i : Instr) (s : State) : HaltsIn (HaltFair true true true s) (bodyOf i s) := by
  cases i <;> first
    | exact encodeFrame_halts _ _
    | exact decodeFrame_halts _ _
    | exact .ok _
    | exact modulateBody_halts _ _
    | exact signalBody_halts _
    | exact demodulateBody_halts _
    | exact modulateGridBody_halts _
    | exact demodulateBinsBody_halts _
    | exact mlevelsBody_halts

/-- A marked register is unwritten. -/
theorem Runs.cases {i : Instr} {s u v : State} (h : Runs i s u v) :
    (u = s ∧ v = s) ∨ ∃ r, s.regRead r = none ∧ u = s.settled ∧ v = s.mark (.unwritten (.reg r)) := by
  rcases h with ⟨-, h⟩ | ⟨r, hr, h⟩
  · exact .inl h
  · exact .inr ⟨r, bodyOf_halts i s _ hr, h⟩

/-- With the registers counted as written, nothing halts at one. -/
theorem HaltsIn.settled {x : Except Halt Result} (h : HaltsIn (HaltFair inp tin sym s.settled) x) :
    unwrittenRegister x = none := by
  rw [Option.eq_none_iff_forall_ne_some]
  intro r hr
  simpa [HaltFair] using h _ (unwrittenRegister_eq_some.1 hr)

theorem unwrittenRegister_settled (i : Instr) (s : State) : unwrittenRegister (bodyOf i s.settled) = none :=
  (bodyOf_halts i s.settled).settled

/-- What a stop of a command can be: at an element that holds no value, the mark being that element or the unwritten
register that was read before it. -/
theorem exec_stops {i : Instr} {s : State} {f : Fault} (h : exec i s = .fault f) :
    ∃ b k first, f = .unwritten (.elem b k) first ∧ (b = .inB ∨ b = .tin) ∧ k < s.cfg.capIn ∧ (s.buf b).read k = none ∧
      (first = .elem b k ∧ bodyOf i s = .error (.unwritten (.elem b k)) ∨
        ∃ r, first = .reg r ∧ bodyOf i s = .error (.unwritten (.reg r)) ∧
          bodyOf i s.settled = .error (.unwritten (.elem b k))) := by
  rw [exec_eq] at h
  split at h
  case isFalse => cases h
  rcases finish_eq s (bodyOf i) with ⟨hn, hf⟩ | ⟨r, hr, hf⟩ <;> rw [hf] at h
  · obtain ⟨l, hl, rfl⟩ := conclude_eq_fault h
    match l, hl with
    | .elem b k, hl =>
      obtain ⟨h1, h2, h3⟩ := bodyOf_halts i s _ hl
      exact ⟨b, k, _, rfl, h1, h2, h3, .inl ⟨rfl, hl⟩⟩
    | .reg r, hl => simp [hl] at hn
  · obtain ⟨l, hl, rfl⟩ := conclude_eq_fault h
    match l, hl with
    | .elem b k, hl =>
      obtain ⟨h1, h2, h3⟩ := bodyOf_halts i s.settled _ hl
      exact ⟨b, k, _, rfl, h1, h2, by cases b <;> exact h3, .inr ⟨r, rfl, hr, hl⟩⟩
    | .reg r', hl => simpa [hl] using unwrittenRegister_settled i s

/-! ### What a command writes -/

/-- The result fits OUT, its times are as many as its values, and its ESTATE is −1 or +1. -/
structure Fits (s : State) (r : Result) : Prop where
  len : r.out.length ≤ s.cfg.capOut
  times : ∀ ts, r.tout = some ts → ts.length = r.out.length
  estate : ∀ e, r.estate = some e → IsSign e

theorem encodeFrame_fits {v : LineCode} {code : List Bool → List Int × Option Int} {r : Result}
    (h : encodeFrame v code s = .ok r) (hl : ∀ b, (code b).1.length = multOf v * b.length)
    (he : ∀ b e, (code b).2 = some e → IsSign e) : Fits s r ∧ r.out.length = multOf v * uint s.inLen ∧ r.tout = none := by
  obtain ⟨-, h2, b, hb, -, rfl⟩ := encodeFrame_eq_ok.1 h
  have hlen : ((code b).1.map word).length = multOf v * uint s.inLen := by rw [List.length_map, hl, hb]
  exact ⟨⟨by simpa only [hlen], (fun _ h => by cases h), fun e h => he b e h⟩, hlen, rfl⟩

theorem decodeFrame_fits {v : LineCode} {code : List Int → List Bool × Option Int} {r : Result}
    (h : decodeFrame v code s = .ok r) (hl : ∀ l, (code l).1.length = l.length / multOf v)
    (he : ∀ l e, (∀ x ∈ l, x ∈ levelsOf v) → (code l).2 = some e → IsSign e) :
    Fits s r ∧ r.out.length = uint s.inLen / multOf v ∧ r.tout = none ∧ uint s.inLen % multOf v = 0 := by
  obtain ⟨-, h2, h3, l, hll, hf, rfl⟩ := decodeFrame_eq_ok.1 h
  have hlen : ((code l).1.map bitWord).length = uint s.inLen / multOf v := by rw [List.length_map, hl, hll]
  refine ⟨⟨by simpa only [hlen], (fun _ h => by cases h), fun e h => he l e (fun x hx => ?_) h⟩, hlen, rfl, h2⟩
  obtain ⟨i, hi, rfl⟩ := List.getElem_of_mem hx
  obtain ⟨w, -, -, hm⟩ := fetchLevel_eq_ok.1 (hf i hi)
  exact hm

theorem levelsFrame_fits (v : LineCode) : Fits s { out := (levelsOf v).map word, tout := none, estate := none } :=
  ⟨by cases v <;> simp [levelsOf, Config.capOut], (fun _ h => by cases h), (fun _ h => by cases h)⟩

theorem modulateBody_fits {F : NumFmt Num} {reg : Reg} {r : Result} (h : modulateBody F reg s = .ok r) :
    Fits s r ∧ r.out.length = uint s.modSps * uint s.inLen ∧ ∃ ts, r.tout = some ts ∧ ts.length = r.out.length := by
  obtain ⟨c, n, d, hc, -, -, h2, syms, hs, rfl⟩ := modulateBody_eq_ok.1 h
  obtain ⟨hn, -⟩ := modSamples_eq_ok.1 (modConfigS_eq_ok.1 hc).2
  have hl := (collect_eq_ok.1 hs).1
  refine ⟨⟨?_, ?_, ?_⟩, ?_, _, rfl, ?_⟩ <;> simp [hl, hn]
  omega

theorem demodulateBody_fits {F : NumFmt Num} {r : Result} (h : demodulateBody F s = .ok r) :
    Fits s r ∧ r.out.length = uint s.inLen / uint s.modSps ∧ r.tout = none := by
  obtain ⟨c, n, hc, -, -, -, h4, codes, -, rfl⟩ := demodulateBody_eq_ok.1 h
  obtain ⟨hn, -⟩ := modSamples_eq_ok.1 (modConfigS_eq_ok.1 hc).2
  refine ⟨⟨?_, ?_, ?_⟩, ?_, rfl⟩ <;> simp [hn]
  simpa [hn] using h4

theorem signalBody_fits {F : NumFmt Num} {r : Result} (h : signalBody F s = .ok r) :
    Fits s r ∧ r.out.length = s.modCfg.k.toNat * uint s.tinLen ∧ r.tout = none := by
  obtain ⟨c, hc, -, h2, ts, ht, rfl⟩ := signalBody_eq_ok.1 h
  have hl := (collect_eq_ok.1 ht).1
  obtain ⟨hk, -, hp, -⟩ := modConfig_shape hc
  have : ((signal F c ts).flatten.map F.enc).length = s.modCfg.k.toNat * uint s.tinLen := by
    rw [List.length_map, signal_flatten_length, hl, hp, hk]
  exact ⟨⟨by simpa only [this], (fun _ h => by cases h), (fun _ h => by cases h)⟩, this, rfl⟩

theorem mlevelsBody_fits {r : Result} (h : mlevelsBody s = .ok r) :
    Fits s r ∧ r.out.length = s.modCfg.k.toNat ∧ r.tout = none := by
  obtain ⟨lvl, hl, rfl⟩ := mlevelsBody_eq_ok.1 h
  obtain ⟨hk, hn, -⟩ := modLevels_eq_ok.1 hl
  refine ⟨⟨?_, (fun _ h => by cases h), (fun _ h => by cases h)⟩, by simpa using hn, rfl⟩
  rw [List.length_map, hn]
  rcases hk with hk | hk <;> simp [hk, Config.capOut]

theorem modulateGridBody_fits {F : NumFmt Num} {r : Result} (h : modulateGridBody F s = .ok r) :
    Fits s r ∧ r.out.length = uint s.tinLen ∧ ∃ ts, r.tout = some ts ∧ ts.length = r.out.length := by
  obtain ⟨c, n, hc, -, -, h3, h4, syms, ts, tws, hs, ht, hw, rfl⟩ := modulateGridBody_eq_ok.1 h
  have hl := (collect_eq_ok.1 hs).1
  have hl' := (collect_eq_ok.1 ht).1
  have hl'' := (collect_eq_ok.1 hw).1
  refine ⟨⟨?_, ?_, ?_⟩, ?_, _, rfl, ?_⟩ <;> simp [hl, hl', hl''] <;> omega

theorem demodulateBinsBody_fits {F : NumFmt Num} {r : Result} (h : demodulateBinsBody F s = .ok r) :
    Fits s r ∧ r.out.length = (if uint s.inLen = 0 then 0 else uint s.argBins) ∧ r.tout = none := by
  obtain ⟨c, -, -, -, ⟨h0, rfl⟩ | ⟨h0, -, h3, xs, -, rfl⟩⟩ := demodulateBinsBody_eq_ok.1 h
  · exact ⟨⟨by simp, (fun _ h => by cases h), (fun _ h => by cases h)⟩, by simp [h0], rfl⟩
  · exact ⟨⟨by simpa using h3, (fun _ h => by cases h), (fun _ h => by cases h)⟩, by simp [h0], rfl⟩

/-- Whatever a command writes fits. -/
theorem bodyOf_fits {i : Instr} {s : State} {r : Result} (h : bodyOf i s = .ok r) : Fits s r := by
  have none_sign : ∀ {α : Type} (_ : α) (e : Int), (none : Option Int) = some e → IsSign e := fun _ _ h => by cases h
  cases i <;> simp only [bodyOf] at h
  case encNrz => exact (encodeFrame_fits h (by simp [stateless, multOf]) none_sign).1
  case encNrzl => exact (encodeFrame_fits h (by simp [stateless, multOf]) none_sign).1
  case encNrzi => exact (encodeFrame_fits h (by simp [stateful, multOf])
    (fun b e he => Option.some.inj he ▸ encodeNrzi_estate b)).1
  case encAmi => exact (encodeFrame_fits h (by simp [stateful, multOf])
    (fun b e he => Option.some.inj he ▸ encodeAmi_estate b)).1
  case encPst => exact (encodeFrame_fits h (by simp [stateful, multOf])
    (fun b e he => Option.some.inj he ▸ encodePst_estate b)).1
  case encMan => exact (encodeFrame_fits h (by simp [stateless, multOf]) none_sign).1
  case encDman => exact (encodeFrame_fits h (by simp [stateful, multOf])
    (fun b e he => Option.some.inj he ▸ encodeDman_estate _ b)).1
  case decNrz => exact (decodeFrame_fits h (by simp [stateless, multOf]) (fun l e _ he => by cases he)).1
  case decNrzl => exact (decodeFrame_fits h (by simp [stateless, multOf]) (fun l e _ he => by cases he)).1
  case decNrzi => exact (decodeFrame_fits h (by simp [stateful, multOf])
    (fun l e hl he => Option.some.inj he ▸ decodeNrzi_estate fun x hx => isSign_of_mem (hl x hx))).1
  case decAmi => exact (decodeFrame_fits h (by simp [startsEstate, multOf])
    (fun l e _ he => Option.some.inj he ▸ .inl rfl)).1
  case decPst => exact (decodeFrame_fits h (by simp [startsEstate, multOf])
    (fun l e _ he => Option.some.inj he ▸ .inl rfl)).1
  case decMan => exact (decodeFrame_fits h (by simp [stateless, multOf]) (fun l e _ he => by cases he)).1
  case decDman => exact (decodeFrame_fits h (by simp [stateful, multOf])
    (fun l e hl he => Option.some.inj he ▸ decodeDman_estate _ fun x hx => isSign_of_mem (hl x hx))).1
  case mod => exact (modulateBody_fits h).1
  case modDur => exact (modulateBody_fits h).1
  case demod => exact (demodulateBody_fits h).1
  case sig => exact (signalBody_fits h).1
  case mlvl => exact (mlevelsBody_fits h).1
  case modg => exact (modulateGridBody_fits h).1
  case demodb => exact (demodulateBinsBody_fits h).1
  all_goals
    rw [levelsFrame_eq, Except.ok.injEq] at h
    exact h ▸ levelsFrame_fits _

end Sys2Proof.Machine
end

