-- ==== Sys2Proof/Laws/PerInstr.lean ====
section
/-! SUPPORT. The family Encoding: what holds of the word of every command, one lemma a constructor. -/

namespace Sys2Proof.Laws.Encoding

/-- The word of a command has RSV = 0 (30_encoding R104) and is legal exactly where the command exists (R105, R108). -/
def Statement (i : Instr) : Prop :=
  rsvField (encode i) = 0#23 ∧ legal true (encode i) = true ∧ legal false (encode i) = !i.isConvB

theorem encNrz : Statement .encNrz := by unfold Statement; decide
theorem encNrzl : Statement .encNrzl := by unfold Statement; decide
theorem encNrzi : Statement .encNrzi := by unfold Statement; decide
theorem encAmi : Statement .encAmi := by unfold Statement; decide
theorem encPst : Statement .encPst := by unfold Statement; decide
theorem encMan : Statement .encMan := by unfold Statement; decide
theorem encDman : Statement .encDman := by unfold Statement; decide
theorem decNrz : Statement .decNrz := by unfold Statement; decide
theorem decNrzl : Statement .decNrzl := by unfold Statement; decide
theorem decNrzi : Statement .decNrzi := by unfold Statement; decide
theorem decAmi : Statement .decAmi := by unfold Statement; decide
theorem decPst : Statement .decPst := by unfold Statement; decide
theorem decMan : Statement .decMan := by unfold Statement; decide
theorem decDman : Statement .decDman := by unfold Statement; decide
theorem lvlNrz : Statement .lvlNrz := by unfold Statement; decide
theorem lvlNrzl : Statement .lvlNrzl := by unfold Statement; decide
theorem lvlNrzi : Statement .lvlNrzi := by unfold Statement; decide
theorem lvlAmi : Statement .lvlAmi := by unfold Statement; decide
theorem lvlPst : Statement .lvlPst := by unfold Statement; decide
theorem lvlMan : Statement .lvlMan := by unfold Statement; decide
theorem lvlDman : Statement .lvlDman := by unfold Statement; decide
theorem mod : Statement .mod := by unfold Statement; decide
theorem modDur : Statement .modDur := by unfold Statement; decide
theorem demod : Statement .demod := by unfold Statement; decide
theorem sig : Statement .sig := by unfold Statement; decide
theorem mlvl : Statement .mlvl := by unfold Statement; decide
theorem modg : Statement .modg := by unfold Statement; decide
theorem demodb : Statement .demodb := by unfold Statement; decide

end Sys2Proof.Laws.Encoding
end

