-- ==== Sys2Proof/Tests/Slice0.lean ====
section
/-! SUPPORT. The model's own tests. Expected results are the spec's own vectors (95_test_vectors) and the words of
30_encoding R106; each test names its source. Then, for each statement with hypotheses, a witness that meets them. -/

namespace Sys2Proof.Tests

open Sys2Proof.Machine

/-- CAP_IN = CAP_OUT = 16, EXCL, DM_INIT = −1, convention B present: 95_test_vectors, conventions. -/
def chip : Config :=
  { inMore := 15, outMore := 13, gridEndpoint := .excl, dmInit := .low, hasConvB := true,
    coreBase := 0, busEndian := .little }

/-- A buffer holding words from index 0 on. -/
def buffer (ws : List Word) : Memory := Memory.writeFrom [] 0 ws

/-- After reset, IN and IN_LEN loaded. -/
def loaded (c : Config) (ws : List Word) : State :=
  { State.resetWith c with inBuf := buffer ws, inLen := BitVec.ofNat 32 ws.length }

/-- The STATUS word, EIDX and the elements of OUT below OUT_LEN after a step that answered a next state. -/
def seen : Step → Option (Word × Word × List (Option Word))
  | .next t => some (t.status.toWord, t.eidx, (List.range t.outLen.toNat).map t.outBuf.read)
  | .fault _ => none
  | .refused _ => none

/-- Success with these levels in OUT. -/
def wrote (l : List Int) : Option (Word × Word × List (Option Word)) :=
  some (0x02#32, 0#32, l.map fun i => some (word i))

/-- An error with OUT_LEN still 0. -/
def failed (status eidx : Word) : Option (Word × Word × List (Option Word)) := some (status, eidx, [])

/-! ### WellFormed: the check refuses an ill-formed term -/

/-- R105: without convention B, `modg` is no legal command. -/
theorem test_wellFormed_refuses_modg : Instr.wellFormed { chip with hasConvB := false } .modg = false := by decide
theorem test_wellFormed_refuses_demodb : Instr.wellFormed { chip with hasConvB := false } .demodb = false := by decide

/-! ### Decoding: words written out from 30_encoding R100 to R103, as {RSV, DUR, VAR, OP} -/

theorem test_decode_encode_row :
    decode (0b00000000000000000000000_0_0000_0001) = .ok .encNrz ∧
    decode (0b00000000000000000000000_0_0001_0001) = .ok .encNrzl ∧
    decode (0b00000000000000000000000_0_0010_0001) = .ok .encNrzi ∧
    decode (0b00000000000000000000000_0_0011_0001) = .ok .encAmi ∧
    decode (0b00000000000000000000000_0_0100_0001) = .ok .encPst ∧
    decode (0b00000000000000000000000_0_0101_0001) = .ok .encMan ∧
    decode (0b00000000000000000000000_0_0110_0001) = .ok .encDman := by decide
theorem test_decode_decode_row :
    decode (0b00000000000000000000000_0_0000_0010) = .ok .decNrz ∧
    decode (0b00000000000000000000000_0_0001_0010) = .ok .decNrzl ∧
    decode (0b00000000000000000000000_0_0010_0010) = .ok .decNrzi ∧
    decode (0b00000000000000000000000_0_0011_0010) = .ok .decAmi ∧
    decode (0b00000000000000000000000_0_0100_0010) = .ok .decPst ∧
    decode (0b00000000000000000000000_0_0101_0010) = .ok .decMan ∧
    decode (0b00000000000000000000000_0_0110_0010) = .ok .decDman := by decide
theorem test_decode_levels_row :
    decode (0b00000000000000000000000_0_0000_0011) = .ok .lvlNrz ∧
    decode (0b00000000000000000000000_0_0001_0011) = .ok .lvlNrzl ∧
    decode (0b00000000000000000000000_0_0010_0011) = .ok .lvlNrzi ∧
    decode (0b00000000000000000000000_0_0011_0011) = .ok .lvlAmi ∧
    decode (0b00000000000000000000000_0_0100_0011) = .ok .lvlPst ∧
    decode (0b00000000000000000000000_0_0101_0011) = .ok .lvlMan ∧
    decode (0b00000000000000000000000_0_0110_0011) = .ok .lvlDman := by decide
theorem test_decode_modulation_rows :
    decode (0b00000000000000000000000_0_0000_0100) = .ok .mod ∧
    decode (0b00000000000000000000000_1_0000_0100) = .ok .modDur ∧
    decode (0b00000000000000000000000_0_0000_0101) = .ok .demod ∧
    decode (0b00000000000000000000000_0_0000_0110) = .ok .sig ∧
    decode (0b00000000000000000000000_0_0000_0111) = .ok .mlvl ∧
    decode (0b00000000000000000000000_0_0000_1000) = .ok .modg ∧
    decode (0b00000000000000000000000_0_0000_1001) = .ok .demodb := by decide
/-- R109: the reset value of CMD, a VAR of 7, a misplaced VAR and DUR, a reserved OP, a nonzero RSV bit. -/
theorem test_decode_refuses :
    decode 0x00000000 = .error .reservedOp ∧ decode 0x00000071 = .error .reservedVar ∧
    decode 0x00000015 = .error .misplacedVar ∧ decode 0x00000101 = .error .misplacedDur ∧
    decode 0x0000000A = .error .reservedOp ∧ decode 0x80000001 = .error .nonzeroRsv := by decide

/-- Every row of the opcode table runs as the first command after reset. -/
theorem test_rows_run_after_reset :
    [0x01, 0x11, 0x21, 0x31, 0x41, 0x51, 0x61, 0x02, 0x12, 0x22, 0x32, 0x42, 0x52, 0x62, 0x03, 0x13, 0x23, 0x33, 0x43,
      0x53, 0x63, 0x04, 0x104, 0x05, 0x06, 0x07, 0x08, 0x09].all (fun w =>
        (decodeTableWord 32 w).isSome &&
        match step (State.reset.withFetchWord 32 w) with
        | .next _ => true
        | .fault _ => false
        | .refused _ => false) = true := by decide

/-! ### The line-code unit (95_test_vectors section 2), one or two vectors a command -/

/-- S-1 -/
theorem test_encNrz : seen (execEncNrz (loaded chip [1, 0, 1, 1, 0])) = wrote [1, -1, 1, 1, -1] := by decide

/-- LC-E-2 -/
theorem test_encNrz_domain : seen (execEncNrz (loaded chip [0, 2, 3])) = failed 0x54 1 := by decide

/-- S-1 -/
theorem test_decNrz : seen (execDecNrz (loaded chip [1, word (-1), 1, 1, word (-1)])) = wrote [1, 0, 1, 1, 0] := by decide

/-- LC-NRZ-3 -/
theorem test_decNrz_domain : seen (execDecNrz (loaded chip [1, 0, 1])) = failed 0x54 1 := by decide

/-- LC-NRZL-1 -/
theorem test_encNrzl : seen (execEncNrzl (loaded chip [1, 0, 1, 1, 0])) = wrote [-1, 1, -1, -1, 1] := by decide

/-- LC-NRZL-2 -/
theorem test_decNrzl : seen (execDecNrzl (loaded chip [word (-1), 1, word (-1), word (-1), 1])) = wrote [1, 0, 1, 1, 0] := by decide

/-- LC-NRZI-1 -/
theorem test_encNrzi : seen (execEncNrzi (loaded chip [1, 0, 1, 1, 0])) = wrote [1, 1, -1, 1, 1] := by decide

/-- LC-NRZI-2 -/
theorem test_decNrzi : seen (execDecNrzi (loaded chip [1, 1, word (-1), 1, 1])) = wrote [1, 0, 1, 1, 0] := by decide

/-- LC-NRZI-7 -/
theorem test_decNrzi_first : seen (execDecNrzi (loaded chip [word (-1), word (-1), 1, 1])) = wrote [0, 0, 1, 0] := by decide

/-- LC-AMI-2 -/
theorem test_encAmi : seen (execEncAmi (loaded chip [0, 1, 1, 0, 1])) = wrote [0, 1, -1, 0, 1] := by decide

/-- LC-E-3 -/
theorem test_encAmi_domain : seen (execEncAmi (loaded chip [word (-1)])) = failed 0x54 0 := by decide

/-- LC-AMI-3 -/
theorem test_decAmi : seen (execDecAmi (loaded chip [1, 0, word (-1), 1, 0])) = wrote [0, 0, 1, 1, 0] := by decide

/-- LC-AMI-7 -/
theorem test_decAmi_domain : seen (execDecAmi (loaded chip [0, 2])) = failed 0x54 1 := by decide

/-- LC-PST-2 -/
theorem test_encPst : seen (execEncPst (loaded chip [1, 0, 1, 1, 0])) = wrote [0, 1, 0, 0, -1] := by decide

/-- LC-PST-3 -/
theorem test_decPst : seen (execDecPst (loaded chip [0, 1, 0, 0, word (-1)])) = wrote [0, 0, 1, 1, 0] := by decide

/-- LC-MAN-1 -/
theorem test_encMan : seen (execEncMan (loaded chip [1, 0, 1, 1, 0])) = wrote [-1, 1, 1, -1, -1, 1, -1, 1, 1, -1] := by decide

/-- LC-E-5 -/
theorem test_encMan_capacity : seen (execEncMan (loaded chip [0, 0, 0, 0, 0, 0, 0, 0, 0])) = failed 0x34 0 := by decide

/-- LC-MAN-3 -/
theorem test_decMan : seen (execDecMan (loaded chip [1, 1, word (-1), word (-1)])) = wrote [0, 0] := by decide

/-- LC-MAN-5 -/
theorem test_decMan_shape : seen (execDecMan (loaded chip [5, 1, 1])) = failed 0x44 0 := by decide

/-- LC-DM-1 -/
theorem test_encDman : seen (execEncDman (loaded chip [1, 0, 1, 1, 0])) = wrote [1, -1, -1, 1, -1, 1, -1, 1, 1, -1] := by decide

/-- LC-DM-8 -/
theorem test_encDman_high : seen (execEncDman (loaded { chip with dmInit := .high } [1, 0, 1, 1, 0])) = wrote [-1, 1, 1, -1, 1, -1, 1, -1, -1, 1] := by decide

/-- LC-DM-7 -/
theorem test_decDman : seen (execDecDman (loaded chip [1, 1, word (-1), word (-1)])) = wrote [1, 1] := by decide

/-- LC-DM-9 -/
theorem test_decDman_high : seen (execDecDman (loaded { chip with dmInit := .high } [word (-1), 1, 1, word (-1), 1, word (-1), 1, word (-1), word (-1), 1])) = wrote [1, 0, 1, 1, 0] := by decide

/-- LC-LV-1 -/
theorem test_lvlNrz : seen (execLvlNrz (loaded chip [])) = wrote [-1, 1] := by decide

/-- LC-LV-1 -/
theorem test_lvlNrzl : seen (execLvlNrzl (loaded chip [])) = wrote [-1, 1] := by decide

/-- LC-LV-1 -/
theorem test_lvlNrzi : seen (execLvlNrzi (loaded chip [])) = wrote [-1, 1] := by decide

/-- LC-LV-1 -/
theorem test_lvlMan : seen (execLvlMan (loaded chip [])) = wrote [-1, 1] := by decide

/-- LC-LV-1 -/
theorem test_lvlDman : seen (execLvlDman (loaded chip [])) = wrote [-1, 1] := by decide

/-- LC-LV-2 -/
theorem test_lvlAmi : seen (execLvlAmi (loaded chip [])) = wrote [-1, 0, 1] := by decide

/-- LC-LV-2 -/
theorem test_lvlPst : seen (execLvlPst (loaded chip [])) = wrote [-1, 0, 1] := by decide

/-- LC-E-7 -/
theorem test_encNrz_unwritten : (match execEncNrz { loaded chip [0] with inLen := 2 } with
    | .fault f => some f
    | .next _ => none
    | .refused _ => none) = some (.unwritten (.elem .inB 1) (.elem .inB 1)) := by decide

/-- LC-E-4 -/
theorem test_encNrz_capIn : seen (execEncNrz { loaded chip [] with inLen := 17 }) = failed 0x34 0 := by decide

/-- LC-E-8: the failing command leaves OUT and OUT_LEN -/
theorem test_error_keeps_out : seen (execEncNrz { loaded chip [0, 7] with outBuf := buffer [1, word (-1)], outLen := 2 }) =
    some (0x54, 1, [some 1, some (word (-1))]) := by decide

/-! ### The modulation unit (95_test_vectors section 3), over an exact test format: a number is an integer count of
quarters, and angles are turns (π is 1/2 and the cosine is given at quarter turns), so every value below is exact -/

/-- The word 0x80000000 is no number. -/
def quarters : NumFmt Int where
  num w := if w = 0x80000000 then none else some (sint w)
  enc x := word x
  add := (· + ·)
  sub := (· - ·)
  mul x y := x * y / 4
  div x y := x * 4 / y
  abs x := if x < 0 then -x else x
  lt x y := decide (x < y)
  pi := 2
  ofInt i := 4 * i
  cos x := if x % 4 = 0 then 4 else if x % 4 = 2 then -4 else 0

/-- The word of a number of quarters. -/
def q (n : Int) : Word := word n

/-- A register written with a word, or unwritten since reset. -/
def held : Option Word → Held
  | some w => .of w
  | none => .atReset

/-- A modulator configuration: VARIANT, levels, parameters and the carrier registers. -/
def modem (v : Variant) (l p : List Word) (f a : Option Word) : State :=
  { State.resetWith chip with
    modCfg := { variant := v, k := BitVec.ofNat 2 l.length }
    lvl := { e0 := held l[0]?, e1 := held l[1]?, e2 := held l[2]? }
    par := { e0 := held p[0]?, e1 := held p[1]?, e2 := held p[2]? }
    modFreq := held f
    modAmp := held a }

/-- DF2 (95_test_vectors section 3): Default, levels −1, 1, parameters −1, 1. -/
def df2 : State := modem .dflt [word (-1), 1] [q (-4), q 4] none none

/-- ASK2: levels −1, 1, parameters 0.5, 1, frequency 1. -/
def ask2 : State := modem .ask [word (-1), 1] [q 2, q 4] (some (q 4)) none

/-- FSK2: levels −1, 1, parameters 1, 2, amplitude 1. -/
def fsk2 : State := modem .fsk [word (-1), 1] [q 4, q 8] none (some (q 4))

/-- Input buffers and lengths loaded. -/
def withInputs (s : State) (ins tins : List Word) : State :=
  { s with inBuf := buffer ins, inLen := BitVec.ofNat 32 ins.length,
           tinBuf := buffer tins, tinLen := BitVec.ofNat 32 tins.length }

/-- M-CF-9: no MOD_PAR is read -/
theorem test_mlvl : seen (execMlvl (modem .dflt [word (-1), 1] [] none none)) = wrote [-1, 1] := by decide

/-- M-CF-1, M-CF-2 -/
theorem test_mlvl_config : seen (execMlvl (State.resetWith chip)) = failed 0x24 0 ∧
    seen (execMlvl (modem .dflt [1, word (-1)] [] none none)) = failed 0x24 0 := by decide

/-- M-SG-2, in quarters -/
theorem test_sig_ask : seen (signalWith quarters (withInputs ask2 [] [q 0, q 1, q 2])) = wrote [2, 0, -2, 4, 0, -4] := by decide

/-- M-SG-4 -/
theorem test_sig_domain : seen (signalWith quarters (withInputs df2 [] [q 0, 0x80000000])) = failed 0x54 1 := by decide

/-- M-DF-1, in quarters: OUT and TOUT -/
theorem test_mod : (match modulateWith quarters .modDur
      { withInputs df2 [1, word (-1)] [] with modSps := 2, modDur := Held.of (q 4) } with
    | .next t => some ((List.range 4).map t.outBuf.read, (List.range 4).map t.toutBuf.read)
    | .fault _ => none
    | .refused _ => none) =
    some ([some (q 4), some (q 4), some (q (-4)), some (q (-4))], [some (q 0), some (q 1), some (q 2), some (q 3)]) := by decide

/-- M-DM-8 -/
theorem test_mod_alphabet : seen (modulateWith quarters .modDur
    { withInputs df2 [1, 0] [] with modSps := 2, modDur := Held.of (q 4) }) = failed 0x64 1 := by decide

/-- M-CF-8: MOD_DUR is unwritten and not read -/
theorem test_modDur_unread : seen (modulateWith quarters .argDur
    { df2 with modSps := 2, argDur := Held.of (q 4) }) = wrote [] := by decide

/-- M-CF-6 -/
theorem test_mod_duration : seen (modulateWith quarters .modDur { df2 with modSps := 2, modDur := Held.of (q 0) }) = failed 0x24 0 := by decide

/-- The fault record after a step that answered a next state. -/
def marks : Step → Option (List ModelFault)
  | .next t => some t.faults
  | .fault _ => none
  | .refused _ => none

/-- M-CF-7, M-DM-7: Unwritten at MOD_DUR, after ModConfig and before IN is looked at -/
theorem test_mod_unwritten :
    marks (modulateWith quarters .modDur { df2 with modSps := 2 }) = some [.unwritten (.reg .modDur)] ∧
    marks (modulateWith quarters .modDur { withInputs df2 [1, 0] [] with modSps := 2 }) =
      some [.unwritten (.reg .modDur)] := by decide

/-- 60_exceptions R282: of three unwritten levels, the first is marked -/
theorem test_unwritten_first : marks (execMlvl { modem .dflt [1, 2] [] none none with lvl := (State.resetWith chip).lvl }) =
    some [.unwritten (.reg (.modLvl 0))] := by decide

/-- M-ASK-2: the ties go to index 0 and the vote to −1 -/
theorem test_demod_ask : seen (demodulateWith quarters
    { withInputs ask2 [q 4, q 0, q (-4), q 0] [q 0, q 1, q 2, q 3] with modSps := 4 }) = wrote [-1] := by decide

/-- M-DM-2 -/
theorem test_demod_shape : seen (demodulateWith quarters
    { withInputs df2 [q 0, q 0, q 0, q 0] [q 0, q 0, q 0] with modSps := 2 }) = failed 0x44 0 := by decide

/-- M-MG-1, in quarters -/
theorem test_modg : seen (modulateGridWith quarters
    { withInputs df2 [1] [q 0, q 1, q 2] with modSps := 2 }) = wrote [4, 4, 0] := by decide

/-- M-MG-5 -/
theorem test_modg_absent : seen (modulateGridWith quarters { df2 with cfg := { chip with hasConvB := false } }) = failed 0x14 0 ∧
    seen (demodulateBinsWith quarters { df2 with cfg := { chip with hasConvB := false } }) = failed 0x14 0 := by decide

/-- M-DB-2, with 0.9 read as 0.75 -/
theorem test_demodb : seen (demodulateBinsWith quarters
    { withInputs ask2 [q 2, q (-2), q 0, q 4, q (-4), q 3] [] with argBins := 2 }) = wrote [-1, 1] := by decide

/-- M-DB-4 -/
theorem test_demodb_fsk : seen (demodulateBinsWith quarters
    { withInputs fsk2 [q 1, q (-3), q 4, q 1] [] with argBins := 2 }) = wrote [-1, -1] := by decide

/-- M-VT-1 to M-VT-8 -/
theorem test_vote : vote [2] = 2 ∧ vote [0, 1] = 0 ∧ vote [1, 0] = 0 ∧ vote [1, 2] = 2 ∧ vote [0, 2] = 1 ∧
    vote [0, 1, 1] = 1 ∧ vote [1, 0, 0] = 0 ∧ vote [0, 0, 1, 1] = 0 ∧ vote [0, 1, 2, 2] = 2 ∧ vote [0, 0, 2, 2] = 1 ∧
    vote [1, 1, 2, 2] = 2 ∧ vote [0, 0, 1, 2, 2] = 1 := by decide

/-- M-CL-1: 0.5 ties between entries 1 and 2 -/
theorem test_classify : classify quarters { lvl := [-1, 0, 1], par := [-4, 0, 4], carrier := .dflt } 2 0 = 1 := by decide

/-! ### The host interface -/

/-- 20_memory R84, litmus LT-2 -/
theorem test_busy_hazard : (match step { (State.resetWith chip).latch 1 with agenda := [rdo 0] } with
    | .fault f => some f
    | .next _ => none
    | .refused _ => none) = some (.hostHazard .busy) := by decide

/-- 10_state R34: a write of all ones reads back as 0x33 -/
theorem test_modCfg_reserved : ((State.resetWith chip).regWrite .modCfg 0xFFFFFFFF).regRead .modCfg = some 0x33 := by decide

/-- LT-1, the first two steps: the write of CMD latches, then the engine answers -/
theorem test_issue_runs : (match core.run 2 { loaded chip [1] with agenda := [issue .encNrz, .engine] } with
    | .next t => some (t.status.toWord, t.outBuf.read 0)
    | .fault _ => none
    | .refused _ => none) = some (0x02, some 1) := by decide

open Sys2Proof.Claims

/-! ### Witnesses: for each statement with hypotheses, states and operands that meet them all -/

/-- The state after a step that answers one. -/
def after (o : Step) (s : State) : State :=
  match o with
  | .next t => t
  | .fault _ => s
  | .refused _ => s

theorem holdsLevels_of {s : State} {l : List Int} (h : uint s.inLen = l.length)
    (h' : ∀ i (h : i < l.length), (s.inBuf.read i).map BitVec.toInt = some l[i]) : HoldsLevels s l :=
  ⟨h, fun i hi => by simpa using h' i hi⟩

theorem levelsBelow_of {s : State} {al : List Int} {k : Nat}
    (h : ∀ j, j < k → ((s.inBuf.read j).map fun w => decide (w.toInt ∈ al)) = some true) : LevelsBelow s al k :=
  fun j hj => by simpa using h j hj

theorem holdsTable_of {s : State} {l : List Int} (h : l.length = s.modCfg.k.toNat)
    (h' : ∀ i (h : i < l.length), (s.lvl.get (Fin.ofNat 3 i)).map BitVec.toInt = some l[i]) : HoldsTable s l :=
  ⟨h, fun i hi => by simpa only [Option.map_eq_some_iff] using h' i hi⟩

/-! #### The step and the line-code unit -/

/-- A latched word with the engine next: by an empty agenda, and by its turn. -/
def latched (w : Word) (ag : List Move) : State := { (loaded chip [1]).latch w with agenda := ag }

/-- IllegalIsRaisedExactlyByIllegalWords -/
theorem witness_illegal :
    (EngineNext (latched 0x71 []) [] ∧ (latched 0x71 []).status.busy = true ∧ legal chip.hasConvB 0x71 = false) ∧
    (EngineNext (latched 1 [.engine]) [] ∧ (latched 1 [.engine]).status.busy = true ∧ legal chip.hasConvB 1 = true ∧
      ∃ t, step (latched 1 [.engine]) = .next t) :=
  ⟨⟨.inl ⟨rfl, rfl⟩, rfl, by decide⟩, .inr rfl, rfl, by decide, _, rfl⟩

/-- StepRunsTheDecodedCommand, busy and idle -/
theorem witness_step :
    (EngineNext (latched 1 []) [] ∧ (latched 1 []).status.busy = true ∧ decode (latched 1 []).cmd = .ok .encNrz) ∧
    (EngineNext { loaded chip [1] with agenda := [.engine, .reset] } [.reset] ∧ (loaded chip [1]).status.busy = false) :=
  ⟨⟨.inl ⟨rfl, rfl⟩, rfl, by decide⟩, .inr rfl, rfl⟩

/-- BusyIsSetByCmdWriteAndClearedByEngineOrReset, StepKeepsParametersAndFaultRecord -/
theorem witness_busy :
    (∃ t, step { loaded chip [1] with agenda := [issue .encNrz] } = .next t ∧ t.status.busy = true) ∧
    (∃ t, step (latched 1 []) = .next t ∧ t.status.busy = false) ∧
    ∃ t, step (latched 1 [.reset]) = .next t ∧ t.status.busy = false :=
  ⟨⟨_, rfl, rfl⟩, ⟨_, rfl, rfl⟩, _, rfl, rfl⟩

/-- LatchedCommandCompletesWithinTheAgenda -/
theorem witness_latched : (latched 1 [rd .status, .engine]).status.busy = true := rfl

/-- A chip with 4 and 3 elements. -/
def tiny : Config := { chip with inMore := 3, outMore := 0 }

/-- The clauses of EncodesAs, in order, with one symbol a bit: the seven ENCODE statements share them. -/
theorem witness_encode_one :
    tiny.capIn < uint (5#32) ∧ (uint (4#32) ≤ tiny.capIn ∧ tiny.capOut < 1 * uint (4#32)) ∧
    (let s := loaded tiny [0, 1, 2]
     uint s.inLen ≤ s.cfg.capIn ∧ 1 * uint s.inLen ≤ s.cfg.capOut ∧ 2 < uint s.inLen ∧ BitsBelow s 2 ∧
      s.inBuf.read 2 = some 2#32 ∧ 2#32 ≠ 0#32 ∧ 2#32 ≠ 1#32) ∧
    (let s := { loaded tiny [0, 1] with inLen := 3#32 }
     uint s.inLen ≤ s.cfg.capIn ∧ 1 * uint s.inLen ≤ s.cfg.capOut ∧ 2 < uint s.inLen ∧ BitsBelow s 2 ∧
      s.inBuf.read 2 = none) ∧
    HoldsBits (loaded tiny [0, 1, 1]) [false, true, true] ∧ HoldsBits (loaded tiny []) [] := by
  unfold HoldsBits BitsBelow; decide

/-- The same with two symbols a bit. -/
theorem witness_encode_two :
    (uint (2#32) ≤ tiny.capIn ∧ tiny.capOut < 2 * uint (2#32)) ∧
    (let s := loaded tiny [2]
     uint s.inLen ≤ s.cfg.capIn ∧ 2 * uint s.inLen ≤ s.cfg.capOut ∧ 0 < uint s.inLen ∧ BitsBelow s 0 ∧
      s.inBuf.read 0 = some 2#32 ∧ 2#32 ≠ 0#32 ∧ 2#32 ≠ 1#32) ∧
    (let s := { loaded tiny [] with inLen := 1#32 }
     uint s.inLen ≤ s.cfg.capIn ∧ 2 * uint s.inLen ≤ s.cfg.capOut ∧ 0 < uint s.inLen ∧ BitsBelow s 0 ∧
      s.inBuf.read 0 = none) ∧
    HoldsBits (loaded tiny [1]) [true] ∧ 2 * [true].length ≤ tiny.capOut := by
  unfold HoldsBits BitsBelow; decide

/-- The clauses of DecodesAs, in order, with one symbol a bit and either alphabet. -/
theorem witness_decode_one : ∀ al ∈ [[-1, 1], [-1, 0, 1]],
    tiny.capIn < uint (5#32) ∧ (uint (4#32) ≤ tiny.capIn ∧ uint (4#32) % 1 = 0 ∧ tiny.capOut < uint (4#32) / 1) ∧
    (let s := loaded tiny [word (-1), 1, 2]
     uint s.inLen / 1 ≤ s.cfg.capOut ∧ 2 < uint s.inLen ∧ LevelsBelow s al 2 ∧ s.inBuf.read 2 = some 2#32 ∧
      (2#32).toInt ∉ al) ∧
    (let s := { loaded tiny [word (-1), 1] with inLen := 3#32 }
     uint s.inLen / 1 ≤ s.cfg.capOut ∧ 2 < uint s.inLen ∧ LevelsBelow s al 2 ∧ s.inBuf.read 2 = none) ∧
    HoldsLevels (loaded tiny [word (-1), 1]) [-1, 1] ∧ ∀ x ∈ [-1, 1], x ∈ al := by
  intro al hal
  refine ⟨by decide, by decide, ⟨by decide, by decide, levelsBelow_of ?_, by decide, ?_⟩,
    ⟨by decide, by decide, levelsBelow_of ?_, by decide⟩, holdsLevels_of (by decide) (by decide), ?_⟩ <;>
    revert al <;> decide

/-- The same with two symbols a bit; an odd length is the SHAPE clause. -/
theorem witness_decode_two :
    (uint (3#32) ≤ tiny.capIn ∧ uint (3#32) % 2 ≠ 0) ∧
    (uint (8#32) ≤ { tiny with inMore := 7 }.capIn ∧ uint (8#32) % 2 = 0 ∧ tiny.capOut < uint (8#32) / 2) ∧
    (let s := loaded tiny [1, 0]
     uint s.inLen % 2 = 0 ∧ uint s.inLen / 2 ≤ s.cfg.capOut ∧ 1 < uint s.inLen ∧ LevelsBelow s [-1, 1] 1 ∧
      s.inBuf.read 1 = some 0#32 ∧ (0#32).toInt ∉ [-1, 1]) ∧
    (let s := { loaded tiny [1] with inLen := 2#32 }
     uint s.inLen % 2 = 0 ∧ uint s.inLen / 2 ≤ s.cfg.capOut ∧ 1 < uint s.inLen ∧ LevelsBelow s [-1, 1] 1 ∧
      s.inBuf.read 1 = none) ∧
    HoldsLevels (loaded tiny [1, 1]) [1, 1] ∧ [1, 1].length % 2 = 0 :=
  ⟨by decide, by decide, ⟨by decide, by decide, by decide, levelsBelow_of (by decide), by decide, by decide⟩,
    ⟨by decide, by decide, by decide, levelsBelow_of (by decide), by decide⟩,
    holdsLevels_of (by decide) (by decide), by decide⟩

/-- EncodedLevelsAreInTheAlphabet, DecodeAfterEncodeRecoversTheBits, for each code: the state after ENCODE, and the same
after the host's copy. -/
theorem witness_encodeDecode : HoldsBits (loaded chip [1, 0]) [true, false] ∧ ∀ v,
    let t := after (exec (encRow v) (loaded chip [1, 0])) (loaded chip [1, 0])
    let u := { t with inBuf := t.outBuf, inLen := t.outLen }
    exec (encRow v) (loaded chip [1, 0]) = .next t ∧ t.status.done = true ∧ 1 < uint t.outLen ∧ CopiedOutToIn t u ∧
    u.cfg = chip ∧ symbolsPerBit v * 2 ≤ chip.capIn ∧ symbolsPerBit v * 2 < 2 ^ 32 := by
  refine ⟨by unfold HoldsBits; decide, fun v => ?_⟩
  cases v <;> exact ⟨rfl, by decide, by decide, ⟨rfl, fun _ _ => rfl⟩, rfl, by decide, by decide⟩

/-- AmiAndPseudoternaryMarksAlternate -/
theorem witness_ami : HoldsBits (loaded chip [1, 0, 1]) [true, false, true] ∧
    (∃ t, exec .encAmi (loaded chip [1, 0, 1]) = .next t ∧ t.status.done = true) ∧
    ∃ t, exec .encPst (loaded chip [1, 0, 1]) = .next t ∧ t.status.done = true :=
  ⟨by unfold HoldsBits; decide, ⟨_, rfl, by decide⟩, _, rfl, by decide⟩

/-- ManchesterIntervalsChangeSignInTheMiddle, its three clauses -/
theorem witness_manchester :
    (∀ i ∈ [Instr.encMan, .encDman], ∃ t, exec i (loaded chip [1, 0]) = .next t ∧ t.status.done = true) ∧
    (∀ p : Polarity, ∃ t, exec .encDman { loaded chip [1, 0] with cfg := { chip with dmInit := p } } = .next t ∧
      t.status.done = true) ∧
    HoldsLevels (loaded chip [1, word (-1)]) [1, -1] ∧
    HoldsLevels (loaded { chip with dmInit := .high } [word (-1), 1]) ([1, -1].map fun x => -x) ∧
    (∃ t, exec .decDman (loaded chip [1, word (-1)]) = .next t ∧ t.status.done = true) ∧
    ∃ t, exec .decDman (loaded { chip with dmInit := .high } [word (-1), 1]) = .next t := by
  refine ⟨?_, ?_, holdsLevels_of (by decide) (by decide), holdsLevels_of (by decide) (by decide), ⟨_, rfl, by decide⟩, _, rfl⟩
  · intro i hi
    simp only [List.mem_cons, List.not_mem_nil, or_false] at hi
    rcases hi with rfl | rfl <;> exact ⟨_, rfl, by decide⟩
  · intro p
    cases p <;> exact ⟨_, rfl, by decide⟩

/-! #### The modulation unit -/

/-- A configuration with 2 or 3 levels whose parameters and carrier numbers are all the word `w`. -/
def ready (v : Variant) (three : Bool) (w : Word) (s : State) : State :=
  { s with
    modCfg := { variant := v, k := if three then 3#2 else 2#2 }
    lvl := { e0 := .of (word (-1)), e1 := .of 1, e2 := if three then .of 5 else .atReset }
    par := { e0 := .of w, e1 := .of w, e2 := if three then .of w else .atReset }
    modFreq := .of w
    modAmp := .of w
    modSps := 2
    modDur := .of w
    argDur := .of w
    argBins := 1 }

/-- What it means where `w` is the number `x`. -/
def readyModem {Num : Type} (v : Variant) (three : Bool) (x : Num) : Modem Num where
  lvl := if three then [-1, 1, 5] else [-1, 1]
  par := if three then [x, x, x] else [x, x]
  carrier :=
    match v with
    | .dflt => .dflt
    | .ask => .ask x
    | .fsk => .fsk x
    | .psk => .psk x x

theorem ready_table (v : Variant) (three : Bool) (w : Word) (s : State) :
    HoldsTable (ready v three w s) (if three then [-1, 1, 5] else [-1, 1]) := by
  cases three
  · exact holdsTable_of rfl fun i hi => match i, hi with
      | 0, _ => rfl
      | 1, _ => rfl
  · exact holdsTable_of rfl fun i hi => match i, hi with
      | 0, _ => rfl
      | 1, _ => rfl
      | 2, _ => rfl

/-- The configuration passes every check, in any format in which `w` is a number. -/
theorem ready_configured {Num : Type} {F : NumFmt Num} {w : Word} {x : Num} (h : F.num w = some x) (v : Variant)
    (three : Bool) (s : State) : ConfiguredS F (ready v three w s) (readyModem v three x) 2 where
  conf :=
    { count := by cases three <;> simp [readyModem]
      table := ready_table v three w s
      ascending := by cases three <;> simp [readyModem]
      parCount := by cases three <;> rfl
      par := fun i hi => by
        cases three
        · match i, hi with
          | 0, _ => exact ⟨w, rfl, h⟩
          | 1, _ => exact ⟨w, rfl, h⟩
        · match i, hi with
          | 0, _ => exact ⟨w, rfl, h⟩
          | 1, _ => exact ⟨w, rfl, h⟩
          | 2, _ => exact ⟨w, rfl, h⟩
      carrier := by
        cases v
        · trivial
        · exact ⟨w, rfl, h⟩
        · exact ⟨w, rfl, h⟩
        · exact ⟨⟨w, rfl, h⟩, w, rfl, h⟩ }
  samples := rfl
  pos := by decide

theorem ready_modulate {Num : Type} {F : NumFmt Num} {w : Word} {x : Num} (h : F.num w = some x)
    (hp : F.lt (F.ofInt 0) x = true) (v : Variant) (three : Bool) (s : State) {r : Reg} (hr : r = .modDur ∨ r = .argDur) :
    ReadyToModulate F r (ready v three w s) (readyModem v three x) 2 x where
  conf := ready_configured h v three s
  dur := ⟨w, by rcases hr with rfl | rfl <;> rfl, h⟩
  pos := hp

/-- The three inputs the deliveries below run on: IN and TIN. -/
def inputs (ins tins : List Word) : State := withInputs (State.resetWith chip) ins tins

theorem holdsNums_of {Num : Type} {F : NumFmt Num} {w : Word} {x : Num} (h : F.num w = some x) (m : Memory) (n : Nat)
    (h' : ∀ i, i < n → m.read i = some w) : HoldsNums F m (List.replicate n x) :=
  fun i hi => ⟨w, h' i (by simpa using hi), by simpa using h⟩

/-- The hypotheses of the five results, in every format with a positive number, so in the chip's (Config.numFmt_usable),
for every variant and both table sizes: SignalWritesReferencesLevelMajor, ModulateWritesSamplesOverTheGrid,
DemodulateVotesNearestLevels, ModulateGridPadsWithZeros, DemodulateBinsMatchesWindowMedians. -/
theorem witness_results {Num : Type} (F : NumFmt Num) (hF : F.Usable) : ∃ w x, ∀ v three,
    let c := readyModem v three x
    let s := ready v three w (inputs [] [w, w])
    let t := ready v three w (inputs [1, word (-1)] [])
    let d := ready v three w (inputs [w, w] [w, w])
    let g := ready v three w (inputs [1] [w, w, w])
    let b := ready v three w (inputs [w, w] [])
    let e := ready v three w (inputs [] [])
    (Configured F s c ∧ uint s.tinLen = 2 ∧ HoldsNums F s.tinBuf (List.replicate 2 x) ∧
      c.lvl.length * 2 ≤ s.cfg.capOut ∧ 1 < c.par.length) ∧
    (ReadyToModulate F .modDur t c 2 x ∧ ReadyToModulate F .argDur t c 2 x ∧ HoldsLevels t [1, -1] ∧
      (∀ l ∈ [1, -1], l ∈ c.lvl) ∧ 2 * 2 ≤ t.cfg.capOut ∧ c.lvl[1]? = [1, -1][1 / 2]? ∧ 1 < c.par.length) ∧
    (ConfiguredS F d c 2 ∧ uint d.inLen = 2 * 1 ∧ uint d.tinLen = 2 * 1 ∧ HoldsNums F d.inBuf (List.replicate 2 x) ∧
      HoldsNums F d.tinBuf (List.replicate 2 x) ∧ 1 ≤ d.cfg.capOut) ∧
    (g.cfg.hasConvB = true ∧ ConfiguredS F g c 2 ∧ HoldsLevels g [1] ∧ uint g.tinLen = 3 ∧
      HoldsNums F g.tinBuf (List.replicate 3 x) ∧ 2 * 1 ≤ 3 ∧ 3 ≤ g.cfg.capOut ∧ c.lvl[1]? = [(1 : Int)][1 / 2]?) ∧
    (Configured F b c ∧ uint b.argBins = 1 ∧ uint b.inLen = 1 * 2 ∧ HoldsNums F b.inBuf (List.replicate (1 * 2) x) ∧
      1 ≤ b.cfg.capOut) ∧
    (Configured F e c ∧ uint e.argBins = 1 ∧ uint e.inLen = 1 * 0 ∧ HoldsNums F e.inBuf (List.replicate (1 * 0) x)) := by
  obtain ⟨w, x, hx, hp⟩ := hF
  refine ⟨w, x, fun v three => ⟨⟨(ready_configured hx v three _).conf, rfl, holdsNums_of hx _ 2 ?_, ?_, ?_⟩,
    ⟨ready_modulate hx hp v three _ (.inl rfl), ready_modulate hx hp v three _ (.inr rfl),
      holdsLevels_of rfl ?_, ?_, ?_, ?_, ?_⟩,
    ⟨ready_configured hx v three _, rfl, rfl, holdsNums_of hx _ 2 ?_, holdsNums_of hx _ 2 ?_, by show 1 ≤ 16; decide⟩,
    ⟨rfl, ready_configured hx v three _, holdsLevels_of rfl ?_, rfl, holdsNums_of hx _ 3 ?_, by decide, by show 3 ≤ 16; decide, ?_⟩,
    ⟨(ready_configured hx v three _).conf, rfl, rfl, holdsNums_of hx _ _ ?_, by show 1 ≤ 16; decide⟩,
    ⟨(ready_configured hx v three _).conf, rfl, rfl, holdsNums_of hx _ _ ?_⟩⟩⟩
  all_goals first
    | (cases three <;> simp [readyModem, ready, inputs, withInputs, chip, Config.capOut, State.resetWith]; done)
    | (intro i hi; interval_cases i <;> rfl)
    | (intro i hi; simp only [List.length_cons, List.length_nil] at hi; interval_cases i <;> rfl)

/-- The chip's own format. -/
theorem witness_chip_format : Config.numFmt.Usable ∧ quarters.Usable := ⟨Config.numFmt_usable, 4, 4, by decide, by decide⟩

/-- The word that is no number in `quarters`. -/
def bad : Word := 0x80000000

theorem configured_same {Num : Type} {F : NumFmt Num} {c : Modem Num} {s t : State} (h : Configured F s c)
    (hc : t.modCfg = s.modCfg) (hl : t.lvl = s.lvl) (hp : t.par = s.par) (hf : t.modFreq = s.modFreq)
    (ha : t.modAmp = s.modAmp) : Configured F t c where
  count := h.count
  table := by unfold HoldsTable; rw [hc, hl]; exact h.table
  ascending := h.ascending
  parCount := h.parCount
  par := by rw [hp]; exact h.par
  carrier := by unfold HoldsCarrier; rw [hc, hf, ha]; exact h.carrier

theorem quarter_four : quarters.num 4 = some 4 := by decide

/-- A full configuration in quarters: every parameter is 1. -/
def full (v : Variant) (three : Bool) (s : State) : State := ready v three 4 s

theorem full_configured (v : Variant) (three : Bool) (s : State) :
    ConfiguredS quarters (full v three s) (readyModem v three 4) 2 := ready_configured quarter_four v three s

theorem one_mem (v : Variant) (three : Bool) : (1#32).toInt ∈ (readyModem v three (4 : Int)).lvl := by
  cases three <;> simp [readyModem]

theorem zero_not_mem (v : Variant) (three : Bool) : (0#32).toInt ∉ (readyModem v three (4 : Int)).lvl := by
  cases three <;> simp [readyModem]

theorem numsBelow_of {F : NumFmt Int} {m : Memory} {k : Nat} (h : ∀ j, j < k → ((m.read j).bind F.num).isSome = true) :
    NumsBelow F m k := fun j hj => by
  obtain ⟨x, hx⟩ := Option.isSome_iff_exists.1 (h j hj)
  obtain ⟨w, hw, hn⟩ := Option.bind_eq_some_iff.1 hx
  exact ⟨w, x, hw, hn⟩

theorem paramsBelow_of {F : NumFmt Int} {s : State} {k : Nat}
    (h : ∀ j, j < k → ((s.par.get (Fin.ofNat 3 j)).bind F.num).isSome = true) : ParamsBelow F s k := fun j hj => by
  obtain ⟨x, hx⟩ := Option.isSome_iff_exists.1 (h j hj)
  obtain ⟨w, hw, hn⟩ := Option.bind_eq_some_iff.1 hx
  exact ⟨w, x, hw, hn⟩

/-- ConfigurationErrorsComeInOrder, MlevelsWritesTheTable: the clauses that raise, each at a boundary; on a chip without
convention B where the command needs none. -/
theorem witness_configuration_errors :
    (∀ k ∈ [0#2, 1#2], let s := { State.resetWith chip with modCfg := { variant := .dflt, k := k } }
      Config.hasConvB s.cfg = true ∧ s.modCfg.k ≠ 2#2 ∧ s.modCfg.k ≠ 3#2) ∧
    (HoldsTable (modem .dflt [1, 1] [] none none) [1, 1] ∧ ¬[(1 : Int), 1].Pairwise (· < ·)) ∧
    (∀ v three, HoldsTable (full v three (inputs [] [])) (if three then [-1, 1, 5] else [-1, 1])) ∧
    (let s := modem .dflt [word (-1), 1, 5] [q 4, q 4, bad] none none
     TablePasses s [-1, 1, 5] ∧ ParamsBelow quarters s 2 ∧ s.par.get (Fin.ofNat 3 2) = some bad ∧
      quarters.num bad = none) ∧
    (∀ e ∈ [(Variant.ask, some bad, none, Reg.modFreq), (.fsk, none, some bad, .modAmp), (.psk, some bad, none, .modFreq),
        (.psk, some (q 4), some bad, .modAmp)],
      let s := modem e.1 [word (-1), 1] [q 4, q 4] e.2.1 e.2.2.1
      TablePasses s [-1, 1] ∧ ParamsBelow quarters s 2 ∧ CarrierReaches quarters s e.2.2.2 ∧
        s.regRead e.2.2.2 = some bad) := by
  refine ⟨by decide, ⟨holdsTable_of rfl (by decide), by decide⟩, fun v three => ready_table v three _ _,
    ⟨⟨by decide, holdsTable_of rfl (by decide), by decide⟩, paramsBelow_of (by decide), rfl, by decide⟩, ?_⟩
  intro e he
  simp only [List.mem_cons, List.not_mem_nil, or_false] at he
  rcases he with rfl | rfl | rfl | rfl
  · exact ⟨⟨by decide, holdsTable_of rfl (by decide), by decide⟩, paramsBelow_of (by decide), .inl ⟨rfl, .inl rfl⟩, rfl⟩
  · exact ⟨⟨by decide, holdsTable_of rfl (by decide), by decide⟩, paramsBelow_of (by decide), .inr ⟨rfl, .inl rfl⟩, rfl⟩
  · exact ⟨⟨by decide, holdsTable_of rfl (by decide), by decide⟩, paramsBelow_of (by decide), .inl ⟨rfl, .inr rfl⟩, rfl⟩
  · exact ⟨⟨by decide, holdsTable_of rfl (by decide), by decide⟩, paramsBelow_of (by decide),
      .inr ⟨rfl, .inr ⟨rfl, q 4, 4, rfl, by decide⟩⟩, rfl⟩

/-- ConfigurationErrorsComeInOrder, MlevelsWritesTheTable: the clauses on an unwritten register, for the last level and
parameter and for each carrier register. -/
theorem witness_configuration_unwritten :
    (∀ v, let s := { modem v [word (-1), 1, 5] [] none none with
        lvl := { e0 := .of (word (-1)), e1 := .of 1, e2 := .atReset } }
      s.modCfg.k = 3#2 ∧ 2 < s.modCfg.k.toNat ∧ (∀ j, j < 2 → s.lvl.get (Fin.ofNat 3 j) ≠ none) ∧
        s.lvl.get (Fin.ofNat 3 2) = none) ∧
    (∀ v, let s := modem v [word (-1), 1] [q 4] none none
      TablePasses s [-1, 1] ∧ ParamsBelow quarters s 1 ∧ s.par.get (Fin.ofNat 3 1) = none) ∧
    (∀ e ∈ [(Variant.ask, none, Reg.modFreq), (.fsk, none, .modAmp), (.psk, none, .modFreq), (.psk, some (q 4), .modAmp)],
      let s := modem e.1 [word (-1), 1] [q 4, q 4] e.2.1 none
      TablePasses s [-1, 1] ∧ ParamsBelow quarters s 2 ∧ CarrierReaches quarters s e.2.2 ∧ s.regRead e.2.2 = none) := by
  refine ⟨fun v => by cases v <;> exact ⟨rfl, by decide, by decide, rfl⟩, fun v => by
    cases v <;> exact ⟨⟨by decide, holdsTable_of rfl (by decide), by decide⟩, paramsBelow_of (by decide), rfl⟩, ?_⟩
  intro e he
  simp only [List.mem_cons, List.not_mem_nil, or_false] at he
  rcases he with rfl | rfl | rfl | rfl
  · exact ⟨⟨by decide, holdsTable_of rfl (by decide), by decide⟩, paramsBelow_of (by decide), .inl ⟨rfl, .inl rfl⟩, rfl⟩
  · exact ⟨⟨by decide, holdsTable_of rfl (by decide), by decide⟩, paramsBelow_of (by decide), .inr ⟨rfl, .inl rfl⟩, rfl⟩
  · exact ⟨⟨by decide, holdsTable_of rfl (by decide), by decide⟩, paramsBelow_of (by decide), .inl ⟨rfl, .inr rfl⟩, rfl⟩
  · exact ⟨⟨by decide, holdsTable_of rfl (by decide), by decide⟩, paramsBelow_of (by decide),
      .inr ⟨rfl, .inr ⟨rfl, q 4, 4, rfl, by decide⟩⟩, rfl⟩

/-- SignalErrorsComeInOrder, ModulateErrorsComeInOrder, DemodulateErrorsComeInOrder, ModulateGridErrorsComeInOrder,
DemodulateBinsErrorsComeInOrder: the clauses on an unwritten element. The configuration is `full_configured`. -/
theorem witness_unwritten_elements (v : Variant) (three : Bool) (r : Reg) (hr : r = .modDur ∨ r = .argDur) :
    (let s := full v three { inputs [] [q 0] with tinLen := 2 }
     uint s.tinLen ≤ s.cfg.capIn ∧ 3 * uint s.tinLen ≤ s.cfg.capOut ∧ 1 < uint s.tinLen ∧ NumsBelow quarters s.tinBuf 1 ∧
      s.tinBuf.read 1 = none) ∧
    (let s := full v three { inputs [1] [] with inLen := 2 }
     ReadyToModulate quarters r s (readyModem v three 4) 2 4 ∧ uint s.inLen ≤ s.cfg.capIn ∧
      2 * uint s.inLen ≤ s.cfg.capOut ∧ 1 < uint s.inLen ∧ LevelsBelow s (readyModem v three (4 : Int)).lvl 1 ∧
      s.inBuf.read 1 = none) ∧
    (let s := full v three { inputs [q 1] [q 0, q 1] with inLen := 2 }
     uint s.tinLen = uint s.inLen ∧ uint s.inLen % 2 = 0 ∧ uint s.inLen / 2 ≤ s.cfg.capOut ∧ 1 < uint s.inLen ∧
      NumsBelow quarters s.inBuf 1 ∧ NumsBelow quarters s.tinBuf 1 ∧ s.inBuf.read 1 = none) ∧
    (let s := full v three { inputs [q 1, q 1] [q 0] with tinLen := 2 }
     uint s.tinLen = uint s.inLen ∧ NumsBelow quarters s.inBuf 1 ∧ NumsBelow quarters s.tinBuf 1 ∧
      (∃ w x, s.inBuf.read 1 = some w ∧ quarters.num w = some x) ∧ s.tinBuf.read 1 = none) ∧
    (let s := full v three { inputs [1] [q 0, q 1, q 2, q 3] with inLen := 2 }
     2 * uint s.inLen ≤ uint s.tinLen ∧ uint s.tinLen ≤ s.cfg.capOut ∧ 1 < uint s.inLen ∧
      LevelsBelow s (readyModem v three (4 : Int)).lvl 1 ∧ s.inBuf.read 1 = none) ∧
    (let s := full v three { inputs [1] [q 0] with tinLen := 2 }
     2 * uint s.inLen ≤ uint s.tinLen ∧ LevelsBelow s (readyModem v three (4 : Int)).lvl (uint s.inLen) ∧
      1 < uint s.tinLen ∧ NumsBelow quarters s.tinBuf 1 ∧ s.tinBuf.read 1 = none) ∧
    (let s := full v three { inputs [q 1] [] with inLen := 2 }
     uint s.argBins ≠ 0 ∧ uint s.inLen % uint s.argBins = 0 ∧ uint s.argBins ≤ s.cfg.capOut ∧ 1 < uint s.inLen ∧
      NumsBelow quarters s.inBuf 1 ∧ s.inBuf.read 1 = none) := by
  have h0 : NumsBelow quarters (buffer [q 0]) 1 := numsBelow_of (by decide)
  have h1 : NumsBelow quarters (buffer [q 1]) 1 := numsBelow_of (by decide)
  have h01 : NumsBelow quarters (buffer [q 0, q 1]) 1 := numsBelow_of (by decide)
  have h11 : NumsBelow quarters (buffer [q 1, q 1]) 1 := numsBelow_of (by decide)
  have hl : ∀ s : State, s.inBuf = buffer [1] → LevelsBelow s (readyModem v three (4 : Int)).lvl 1 := fun s hs j hj => by
    obtain rfl : j = 0 := by omega
    exact ⟨1#32, by rw [hs]; rfl, one_mem v three⟩
  exact ⟨⟨by show 2 ≤ 16; decide, by show 3 * 2 ≤ 16; decide, by show 1 < 2; decide, h0, rfl⟩,
    ⟨ready_modulate quarter_four (by decide) v three _ hr, by show 2 ≤ 16; decide, by show 2 * 2 ≤ 16; decide,
      by show 1 < 2; decide, hl _ rfl, rfl⟩,
    ⟨rfl, by show 2 % 2 = 0; decide, by show 2 / 2 ≤ 16; decide, by show 1 < 2; decide, h1,
      h01, rfl⟩,
    ⟨rfl, h11, h0, ⟨q 1, 1, rfl, by decide⟩, rfl⟩,
    ⟨by show 2 * 2 ≤ 4; decide, by show 4 ≤ 16; decide, by show 1 < 2; decide, hl _ rfl, rfl⟩,
    ⟨by show 2 * 1 ≤ 2; decide, hl _ rfl, by show 1 < 2; decide, h0, rfl⟩,
    by show 1 ≠ 0; decide, by show 2 % 1 = 0; decide, by show 1 ≤ 16; decide, by show 1 < 2; decide, h1, rfl⟩

/-- SignalErrorsComeInOrder -/
theorem witness_signal_errors (v : Variant) (three : Bool) :
    Configured quarters (full v three (inputs [] [])) (readyModem v three 4) ∧
    chip.capIn < uint (17#32) ∧ chip.capOut < 2 * uint (9#32) ∧ chip.capOut < 3 * uint (6#32) ∧
    (let s := full v three (inputs [] [q 0, bad])
     Configured quarters s (readyModem v three 4) ∧ uint s.tinLen ≤ s.cfg.capIn ∧ 1 < uint s.tinLen ∧
      NumsBelow quarters s.tinBuf 1 ∧ s.tinBuf.read 1 = some bad ∧ quarters.num bad = none) :=
  ⟨(full_configured v three _).conf, by decide, by decide, by decide, (full_configured v three _).conf,
    by show 2 ≤ 16; decide, by show 1 < 2; decide, numsBelow_of (m := (inputs [] [q 0, bad]).tinBuf) (by decide), rfl, by decide⟩

/-- ModulateErrorsComeInOrder -/
theorem witness_modulate_errors (v : Variant) (three : Bool) (r : Reg) (hr : r = .modDur ∨ r = .argDur) :
    (let s := { full v three (inputs [] []) with modSps := 0 }
     Configured quarters s (readyModem v three 4) ∧ uint s.modSps = 0) ∧
    (let s := { full v three (inputs [] []) with modDur := .atReset, argDur := .atReset }
     ConfiguredS quarters s (readyModem v three 4) 2 ∧ s.regRead r = none) ∧
    (∀ w ∈ [bad, q 0, q (-1)], let s := { full v three (inputs [] []) with modDur := .of w, argDur := .of w }
     ConfiguredS quarters s (readyModem v three 4) 2 ∧ s.regRead r = some w ∧
      ∀ d, quarters.num w = some d → quarters.lt (quarters.ofInt 0) d = false) ∧
    (let s := full v three { inputs [] [] with inLen := 9 }
     ReadyToModulate quarters r s (readyModem v three 4) 2 4 ∧ s.cfg.capOut < 2 * uint s.inLen) ∧
    (let s := full v three (inputs [1, 0] [])
     ReadyToModulate quarters r s (readyModem v three 4) 2 4 ∧ uint s.inLen ≤ s.cfg.capIn ∧
      2 * uint s.inLen ≤ s.cfg.capOut ∧ 1 < uint s.inLen ∧ LevelsBelow s (readyModem v three 4).lvl 1 ∧
      s.inBuf.read 1 = some 0#32 ∧ (0#32).toInt ∉ (readyModem v three (4 : Int)).lvl) := by
  have hc := full_configured v three (inputs [] [])
  refine ⟨⟨configured_same hc.conf rfl rfl rfl rfl rfl, rfl⟩,
    ⟨⟨configured_same hc.conf rfl rfl rfl rfl rfl, rfl, by decide⟩, by rcases hr with rfl | rfl <;> rfl⟩, fun w hw =>
    ⟨⟨configured_same hc.conf rfl rfl rfl rfl rfl, rfl, by decide⟩, by rcases hr with rfl | rfl <;> rfl, ?_⟩,
    ⟨ready_modulate quarter_four (by decide) v three _ hr, by show 16 < 2 * 9; decide⟩,
    ready_modulate quarter_four (by decide) v three _ hr, by show 2 ≤ 16; decide, by show 4 ≤ 16; decide,
    by show 1 < 2; decide, fun j hj => ?_, rfl, ?_⟩
  · simp only [List.mem_cons, List.not_mem_nil, or_false] at hw
    rcases hw with rfl | rfl | rfl
    · intro d hd
      have : quarters.num bad = none := by decide
      simp [this] at hd
    · intro d hd
      have : quarters.num (q 0) = some 0 := by decide
      rw [this] at hd; cases hd; decide
    · intro d hd
      have : quarters.num (q (-1)) = some (-1) := by decide
      rw [this] at hd; cases hd; decide
  · interval_cases j
    exact ⟨1#32, rfl, one_mem v three⟩
  · exact zero_not_mem v three

/-- Smaller capacities: CAP_IN = 16, CAP_OUT = 3. -/
def narrow (s : State) : State := { s with cfg := { chip with outMore := 0 } }

/-- DemodulateErrorsComeInOrder -/
theorem witness_demodulate_errors (v : Variant) (three : Bool) :
    (let s := { full v three (inputs [] []) with modSps := 0 }
     Configured quarters s (readyModem v three 4) ∧ uint s.modSps = 0) ∧
    (∀ s, ConfiguredS quarters (full v three s) (readyModem v three 4) 2) ∧ chip.capIn < uint (17#32) ∧
    (uint (2#32) ≤ chip.capIn ∧ uint (3#32) ≠ uint (2#32) ∧ uint (3#32) % 2 ≠ 0) ∧
    (let s := full v three (narrow { inputs [] [] with inLen := 8, tinLen := 8 })
     uint s.inLen ≤ s.cfg.capIn ∧ uint s.tinLen = uint s.inLen ∧ uint s.inLen % 2 = 0 ∧
      s.cfg.capOut < uint s.inLen / 2) ∧
    (let s := full v three (inputs [q 1, bad] [q 0, q 1])
     uint s.tinLen = uint s.inLen ∧ uint s.inLen % 2 = 0 ∧ uint s.inLen / 2 ≤ s.cfg.capOut ∧ 1 < uint s.inLen ∧
      NumsBelow quarters s.inBuf 1 ∧ NumsBelow quarters s.tinBuf 1 ∧ s.inBuf.read 1 = some bad ∧
      quarters.num bad = none) ∧
    (let s := full v three (inputs [q 1, q 4] [q 0, bad])
     NumsBelow quarters s.inBuf 1 ∧ NumsBelow quarters s.tinBuf 1 ∧
      (∃ v x, s.inBuf.read 1 = some v ∧ quarters.num v = some x) ∧ s.tinBuf.read 1 = some bad) :=
  ⟨⟨configured_same (full_configured v three (inputs [] [])).conf rfl rfl rfl rfl rfl, rfl⟩,
    full_configured v three, by decide, by decide, by show 8 ≤ 16 ∧ 8 = 8 ∧ 8 % 2 = 0 ∧ 3 < 8 / 2; decide,
    ⟨rfl, by show 2 % 2 = 0; decide, by show 2 / 2 ≤ 16; decide, by show 1 < 2; decide,
      numsBelow_of (m := (inputs [q 1, bad] []).inBuf) (by decide), numsBelow_of (m := (inputs [] [q 0, q 1]).tinBuf) (by decide),
      rfl, by decide⟩,
    numsBelow_of (m := (inputs [q 1, q 4] []).inBuf) (by decide), numsBelow_of (m := (inputs [] [q 0, bad]).tinBuf) (by decide),
    ⟨q 4, 4, rfl, by decide⟩, rfl⟩

/-- ModulateGridErrorsComeInOrder, but for the clauses on MOD_SPS and the input lengths, which are those above. -/
theorem witness_modulateGrid_errors (v : Variant) (three : Bool) :
    (inputs [] []).cfg.hasConvB = true ∧ { chip with hasConvB := false }.hasConvB = false ∧
    (∀ s, ConfiguredS quarters (full v three s) (readyModem v three 4) 2) ∧
    (let s := full v three (inputs [1] [q 0])
     uint s.inLen ≤ s.cfg.capIn ∧ uint s.tinLen ≤ s.cfg.capIn ∧ uint s.tinLen < 2 * uint s.inLen) ∧
    (let s := full v three (narrow { inputs [] [] with inLen := 2, tinLen := 4 })
     2 * uint s.inLen ≤ uint s.tinLen ∧ uint s.tinLen ≤ s.cfg.capIn ∧ s.cfg.capOut < uint s.tinLen) ∧
    (let s := full v three (inputs [1, 0] [q 0, q 1, q 2, q 3])
     2 * uint s.inLen ≤ uint s.tinLen ∧ uint s.tinLen ≤ s.cfg.capOut ∧ 1 < uint s.inLen ∧
      LevelsBelow s (readyModem v three (4 : Int)).lvl 1 ∧ s.inBuf.read 1 = some 0#32 ∧
      (0#32).toInt ∉ (readyModem v three (4 : Int)).lvl) ∧
    (let s := full v three (inputs [1] [q 0, bad])
     2 * uint s.inLen ≤ uint s.tinLen ∧ uint s.tinLen ≤ s.cfg.capOut ∧
      LevelsBelow s (readyModem v three (4 : Int)).lvl (uint s.inLen) ∧ 1 < uint s.tinLen ∧
      NumsBelow quarters s.tinBuf 1 ∧ s.tinBuf.read 1 = some bad ∧ quarters.num bad = none) := by
  refine ⟨rfl, rfl, full_configured v three, by show 1 ≤ 16 ∧ 1 ≤ 16 ∧ 1 < 2 * 1; decide,
    by show 2 * 2 ≤ 4 ∧ 4 ≤ 16 ∧ 3 < 4; decide,
    ⟨by show 2 * 2 ≤ 4; decide, by show 4 ≤ 16; decide, by show 1 < 2; decide, fun j hj => ?_, rfl, zero_not_mem v three⟩,
    by show 2 * 1 ≤ 2; decide, by show 2 ≤ 16; decide, fun j hj => ?_, by show 1 < 2; decide,
    numsBelow_of (m := (inputs [] [q 0, bad]).tinBuf) (by decide), rfl, by decide⟩
  · interval_cases j
    exact ⟨1#32, rfl, one_mem v three⟩
  · have hj : j < 1 := hj
    interval_cases j
    exact ⟨1#32, rfl, one_mem v three⟩

/-- DemodulateBinsErrorsComeInOrder -/
theorem witness_demodulateBins_errors (v : Variant) (three : Bool) :
    (let s := { full v three (inputs [] []) with argBins := 0 }
     Configured quarters s (readyModem v three 4) ∧ uint s.argBins = 0) ∧
    (∀ b, let s := { full v three (inputs [q 1, q 1, q 1, q 1, bad] []) with argBins := b }
     Configured quarters s (readyModem v three 4) ∧ s.cfg.hasConvB = true) ∧
    (uint (1#32) ≠ 0 ∧ chip.capIn < uint (17#32)) ∧ (uint (2#32) ≠ 0 ∧ uint (5#32) % uint (2#32) ≠ 0) ∧
    (uint (4#32) ≠ 0 ∧ uint (4#32) ≤ chip.capIn ∧ uint (4#32) % uint (4#32) = 0 ∧
      { chip with outMore := 0 }.capOut < uint (4#32)) ∧
    (let s := { full v three (inputs [q 1, q 1, q 1, q 1, bad] []) with argBins := 5 }
     uint s.inLen ≤ s.cfg.capIn ∧ uint s.inLen % uint s.argBins = 0 ∧ uint s.argBins ≤ s.cfg.capOut ∧ 4 < uint s.inLen ∧
      NumsBelow quarters s.inBuf 4 ∧ s.inBuf.read 4 = some bad ∧ quarters.num bad = none) :=
  ⟨⟨configured_same (full_configured v three (inputs [] [])).conf rfl rfl rfl rfl rfl, rfl⟩, fun b =>
    ⟨configured_same (full_configured v three (inputs [q 1, q 1, q 1, q 1, bad] [])).conf rfl rfl rfl rfl rfl, rfl⟩,
    by decide, by decide, by decide, by show 5 ≤ 16; decide, by show 5 % 5 = 0; decide, by show 5 ≤ 16; decide, by show 4 < 5; decide,
    numsBelow_of (m := (inputs [q 1, q 1, q 1, q 1, bad] []).inBuf) (by decide), rfl, by decide⟩

/-- A format over exact reals in which the small integers are their own words. -/
theorem exact_format : ∃ F : NumFmt ℝ, F.Exact ∧ F.Usable ∧ F.num 2 = some 2 ∧ F.num (F.enc 0) = some 0 ∧
    F.num (F.enc 1) = some 1 ∧ F.num (F.enc 2) = some 2 := by
  classical
  refine ⟨{ num := fun w => some (w.toInt : ℝ), enc := fun x => word ⌊x⌋, add := (· + ·), sub := (· - ·),
            mul := (· * ·), div := (· / ·), abs := fun x => |x|, lt := fun x y => decide (x < y), pi := Real.pi,
            ofInt := fun i => (i : ℝ), cos := Real.cos }, ?_, ⟨2, 2, ?_, ?_⟩, ?_, ?_, ?_, ?_⟩
  · constructor <;> simp
  · simp
  · simp
  all_goals simp [word]

/-- GridIsUniformFromZero, ClassifyPicksTheLeastNearestIndex, ReferenceWaveformsFollowTheirFormulas -/
theorem witness_exact (v : Variant) (three : Bool) : (∃ F : NumFmt ℝ, F.Exact) ∧ (0 : ℝ) < 1 ∧
    (readyModem v three (1 : ℝ)).par ≠ [] :=
  ⟨exact_format.imp fun _ h => h.1, one_pos, by cases three <;> simp [readyModem]⟩

/-- VoteIsTheMedianRoundedHalfToEven: an odd count, and an even one with an even and an odd sum -/
theorem witness_vote :
    ([2, 0, 1] ≠ ([] : List Nat) ∧ [0, 1, 2].Perm [2, 0, 1] ∧ [0, 1, 2].Pairwise (· ≤ ·)) ∧
    ([2, 0] ≠ ([] : List Nat) ∧ [0, 2].Perm [2, 0] ∧ [0, 2].Pairwise (· ≤ ·)) ∧
    ([1, 0] ≠ ([] : List Nat) ∧ [0, 1].Perm [1, 0] ∧ [0, 1].Pairwise (· ≤ ·)) := by decide

/-- MedianIsMiddleOrMeanOfMiddles: an odd and an even count -/
theorem witness_median : (∃ F : NumFmt ℝ, F.Exact) ∧ ([3] : List ℝ) ≠ [] ∧ [(3 : ℝ)].Perm [3] ∧ [(3 : ℝ)].Pairwise (· ≤ ·) ∧
    [(1 : ℝ), 2].Perm [2, 1] ∧ [(1 : ℝ), 2].Pairwise (· ≤ ·) :=
  ⟨exact_format.imp fun _ h => h.1, by simp, .refl _, by simp, .swap _ _ _, by simp⟩

theorem ready_modConfig {Num : Type} {F : NumFmt Num} {w : Word} {x : Num} (h : F.num w = some x) (v : Variant)
    (three : Bool) (s : State) : (ready v three w s).modConfig F = .ok (readyModem v three x) := by
  have hc := (ready_configured h v three s).conf
  refine modConfig_eq_ok.2 ⟨modLevels_eq_ok.2 ⟨by cases three <;> simp [ready], hc.table.1, hc.table.2, hc.ascending⟩,
    modParams_eq_ok.2 ⟨hc.parCount.trans hc.table.1, hc.par, ?_⟩⟩
  cases v
  · trivial
  · exact ⟨w, rfl, h⟩
  · exact ⟨w, rfl, h⟩
  · exact ⟨⟨w, rfl, h⟩, w, rfl, h⟩

/-- BinsOfFskAndPskTakeTheLowestLevel -/
theorem witness_bins (v : Variant) (hv : v = .fsk ∨ v = .psk) (three : Bool) : ∃ (F : NumFmt ℝ) (x : ℝ) (t : State),
    F.Exact ∧ (let s := ready v three 2 (inputs [2] [])
      Configured F s (readyModem v three x) ∧ (s.modCfg.variant = .fsk ∨ s.modCfg.variant = .psk) ∧
      (readyModem v three x).lvl[0]? = some (-1) ∧ demodulateBinsWith F s = .next t ∧ t.status.done = true ∧
      0 < uint t.outLen) := by
  obtain ⟨F, hF, -, h2, -⟩ := exact_format
  have hb : ∃ r, demodulateBinsBody F (ready v three 2 (inputs [2] [])) = .ok r ∧ r.out.length = 1 :=
    ⟨_, demodulateBinsBody_eq_ok.2 ⟨_, ready_modConfig h2 v three _, by show 1 ≠ 0; decide, by show 1 ≤ 16; decide,
      .inr ⟨by show 1 ≠ 0; decide, by show 1 % 1 = 0; decide, by show 1 ≤ 16; decide, [2],
        collect_eq_ok.2 ⟨rfl, fun i hi => ?_⟩, rfl⟩⟩, ?_⟩
  · obtain ⟨r, hr, hl⟩ := hb
    refine ⟨F, 2, _, hF, (ready_configured h2 v three _).conf, hv, by cases three <;> simp [readyModem],
      by rw [demodulateBinsWith, convB_eq]; exact finish_ok hr, rfl, ?_⟩
    show 0 < uint (lenWord r.out.length)
    rw [hl]; decide
  · obtain rfl : i = 0 := by simpa using hi
    exact fetchNum_eq_ok.2 ⟨2, rfl, h2⟩
  · show (List.map _ (groups _ 1 _)).length = 1
    simp

/-- DemodulateRecoversUnambiguousSymbols: S = 2 and the lowest level, which no tie can move -/
theorem witness_recovers (three : Bool) (reg : Reg) (hr : reg = .modDur ∨ reg = .argDur) :
    ∃ (F : NumFmt ℝ) (t u : State), F.Exact ∧ (let s := ready .dflt three 2 (inputs [word (-1)] [])
      let c := readyModem .dflt three (2 : ℝ)
      ReadyToModulate F reg s c 2 2 ∧ HoldsLevels s [-1] ∧ (∀ x ∈ [(-1 : Int)], x ∈ c.lvl) ∧
      modulateWith F reg s = .next t ∧ t.status.done = true ∧ CopiedOutToIn t u ∧ CopiedToutToTin t u ∧ u.cfg = s.cfg ∧
      ConfiguredS F u c 2 ∧ 2 * 1 ≤ s.cfg.capIn ∧
      (∀ k p, k < 2 * 1 → p ∈ c.par →
        F.num (F.enc (gridPoint F s.cfg.gridEndpoint (2 * 1) 2 k)) = some (gridPoint F s.cfg.gridEndpoint (2 * 1) 2 k) ∧
        F.num (F.enc (refAt F c.carrier p (gridPoint F s.cfg.gridEndpoint (2 * 1) 2 k))) =
          some (refAt F c.carrier p (gridPoint F s.cfg.gridEndpoint (2 * 1) 2 k))) ∧ c.lvl[0]? = some (-1)) := by
  obtain ⟨F, hF, -, h2, e0, e1, e2⟩ := exact_format
  have hp : F.lt (F.ofInt 0) 2 = true := by rw [hF.lt, hF.ofInt]; norm_num
  have hm := ready_modulate h2 hp .dflt three (inputs [word (-1)] []) hr
  have hb : ∃ r, modulateBody F reg (ready .dflt three 2 (inputs [word (-1)] [])) = .ok r :=
    ⟨_, modulateBody_eq_ok.2 ⟨_, 2, 2, modConfigS_eq_ok.2 ⟨ready_modConfig h2 .dflt three _,
      modSamples_eq_ok.2 ⟨rfl, by decide⟩⟩, duration_eq_ok.2 ⟨hm.dur, hp⟩, by show 1 ≤ 16; decide,
      by show 2 * 1 ≤ 16; decide, [2], collect_eq_ok.2 ⟨rfl, fun i hi => ?_⟩, rfl⟩⟩
  · obtain ⟨r, hr'⟩ := hb
    refine ⟨F, (ready .dflt three 2 (inputs [word (-1)] [])).succeed r,
      { (ready .dflt three 2 (inputs [word (-1)] [])).succeed r with
        inBuf := ((ready .dflt three 2 (inputs [word (-1)] [])).succeed r).outBuf
        inLen := ((ready .dflt three 2 (inputs [word (-1)] [])).succeed r).outLen
        tinBuf := ((ready .dflt three 2 (inputs [word (-1)] [])).succeed r).toutBuf
        tinLen := ((ready .dflt three 2 (inputs [word (-1)] [])).succeed r).outLen },
      hF, hm, holdsLevels_of rfl (fun i hi => ?_), ?_, finish_ok hr', rfl, ⟨rfl, fun _ _ => rfl⟩,
      ⟨rfl, fun _ _ => rfl⟩, rfl, ⟨configured_same hm.conf.conf rfl rfl rfl rfl rfl, rfl, by decide⟩, by show 2 ≤ 16; decide, ?_,
      by cases three <;> rfl⟩
    · obtain rfl : i = 0 := by simpa using hi
      rfl
    · intro l hl; cases three <;> simp_all [readyModem]
    · intro k p hk hp
      obtain rfl : p = 2 := by cases three <;> simpa [readyModem] using hp
      have hg : gridPoint F (ready .dflt three 2 (inputs [word (-1)] [])).cfg.gridEndpoint (2 * 1) 2 k = k := by
        show F.div (F.mul (F.ofInt k) 2) (F.ofInt ((2 * 1 : Nat) : Int)) = k
        rw [hF.div, hF.mul, hF.ofInt, hF.ofInt]
        push_cast; ring
      rw [hg]
      refine ⟨?_, e2⟩
      interval_cases k
      · simpa using e0
      · simpa using e1
  · obtain rfl : i = 0 := by simpa using hi
    refine fetchSymbol_eq_ok.2 ⟨word (-1), rfl, ?_⟩
    cases three <;> rfl

/-! #### All commands -/

/-- CommandEndsInSuccessOrPreciseError, ErrorIndexNamesAnInputElement, CommandWritesOnlyItsOutputs,
EstateIsSetOnlyByTheDifferentialCommands: a command that succeeds with and without times, and one that ends in each
error but ALPHABET. -/
theorem witness_commands :
    (∃ t, exec .encDman (loaded chip [1]) = .next t ∧ t.status.done = true) ∧
    (∃ t, exec .decMan (loaded chip [1, 1]) = .next t ∧ t.status.done = true) ∧
    (∃ t, exec .modg { loaded chip [] with cfg := { chip with hasConvB := false } } = .next t ∧ t.status.ecode = some .illegal) ∧
    (∃ t, exec .mlvl (loaded chip []) = .next t ∧ t.status.ecode = some .config) ∧
    (∃ t, exec .encNrz { loaded chip [] with inLen := 17 } = .next t ∧ t.status.ecode = some .capacity) ∧
    (∃ t, exec .decMan (loaded chip [1]) = .next t ∧ t.status.ecode = some .shape) ∧
    (∃ t, exec .encAmi (loaded chip [0, 2]) = .next t ∧ t.status.ecode = some .domain) :=
  ⟨⟨_, rfl, rfl⟩, ⟨_, rfl, rfl⟩, ⟨_, rfl, rfl⟩, ⟨_, rfl, rfl⟩, ⟨_, rfl, rfl⟩, ⟨_, rfl, rfl⟩, _, rfl, rfl⟩

/-- The same for a command that writes times, and for ALPHABET, on the chip's own format. -/
theorem witness_times : ∃ w, (∃ t, exec .mod (ready .dflt false w (inputs [1] [])) = .next t ∧ t.status.done = true) ∧
    ∃ t, exec .mod (ready .dflt false w (inputs [0] [])) = .next t ∧ t.status.ecode = some .alphabet := by
  obtain ⟨w, x, hx, hp⟩ := Config.numFmt_usable
  refine ⟨w, ?_, ?_⟩
  · have hb : ∃ r, modulateBody Config.numFmt .modDur (ready .dflt false w (inputs [1] [])) = .ok r :=
      ⟨_, modulateBody_eq_ok.2 ⟨_, 2, x, modConfigS_eq_ok.2 ⟨ready_modConfig hx .dflt false _,
        modSamples_eq_ok.2 ⟨rfl, by decide⟩⟩, duration_eq_ok.2 ⟨⟨w, rfl, hx⟩, hp⟩, by show 1 ≤ 16; decide,
        by show 2 * 1 ≤ 16; decide, [x], collect_eq_ok.2 ⟨rfl, fun i hi => by
          obtain rfl : i = 0 := by simpa using hi
          exact fetchSymbol_eq_ok.2 ⟨1, rfl, rfl⟩⟩, rfl⟩⟩
    obtain ⟨r, hr⟩ := hb
    exact ⟨_, finish_ok hr, rfl⟩
  · have hb : modulateBody Config.numFmt .modDur (ready .dflt false w (inputs [0] [])) = .error (.err .alphabet 0) := by
      have h1 := modConfigS_eq_ok.2 ⟨ready_modConfig hx .dflt false (inputs [0] []), modSamples_eq_ok.2 ⟨rfl, by show 2 ≠ 0; decide⟩⟩
      have h2 : duration Config.numFmt .modDur (ready .dflt false w (inputs [0] [])) = .ok x :=
        duration_eq_ok.2 ⟨⟨w, rfl, hx⟩, hp⟩
      rw [modulateBody, h1]
      simp only [ok_bind, h2]
      rfl
    exact ⟨_, finish_err hb, rfl⟩

/-- CommandDependsOnlyOnWhatItReads: two states that differ in ESTATE, CMD, OUT, the platform's parameters and more. -/
theorem witness_depends (i : Instr) (s : State) : AgreeOnReads i s
    { s with cfg := { s.cfg with coreBase := 7 }, cmd := 0x77, estate := 1, outBuf := [], outLen := 0, eidx := 9 } := by
  constructor <;> intros <;> first | rfl | exact ⟨rfl, fun _ _ => rfl⟩

/-! #### The host interface, reset and the invariant -/

/-- An idle core with one host access to come. -/
def idle (a : Access) : State := { loaded chip [1] with agenda := [.host a] }

/-- CmdWriteLatchesTheCommand, MalformedAndReservedAccessesAreHazards, RegisterWritesStoreAndReadBack,
RegisterReadsAnswerAndMark, BufferAccessesReachOneElement: the premise, for every access. -/
theorem witness_idle (a : Access) : HostNext (idle a) a [] := ⟨rfl, rfl⟩

/-- The clauses of the four: the first and last offsets that are none of a register, one that is no multiple of 4, a
narrow access; a register that holds a word and one that holds none; the last index and the first beyond it. -/
theorem witness_idle_clauses :
    ((2 : Nat) ≠ 4 ∧ 0x02 % 4 ≠ 0) ∧ (0x34 % 4 = 0 ∧ 0x50 % 4 = 0 ∧ 0xFFC % 4 = 0 ∧ 0xFFC < 0x1000) ∧
    (∀ r ∈ [Reg.status, .eidx, .outLen, .modCfg, .inLen, .modPar 2], r ≠ .cmd) ∧
    (idle (.readReg 0x0C 4)).regRead .inLen = some 1 ∧ (idle (.readReg 0x28 4)).regRead .modFreq = none ∧
    capOf (idle (.readBuf .inB 16)).cfg .inB ≤ 16 ∧ 15 < capOf (idle (.readBuf .inB 15)).cfg .inB ∧
    ((idle (.readBuf .inB 15)).buf .inB).read 15 = none ∧ ((idle (.readBuf .inB 0)).buf .inB).read 0 = some 1 := by decide

/-- BusyAdmitsOnlyStatusReads, both clauses -/
theorem witness_busy_access : (latched 1 [rd .status]).status.busy = true ∧
    (latched 1 [rd .status]).agenda = .host (.readReg 0x04 4) :: [] ∧ (latched 1 [rdo 0]).agenda = .host (.readBuf .out 0) :: [] ∧
    Access.readBuf .out 0 ≠ .readReg 0x04 4 := by decide

/-- ResetLeavesTheListedValues -/
theorem witness_reset : (latched 1 [.reset]).agenda = .reset :: [] ∧ ∃ t, step (latched 1 [.reset]) = .next t := ⟨rfl, _, rfl⟩

/-- EveryStepKeepsTheInvariant -/
theorem witness_invariant : Inv (latched 1 []) ∧ ∃ t, step (latched 1 []) = .next t :=
  ⟨⟨by decide, by decide, fun j hj => absurd hj (by show ¬j < 0; omega), by decide, by decide, fun _ => rfl, .inl rfl⟩, _, rfl⟩

/-- LitmusAccessAfterCmdWrite: with the engine's step between the two accesses and without, for any access, and the two
schedules of LT-2 and LT-4. -/
theorem witness_litmus : (∀ (v : Word) (a : Access) (p q : Nat),
      let s := { loaded chip [1] with
        agenda := List.replicate p Move.engine ++ wr .cmd v :: (List.replicate q Move.engine ++ Move.host a :: []) }
      s.status.busy = false ∧
        s.agenda = List.replicate p Move.engine ++ wr .cmd v :: (List.replicate q Move.engine ++ Move.host a :: [])) ∧
    HoldsBits (loaded chip [1]) [true] ∧ (loaded chip [1]).status.busy = false ∧
    (∀ a ∈ [rdo 0, wri 0 7], ∀ ag ∈ [[issue .encNrz, .engine, a], [issue .encNrz, a]],
      Move.reset ∉ ag ∧ hostMoves ag = [issue .encNrz, a]) := by
  refine ⟨fun _ _ _ _ => ⟨rfl, rfl⟩, ?_⟩
  unfold HoldsBits; decide

end Sys2Proof.Tests
end

section
/-! What the commands of 10_state leave and depend on: the word of STATUS (R36), what a command writes (R58), and what
its answer depends on (R54). -/

open Sys2Proof Sys2Proof.Machine Sys2Proof.Claims

/-! ### The word of STATUS -/

namespace Sys2Proof.Machine

/-- The layout of 10_state R36: BUSY, DONE, ERR and a reserved bit, and above them the code. -/
theorem Status.getLsbD_toWord (f : Status) (k : Nat) :
    f.toWord.getLsbD k = ([f.busy, f.done, f.err, false][k]?).getD ((ecodeBits f.ecode).getLsbD (k - 4)) := by
  change BitVec.getLsbD (w := 24 + 4 + 1 + 1 + 1 + 1) (0#24 ++ ecodeBits f.ecode ++ 0#1 ++ BitVec.ofBool f.err ++
    BitVec.ofBool f.done ++ BitVec.ofBool f.busy) k = _
  simp only [BitVec.getLsbD_append]
  match k with
  | 0 => simp
  | 1 => simp
  | 2 => simp
  | 3 => simp
  | k + 4 =>
    by_cases hk : k < 4
    · simp [hk]
    · have h := BitVec.getLsbD_of_ge (ecodeBits f.ecode) k (by omega)
      simp [hk, h]

/-- Bits 7:4 of the word are the code. -/
theorem Status.extractLsb'_toWord_ecode (f : Status) : f.toWord.extractLsb' 4 4 = ecodeBits f.ecode :=
  BitVec.eq_of_getLsbD_eq fun k hk => by
    simp [Status.getLsbD_toWord, hk]

/-- Bits 31:8 of the word are 0. -/
theorem Status.extractLsb'_toWord_reserved (f : Status) : f.toWord.extractLsb' 8 24 = 0#24 :=
  BitVec.eq_of_getLsbD_eq fun k hk => by
    have h := BitVec.getLsbD_of_ge (ecodeBits f.ecode) (8 + k - 4) (by omega)
    rw [BitVec.getLsbD_extractLsb', Status.getLsbD_toWord, List.getElem?_eq_none (by simp; omega), Option.getD_none, h]
    simp

end Sys2Proof.Machine

/-- Settles O50: each bit and field from the layout of the word. -/
theorem statusWordPacksTheFlags : Obligations.StatusWordPacksTheFlags := by
  unfold Obligations.StatusWordPacksTheFlags
  intro s
  have bit (k : Nat) (hk : k < 32) := (s.status.toWord.getLsbD_eq_getElem hk).symm.trans (s.status.getLsbD_toWord k)
  refine ⟨s.status.toWord, rfl, bit 0 (by decide), bit 1 (by decide), bit 2 (by decide), bit 3 (by decide),
    s.status.extractLsb'_toWord_reserved, s.status.extractLsb'_toWord_ecode.trans ?_⟩
  cases s.status.ecode with
  | none => rfl
  | some e => cases e <;> rfl

/-! ### What a command writes -/

namespace Sys2Proof.Machine

/-- A completed ENCODE writes `mult(v)` levels a bit and no times. -/
theorem encodeFrame_count {v : LineCode} {code : List Bool → List Int × Option Int} {s : State} {r : Result}
    (h : encodeFrame v code s = .ok r) (hl : ∀ b, (code b).1.length = multOf v * b.length) :
    r.out.length = multOf v * uint s.inLen ∧ r.tout = none := by
  obtain ⟨-, -, b, hb, -, rfl⟩ := encodeFrame_eq_ok.1 h
  exact ⟨by rw [List.length_map, hl, hb], rfl⟩

/-- A completed DECODE writes one bit for `mult(v)` levels and no times. -/
theorem decodeFrame_count {v : LineCode} {code : List Int → List Bool × Option Int} {s : State} {r : Result}
    (h : decodeFrame v code s = .ok r) (hl : ∀ l, (code l).1.length = l.length / multOf v) :
    r.out.length = uint s.inLen / multOf v ∧ r.tout = none := by
  obtain ⟨-, -, -, l, hll, -, rfl⟩ := decodeFrame_eq_ok.1 h
  exact ⟨by rw [List.length_map, hl, hll], rfl⟩

/-- A completed command writes as many elements as its row says, and times exactly where its row says. -/
theorem bodyOf_count {i : Instr} {s : State} {r : Result} (h : bodyOf i s = .ok r) :
    r.out.length = outCount s i ∧ r.tout.isSome = writesTimes i := by
  cases i <;> simp only [bodyOf] at h
  case encNrz | encNrzl | encNrzi | encAmi | encPst | encMan | encDman =>
    obtain ⟨hn, ht⟩ := encodeFrame_count h (by simp [stateless, stateful, multOf])
    exact ⟨by simpa [multOf, outCount] using hn, by rw [ht]; rfl⟩
  case decNrz | decNrzl | decNrzi | decAmi | decPst | decMan | decDman =>
    obtain ⟨hn, ht⟩ := decodeFrame_count h (by simp [stateless, stateful, startsEstate, multOf])
    exact ⟨by simpa [multOf, outCount] using hn, by rw [ht]; rfl⟩
  case lvlNrz | lvlNrzl | lvlNrzi | lvlAmi | lvlPst | lvlMan | lvlDman =>
    rw [levelsFrame_eq, Except.ok.injEq] at h
    exact h ▸ ⟨rfl, rfl⟩
  case mod | modDur =>
    obtain ⟨-, hn, ts, ht, -⟩ := modulateBody_fits h
    exact ⟨hn, by rw [ht]; rfl⟩
  case demod =>
    obtain ⟨-, hn, ht⟩ := demodulateBody_fits h
    exact ⟨hn, by rw [ht]; rfl⟩
  case sig =>
    obtain ⟨-, hn, ht⟩ := signalBody_fits h
    exact ⟨hn, by rw [ht]; rfl⟩
  case mlvl =>
    obtain ⟨-, hn, ht⟩ := mlevelsBody_fits h
    exact ⟨hn, by rw [ht]; rfl⟩
  case modg =>
    obtain ⟨-, hn, ts, ht, -⟩ := modulateGridBody_fits h
    exact ⟨hn, by rw [ht]; rfl⟩
  case demodb =>
    obtain ⟨-, hn, ht⟩ := demodulateBinsBody_fits h
    exact ⟨hn, by rw [ht]; rfl⟩

/-- A DECODE of two levels a bit completes on an even length only. -/
theorem bodyOf_even {i : Instr} {s : State} {r : Result} (h : bodyOf i s = .ok r) (hi : i = .decMan ∨ i = .decDman) :
    uint s.inLen % 2 = 0 := by
  rcases hi with rfl | rfl <;> exact (decodeFrame_eq_ok.1 h).2.1

@[simp] theorem outCount_settled (s : State) (i : Instr) : outCount s.settled i = outCount s i := by cases i <;> rfl

/-- `r` is a result that command `i` can end with from `s`: its length and times are those of its row, and it fits. -/
structure Completes (i : Instr) (s : State) (r : Result) : Prop where
  count : r.out.length = outCount s i
  times : r.tout.isSome = writesTimes i
  fits : Fits s r
  even : i = .decMan ∨ i = .decDman → uint s.inLen % 2 = 0

theorem bodyOf_completes {i : Instr} {s : State} {r : Result} (h : bodyOf i s = .ok r) : Completes i s r :=
  ⟨(bodyOf_count h).1, (bodyOf_count h).2, bodyOf_fits h, bodyOf_even h⟩

/-- What a result is depends on no register that can be unwritten. -/
theorem Completes.of_settled {i : Instr} {s : State} {r : Result} (h : Completes i s.settled r) : Completes i s r :=
  ⟨h.count.trans (outCount_settled s i), h.times, ⟨h.fits.len, h.fits.times, h.fits.estate⟩, h.even⟩

theorem Completes.tout_eq_none {i : Instr} {s : State} {r : Result} (h : Completes i s r)
    (hi : writesTimes i = false) : r.tout = none :=
  Option.not_isSome_iff_eq_none.1 (by simp [h.times, hi])

theorem Completes.tout_eq_some {i : Instr} {s : State} {r : Result} (h : Completes i s r)
    (hi : writesTimes i = true) : ∃ ts, r.tout = some ts ∧ ts.length = r.out.length := by
  obtain ⟨ts, ht⟩ := Option.isSome_iff_exists.1 (h.times.trans hi)
  exact ⟨ts, ht, h.fits.times ts ht⟩

/-- What a next state of a command is, in full: a result of its row, or an error, entered in the state with at most one
register marked. -/
theorem exec_next {i : Instr} {s t : State} (h : exec i s = .next t) :
    RecordOnlyGrows s t ∧ ∃ fs, (∃ r, Completes i s r ∧ t = State.succeed { s with faults := fs } r) ∨
      ∃ e n, t = State.raise { s with faults := fs } e n := by
  rcases exec_cases h with ⟨-, rfl⟩ | ⟨-, u, v, hr, hb⟩
  · exact ⟨.inl rfl, s.faults, .inr ⟨_, _, rfl⟩⟩
  rcases hr.cases with ⟨rfl, rfl⟩ | ⟨reg, hreg, rfl, rfl⟩
  · rcases hb with ⟨r, hb, rfl⟩ | ⟨e, n, -, rfl⟩
    · exact ⟨.inl rfl, _, .inl ⟨r, bodyOf_completes hb, rfl⟩⟩
    · exact ⟨.inl rfl, _, .inr ⟨e, n, rfl⟩⟩
  · rcases hb with ⟨r, hb, rfl⟩ | ⟨e, n, -, rfl⟩
    · exact ⟨.inr ⟨reg, hreg, rfl⟩, _, .inl ⟨r, (bodyOf_completes hb).of_settled, rfl⟩⟩
    · exact ⟨.inr ⟨reg, hreg, rfl⟩, _, .inr ⟨e, n, rfl⟩⟩

theorem Memory.read_writeFrom_zero_of_lt (m : Memory) {ws : List Word} {j : Nat} (h : j < ws.length) :
    (m.writeFrom 0 ws).read j = some ws[j] := by
  rw [Memory.read_writeFrom_zero, dif_pos h]

theorem Memory.read_writeFrom_zero_of_le (m : Memory) {ws : List Word} {j : Nat} (h : ws.length ≤ j) :
    (m.writeFrom 0 ws).read j = m.read j := by
  rw [Memory.read_writeFrom_zero, dif_neg (by omega)]

theorem State.succeed_toutBuf_of_none (s : State) {r : Result} (h : r.tout = none) :
    (s.succeed r).toutBuf = s.toutBuf := by simp [h]

theorem State.succeed_toutBuf_of_some (s : State) {r : Result} {ts : List Word} (h : r.tout = some ts) :
    (s.succeed r).toutBuf = s.toutBuf.writeFrom 0 ts := by simp [h]

/-- From the length of the result on, TOUT keeps its elements. -/
theorem Completes.read_tout_of_le {i : Instr} {s : State} {r : Result} (h : Completes i s r) (v : State) {j : Nat}
    (hj : r.out.length ≤ j) : (v.succeed r).toutBuf.read j = v.toutBuf.read j := by
  cases hi : writesTimes i with
  | false => rw [v.succeed_toutBuf_of_none (h.tout_eq_none hi)]
  | true =>
    obtain ⟨ts, ht, hl⟩ := h.tout_eq_some hi
    rw [v.succeed_toutBuf_of_some ht, Memory.read_writeFrom_zero_of_le _ (by omega)]

/-- Below the length of a result with times, TOUT holds them. -/
theorem Completes.read_tout_of_lt {i : Instr} {s : State} {r : Result} (h : Completes i s r)
    (hi : writesTimes i = true) {j : Nat} (hj : j < r.out.length) :
    ∃ w, ∀ v : State, (v.succeed r).toutBuf.read j = some w := by
  obtain ⟨ts, ht, hl⟩ := h.tout_eq_some hi
  exact ⟨ts[j], fun v => by rw [v.succeed_toutBuf_of_some ht, Memory.read_writeFrom_zero_of_lt]⟩

end Sys2Proof.Machine

/-- Settles O45: by what a next state of a command is; the counts are those of the command's row. -/
theorem commandWritesOnlyItsOutputs : Obligations.CommandWritesOnlyItsOutputs := by
  unfold Obligations.CommandWritesOnlyItsOutputs
  intro i s t h
  obtain ⟨hg, fs, ⟨r, hc, rfl⟩ | ⟨e, n, rfl⟩⟩ := exec_next h
  · refine ⟨rfl, hg, fun hi => State.succeed_toutBuf_of_none _ (hc.tout_eq_none hi), fun _ => ?_⟩
    rw [← hc.count]
    exact ⟨lenWord_toNat, hc.fits.len,
      fun j hj => ⟨Memory.read_writeFrom_zero_of_le _ hj, hc.read_tout_of_le _ hj⟩,
      fun j hj => ⟨⟨_, Memory.read_writeFrom_zero_of_lt _ hj⟩,
        fun hi => (hc.read_tout_of_lt hi hj).imp fun _ hw => hw _⟩,
      hc.even⟩
  · exact ⟨rfl, hg, fun _ => rfl, fun hd => by simp at hd⟩

/-! ### What a command's answer depends on -/

namespace Sys2Proof.Machine

theorem Table.at_settle_congr {t t' : Table} {k : Fin 3} (h : t'.at k = t.at k) : t'.settle.at k = t.settle.at k := by
  rw [Table.at_settle, Table.at_settle, h]

/-- A loop from 0 depends only on the turns it takes. -/
theorem collect_zero_congr {α : Type} {f g : Nat → Except Halt α} {n : Nat} (h : ∀ k, k < n → f k = g k) :
    collect f 0 n = collect g 0 n :=
  collect_congr fun k hk => by rw [Nat.zero_add, h k hk]

end Sys2Proof.Machine

namespace Sys2Proof.Claims

variable {Num : Type} {i : Instr} {s u : State}

section
variable (ag : AgreeOnReads i s u)
include ag

theorem AgreeOnReads.capIn : u.cfg.capIn = s.cfg.capIn := by rw [ag.cfg]; rfl
theorem AgreeOnReads.capOut : u.cfg.capOut = s.cfg.capOut := by rw [ag.cfg]; rfl
theorem AgreeOnReads.gridEndpoint : u.cfg.gridEndpoint = s.cfg.gridEndpoint := by rw [ag.cfg]
theorem AgreeOnReads.dmInit : u.cfg.dmInit = s.cfg.dmInit := by rw [ag.cfg]
theorem AgreeOnReads.wellFormed (j : Instr) : j.wellFormed u.cfg = j.wellFormed s.cfg := by rw [ag.cfg]; rfl

/-- The states agree, too, where their registers count as written: the words they hold are the same. -/
theorem AgreeOnReads.settled : AgreeOnReads i s.settled u.settled where
  cfg := ag.cfg
  inp := ag.inp
  tin := ag.tin
  levels hi := ⟨(ag.levels hi).1, fun k hk => Table.at_settle_congr ((ag.levels hi).2 k hk)⟩
  params hi hm k hk := Table.at_settle_congr (ag.params hi hm k hk)
  freq hi hm hv := by simp [ag.freq hi hm hv]
  amp hi hm hv := by simp [ag.amp hi hm hv]
  samples := ag.samples
  modDur hi := by simp [ag.modDur hi]
  argDur hi := by simp [ag.argDur hi]
  bins := ag.bins

theorem AgreeOnReads.fetchElem_inB (hi : readsIn i = true) {k : Nat} (hk : k < uint s.inLen) :
    u.fetchElem .inB k = s.fetchElem .inB k := by
  simp [State.fetchElem, (ag.inp hi).2 k hk]

theorem AgreeOnReads.fetchElem_tin (hi : readsTin i = true) {k : Nat} (hk : k < uint s.tinLen) :
    u.fetchElem .tin k = s.fetchElem .tin k := by
  simp [State.fetchElem, (ag.tin hi).2 k hk]

/-! #### The scans of the inputs -/

theorem AgreeOnReads.collect_fetchBit (hi : readsIn i = true) :
    collect u.fetchBit 0 (uint s.inLen) = collect s.fetchBit 0 (uint s.inLen) :=
  collect_zero_congr fun k hk => by simp only [State.fetchBit, ag.fetchElem_inB hi hk]

theorem AgreeOnReads.collect_fetchLevel (hi : readsIn i = true) (al : List Int) :
    collect (u.fetchLevel al) 0 (uint s.inLen) = collect (s.fetchLevel al) 0 (uint s.inLen) :=
  collect_zero_congr fun k hk => by simp only [State.fetchLevel, ag.fetchElem_inB hi hk]

theorem AgreeOnReads.collect_fetchSymbol (hi : readsIn i = true) (c : Modem Num) :
    collect (u.fetchSymbol c) 0 (uint s.inLen) = collect (s.fetchSymbol c) 0 (uint s.inLen) :=
  collect_zero_congr fun k hk => by simp only [State.fetchSymbol, ag.fetchElem_inB hi hk]

theorem AgreeOnReads.collect_fetchNum_inB (hi : readsIn i = true) (F : NumFmt Num) :
    collect (u.fetchNum F .inB) 0 (uint s.inLen) = collect (s.fetchNum F .inB) 0 (uint s.inLen) :=
  collect_zero_congr fun k hk => by simp only [State.fetchNum, ag.fetchElem_inB hi hk]

theorem AgreeOnReads.collect_fetchNum_tin (hi : readsTin i = true) (F : NumFmt Num) :
    collect (u.fetchNum F .tin) 0 (uint s.tinLen) = collect (s.fetchNum F .tin) 0 (uint s.tinLen) :=
  collect_zero_congr fun k hk => by simp only [State.fetchNum, ag.fetchElem_tin hi hk]

theorem AgreeOnReads.collect_fetchElem_tin (hi : readsTin i = true) :
    collect (u.fetchElem .tin) 0 (uint s.tinLen) = collect (s.fetchElem .tin) 0 (uint s.tinLen) :=
  collect_zero_congr fun _ hk => ag.fetchElem_tin hi hk

/-- The scan of DEMODULATE, where there are as many times as samples. -/
theorem AgreeOnReads.collect_fetchCode (hi : readsIn i = true) (ht : readsTin i = true)
    (hl : uint s.tinLen = uint s.inLen) (F : NumFmt Num) (c : Modem Num) :
    collect (fetchCode F c u) 0 (uint s.inLen) = collect (fetchCode F c s) 0 (uint s.inLen) :=
  collect_zero_congr fun k hk => by
    simp only [fetchCode, State.fetchNum, ag.fetchElem_inB hi hk, ag.fetchElem_tin ht (hl ▸ hk)]

/-! #### The line-code frames -/

theorem AgreeOnReads.encodeFrame (hi : readsIn i = true) (v : LineCode) (code : List Bool → List Int × Option Int) :
    encodeFrame v code u = encodeFrame v code s := by
  simp only [Machine.encodeFrame, (ag.inp hi).1, ag.capIn, ag.capOut, ag.collect_fetchBit hi]

theorem AgreeOnReads.decodeFrame (hi : readsIn i = true) (v : LineCode) (code : List Int → List Bool × Option Int) :
    decodeFrame v code u = decodeFrame v code s := by
  simp only [Machine.decodeFrame, (ag.inp hi).1, ag.capIn, ag.capOut, ag.collect_fetchLevel hi]

end

/-! #### The configuration of the modulation unit -/

/-- The engine's read of a register depends on what that register holds. -/
theorem fetchReg_congr {r : Reg} (h : u.reg r = s.reg r) : u.fetchReg r = s.fetchReg r := by
  simp only [State.fetchReg, State.regRead, h]

theorem fetchRegNum_congr (F : NumFmt Num) {r : Reg} (h : u.reg r = s.reg r) :
    u.fetchRegNum F r = s.fetchRegNum F r := by
  simp only [State.fetchRegNum, fetchReg_congr h]

theorem duration_congr (F : NumFmt Num) {r : Reg} (h : u.reg r = s.reg r) : duration F r u = duration F r s := by
  simp only [duration, fetchRegNum_congr F h]

/-- A command that uses S uses the whole configuration. -/
theorem readsLevels_of_readsSamples (hi : readsSamples i = true) : readsLevels i = true ∧ i ≠ .mlvl := by
  cases i
  case mod | modDur | demod | modg => exact ⟨rfl, nofun⟩
  all_goals cases hi

section
variable (ag : AgreeOnReads i s u)
include ag

theorem AgreeOnReads.modLevels (hi : readsLevels i = true) : u.modLevels = s.modLevels := by
  obtain ⟨hc, hl⟩ := ag.levels hi
  have h : collect (fun k => u.fetchReg (.modLvl (entry k)) >>= fun w => Except.ok (sint w)) 0 s.modCfg.k.toNat =
      collect (fun k => s.fetchReg (.modLvl (entry k)) >>= fun w => Except.ok (sint w)) 0 s.modCfg.k.toNat :=
    collect_zero_congr fun k hk => by
      have hr : u.fetchReg (.modLvl (entry k)) = s.fetchReg (.modLvl (entry k)) := fetchReg_congr (hl k hk)
      rw [hr]
  simp only [State.modLevels, hc, h]

theorem AgreeOnReads.modParams (hi : readsLevels i = true) (hm : i ≠ .mlvl) (F : NumFmt Num) :
    u.modParams F = s.modParams F := by
  have hp : collect (fun k => u.fetchRegNum F (.modPar (entry k))) 0 s.modCfg.k.toNat =
      collect (fun k => s.fetchRegNum F (.modPar (entry k))) 0 s.modCfg.k.toNat :=
    collect_zero_congr fun k hk => fetchRegNum_congr F (ag.params hi hm k hk)
  have hf (hv : s.modCfg.variant = .ask ∨ s.modCfg.variant = .psk) :
      u.fetchRegNum F .modFreq = s.fetchRegNum F .modFreq := fetchRegNum_congr F (ag.freq hi hm hv)
  have ha (hv : s.modCfg.variant = .fsk ∨ s.modCfg.variant = .psk) :
      u.fetchRegNum F .modAmp = s.fetchRegNum F .modAmp := fetchRegNum_congr F (ag.amp hi hm hv)
  simp only [State.modParams, (ag.levels hi).1, hp]
  cases hv : s.modCfg.variant with
  | dflt => rfl
  | ask => simp only [hf (.inl hv)]
  | fsk => simp only [ha (.inl hv)]
  | psk => simp only [hf (.inr hv), ha (.inr hv)]

theorem AgreeOnReads.modConfig (hi : readsLevels i = true) (hm : i ≠ .mlvl) (F : NumFmt Num) :
    u.modConfig F = s.modConfig F := by
  simp only [State.modConfig, ag.modLevels hi, ag.modParams hi hm F]

theorem AgreeOnReads.modConfigS (hi : readsSamples i = true) (F : NumFmt Num) : u.modConfigS F = s.modConfigS F := by
  obtain ⟨hl, hm⟩ := readsLevels_of_readsSamples hi
  simp only [State.modConfigS, State.modSamples, ag.modConfig hl hm F, ag.samples hi]

/-! #### The modulation bodies -/

/-- MODULATE, with `r` the register its duration comes from. -/
theorem AgreeOnReads.modulateBody (hi : readsIn i = true) (hn : readsSamples i = true) (F : NumFmt Num) {r : Reg}
    (hr : u.reg r = s.reg r) : modulateBody F r u = modulateBody F r s := by
  simp only [Machine.modulateBody, ag.modConfigS hn F, duration_congr F hr, (ag.inp hi).1, ag.capIn, ag.capOut,
    ag.gridEndpoint, ag.collect_fetchSymbol hi]

end

theorem AgreeOnReads.signalBody (ag : AgreeOnReads .sig s u) (F : NumFmt Num) : signalBody F u = signalBody F s := by
  simp only [Machine.signalBody, ag.modConfig rfl nofun F, (ag.tin rfl).1, (ag.levels rfl).1, ag.capIn, ag.capOut,
    ag.collect_fetchNum_tin rfl F]

/-- DEMODULATE scans its inputs only where they are of one length; it ends in SHAPE or earlier where they are not. -/
theorem AgreeOnReads.demodulateBody (ag : AgreeOnReads .demod s u) (F : NumFmt Num) :
    demodulateBody F u = demodulateBody F s := by
  by_cases hl : uint s.tinLen = uint s.inLen
  · simp only [Machine.demodulateBody, ag.modConfigS rfl F, (ag.inp rfl).1, (ag.tin rfl).1, ag.capIn, ag.capOut,
      ag.collect_fetchCode rfl rfl hl]
  · have hs : (uint s.tinLen != uint s.inLen) = true := bne_iff_ne.2 hl
    simp only [Machine.demodulateBody, ag.modConfigS rfl F, (ag.inp rfl).1, (ag.tin rfl).1, ag.capIn, hs, failIf_true,
      error_bind]

theorem AgreeOnReads.modulateGridBody (ag : AgreeOnReads .modg s u) (F : NumFmt Num) :
    modulateGridBody F u = modulateGridBody F s := by
  simp only [Machine.modulateGridBody, ag.modConfigS rfl F, (ag.inp rfl).1, (ag.tin rfl).1, ag.capIn, ag.capOut,
    ag.collect_fetchSymbol rfl, ag.collect_fetchNum_tin rfl F, ag.collect_fetchElem_tin rfl]

theorem AgreeOnReads.demodulateBinsBody (ag : AgreeOnReads .demodb s u) (F : NumFmt Num) :
    demodulateBinsBody F u = demodulateBinsBody F s := by
  simp only [Machine.demodulateBinsBody, ag.modConfig rfl nofun F, ag.bins rfl, (ag.inp rfl).1, ag.capIn, ag.capOut,
    ag.collect_fetchNum_inB rfl F]

/-! #### All commands -/

/-- The computation of a command is the same on two states that agree on what the command reads. -/
theorem AgreeOnReads.bodyOf (ag : AgreeOnReads i s u) : bodyOf i u = bodyOf i s := by
  cases i
  case encDman => simp only [Machine.bodyOf, ag.dmInit, ag.encodeFrame rfl]
  case decDman => simp only [Machine.bodyOf, ag.dmInit, ag.decodeFrame rfl]
  case encNrz | encNrzl | encNrzi | encAmi | encPst | encMan => exact ag.encodeFrame rfl _ _
  case decNrz | decNrzl | decNrzi | decAmi | decPst | decMan => exact ag.decodeFrame rfl _ _
  case lvlNrz | lvlNrzl | lvlNrzi | lvlAmi | lvlPst | lvlMan | lvlDman => rfl
  case mod => exact ag.modulateBody rfl rfl _ (ag.modDur rfl)
  case modDur => exact ag.modulateBody rfl rfl _ (ag.argDur rfl)
  case demod => exact ag.demodulateBody _
  case sig => exact ag.signalBody _
  case mlvl => simp only [Machine.bodyOf, mlevelsBody, ag.modLevels rfl]
  case modg => exact ag.modulateGridBody _
  case demodb => exact ag.demodulateBinsBody _

/-- The same end of a computation, entered in two states whose fault records took the same marks, is the same answer. -/
theorem sameAnswer_conclude {p q : State} {m : List ModelFault} {c : Except Halt Result} (first : Option Loc)
    (hp : p.faults = s.faults ++ m) (hq : q.faults = u.faults ++ m) (hc : ∀ r, c = .ok r → Completes i s r) :
    SameAnswer i s u (conclude p first c) (conclude q first c) := by
  match c with
  | .error (.unwritten l) => exact rfl
  | .error (.err e n) => exact ⟨⟨m, hp, hq⟩, rfl, rfl, fun hd => by simp at hd⟩
  | .ok r =>
    refine ⟨⟨m, hp, hq⟩, rfl, rfl, fun _ => ⟨rfl, fun j hj => ?_⟩⟩
    have hj : j < r.out.length := lt_of_lt_lenWord hj
    refine ⟨?_, fun hi => ?_⟩
    · rw [State.succeed_outBuf, State.succeed_outBuf, Memory.read_writeFrom_zero_of_lt _ hj,
        Memory.read_writeFrom_zero_of_lt _ hj]
    · obtain ⟨w, hw⟩ := (hc r rfl).read_tout_of_lt hi hj
      rw [hw, hw]

/-- The end of a command is the same on two states that agree on what it reads, whether or not it reads an unwritten
register. -/
theorem AgreeOnReads.finish (ag : AgreeOnReads i s u) :
    SameAnswer i s u (finish s (Machine.bodyOf i)) (finish u (Machine.bodyOf i)) := by
  cases hw : unwrittenRegister (Machine.bodyOf i s) with
  | none =>
    rw [finish_of_written hw, finish_of_written (by rwa [ag.bodyOf]), ag.bodyOf]
    exact sameAnswer_conclude (m := []) none (by simp) (by simp) fun r hr => bodyOf_completes hr
  | some reg =>
    have hr := unwrittenRegister_eq_some.1 hw
    rw [finish_reg hr, finish_reg (ag.bodyOf.trans hr), ag.settled.bodyOf]
    exact sameAnswer_conclude _ rfl rfl fun r hr => (bodyOf_completes hr).of_settled

end Sys2Proof.Claims

/-- Settles O47: the computation of a command is the same on both states, as it is and with the registers counted as
written. -/
theorem commandDependsOnlyOnWhatItReads : Obligations.CommandDependsOnlyOnWhatItReads := by
  unfold Obligations.CommandDependsOnlyOnWhatItReads
  intro i s u ag
  rw [exec_eq, exec_eq, ag.wellFormed i]
  split
  · exact ag.finish
  · exact ⟨⟨[], by simp, by simp⟩, rfl, rfl, fun hd => by simp at hd⟩

end

section
/-! The host's accesses of 20_memory: what a register access reaches (R74, R85), which accesses are admitted (R84), and
the write of CMD (R87). -/

open Sys2Proof Sys2Proof.Machine Sys2Proof.Claims

/-! ### What a register access reaches -/

namespace Sys2Proof.Machine

/-- A register's offset is below the reserved tail of the window. -/
theorem Reg.offset_lt (r : Reg) : r.offset < 0x50 := by
  cases r <;> simp only [Reg.offset] <;> omega

/-- No register is at the reserved offset between MOD_DUR and MOD_LVL0. -/
theorem Reg.offset_ne_reserved (r : Reg) : r.offset ≠ 0x34 := by
  cases r <;> simp only [Reg.offset] <;> omega

theorem Reg.offset_mod_four (r : Reg) : r.offset % 4 = 0 := by
  cases r <;> simp only [Reg.offset] <;> omega

/-- The register map has each register at its own offset only. -/
theorem Reg.ofOffset_eq_some {off : Nat} {r : Reg} : Reg.ofOffset off = some r ↔ r.offset = off := by
  refine ⟨fun h => ?_, fun h => h ▸ r.ofOffset_offset⟩
  unfold Reg.ofOffset at h
  split at h <;> cases h <;> rfl

theorem Reg.ofOffset_eq_none {off : Nat} (h : off = 0x34 ∨ 0x50 ≤ off) : Reg.ofOffset off = none := by
  rw [Option.eq_none_iff_forall_ne_some]
  intro r hr
  have hoff := Reg.ofOffset_eq_some.1 hr
  have := r.offset_lt
  have := r.offset_ne_reserved
  omega

/-- A whole word at a register's offset reaches that register. -/
@[simp] theorem targetReg_offset (r : Reg) : targetReg r.offset 4 = .ok r := by
  simp [targetReg, r.offset_mod_four, r.ofOffset_offset]

theorem targetReg_form {off width : Nat} (h : width ≠ 4 ∨ off % 4 ≠ 0) : targetReg off width = .error .form := by
  simp [targetReg, h]

theorem targetReg_reserved {off : Nat} (hm : off % 4 = 0) (h : off = 0x34 ∨ 0x50 ≤ off) :
    targetReg off 4 = .error .reserved := by
  simp [targetReg, hm, Reg.ofOffset_eq_none h]

/-- Read or write, a register access that reaches no register is the hazard it is. -/
theorem State.accessIdle_of_hazard {s : State} {a : Access} {off width : Nat} {v : Word} {z : Hazard}
    (ha : a = .readReg off width ∨ a = .writeReg off width v) (h : targetReg off width = .error z) :
    s.accessIdle a = .fault (.hostHazard z) := by
  rcases ha with rfl | rfl <;> simp only [State.accessIdle, h]

theorem State.accessIdle_readReg (s : State) (r : Reg) : s.accessIdle (.readReg r.offset 4) = .next (s.answerReg r) := by
  simp only [State.accessIdle, targetReg_offset]

theorem State.accessIdle_writeReg (s : State) (r : Reg) (v : Word) :
    s.accessIdle (.writeReg r.offset 4 v) = .next (s.regWrite r v) := by
  simp only [State.accessIdle, targetReg_offset]

/-! ### Which accesses are admitted -/

theorem Access.readsStatus_iff {a : Access} : a.readsStatus = true ↔ a = .readReg 0x04 4 := by
  cases a <;> simp [Access.readsStatus]

/-- STATUS is always written, so a read of it marks nothing. -/
theorem State.answerReg_status (s : State) : s.answerReg .status = s.answer s.status.toWord := rfl

/-- A read of STATUS is answered with its word, whatever BUSY is. -/
theorem State.access_readStatus (s : State) : s.access (.readReg 0x04 4) = .next (s.answer s.status.toWord) := by
  have hi : s.access (.readReg 0x04 4) = s.accessIdle (.readReg 0x04 4) := by simp [State.access, Access.readsStatus]
  rw [hi, ← s.answerReg_status]
  exact s.accessIdle_readReg .status

theorem State.access_of_busy {s : State} {a : Access} (hb : s.status.busy = true) (ha : a ≠ .readReg 0x04 4) :
    s.access a = .fault (.hostHazard .busy) := by
  have hs : a.readsStatus = false := Bool.eq_false_iff.2 fun h => ha (Access.readsStatus_iff.1 h)
  simp [State.access, hb, hs]

theorem State.access_of_not_busy {s : State} (hb : s.status.busy = false) (a : Access) :
    s.access a = s.accessIdle a := by
  simp [State.access, hb]

/-! ### The step of a host access -/

/-- A host access that is the next move is made, whatever BUSY is, on the state with the rest of the agenda. -/
theorem step_of_host {s : State} {a : Access} {rest : List Move} (h : s.agenda = .host a :: rest) :
    step s = State.access { s with agenda := rest } a := by
  simp only [step, h, moveStep]

end Sys2Proof.Machine

namespace Sys2Proof.Claims

theorem HostNext.step_eq {s : State} {a : Access} {rest : List Move} (h : HostNext s a rest) :
    step s = State.accessIdle { s with agenda := rest } a := by
  obtain ⟨hb, ha⟩ := h
  rw [step_of_host ha, State.access_of_not_busy (s := { s with agenda := rest }) hb]

end Sys2Proof.Claims

/-- Settles O51: the access reaches CMD, and a write of CMD while idle is the latch. -/
theorem cmdWriteLatchesTheCommand : Obligations.CmdWriteLatchesTheCommand := by
  unfold Obligations.CmdWriteLatchesTheCommand
  intro s v rest h
  exact h.step_eq.trans (State.accessIdle_writeReg _ .cmd v)

/-- Settles O52: a read of STATUS is answered in every state, and every other access meets BUSY. -/
theorem busyAdmitsOnlyStatusReads : Obligations.BusyAdmitsOnlyStatusReads := by
  unfold Obligations.BusyAdmitsOnlyStatusReads
  intro s a rest hb h
  rw [step_of_host h]
  constructor
  · rintro rfl
    exact ⟨s.status.toWord, rfl, State.access_readStatus _⟩
  · exact State.access_of_busy hb

/-- Settles O53: by the hazard each of the two kinds of access is. -/
theorem malformedAndReservedAccessesAreHazards : Obligations.MalformedAndReservedAccessesAreHazards := by
  unfold Obligations.MalformedAndReservedAccessesAreHazards
  intro s off width v a rest ha h
  rw [h.step_eq]
  constructor
  · exact fun hf => State.accessIdle_of_hazard ha (targetReg_form hf)
  · rintro rfl hm hr
    exact State.accessIdle_of_hazard ha (targetReg_reserved hm (hr.imp_right And.left))

end

section
/-! The line-code unit of 40_line_codes: the frames of ENCODE, DECODE and ELEVELS (R131 to R133), and the closed form of
each code (R134 to R154). -/

open Sys2Proof Sys2Proof.Machine Sys2Proof.Claims

/-! ### What the three frames deliver -/

namespace Sys2Proof.Machine

theorem Memory.read_writeFrom_zero_eq_or (m : Memory) (ws : List Word) (j : Nat) :
    (m.writeFrom 0 ws).read j = (ws[j]?).or (m.read j) := by
  rw [Memory.read_writeFrom_zero]
  split
  case isTrue h => simp [h]
  case isFalse h => simp [List.getElem?_eq_none (Nat.le_of_not_lt h)]

theorem bitWord_eq (x : Bool) : bitWord x = if x then 1#32 else 0#32 := by cases x <;> rfl

end Sys2Proof.Machine

namespace Sys2Proof.Claims

/-- A success without times delivers its elements. -/
theorem delivers_succeed (s : State) {r : Result} (ht : r.tout = none) : Delivers s (s.succeed r) r.out [] where
  rest := rfl
  status := rfl
  eidx := rfl
  len := lenWord_toNat
  out := Memory.read_writeFrom_zero_eq_or _ _
  tout := fun j => by rw [State.succeed_toutBuf_of_none s ht]; rfl

theorem bitsBelow_iff {s : State} {k : Nat} : BitsBelow s k ↔ ∀ j, j < k → ∃ b, s.fetchBit j = .ok b := by
  simp [BitsBelow, fetchBit_eq_ok]

theorem levelsBelow_iff {s : State} {al : List Int} {k : Nat} :
    LevelsBelow s al k ↔ ∀ j, j < k → ∃ x, s.fetchLevel al j = .ok x := by
  simp [LevelsBelow, fetchLevel_eq_ok, ← and_assoc, exists_and_right]

/-- A command that runs the ENCODE frame has its errors in the frame's order, and delivers the levels of its code. -/
theorem encodesAs_of_frame {i : Instr} {cmd : Word} {v : LineCode} {code : Config → List Bool → List Int × Option Int}
    {levels : Config → List Bool → List Int} (hd : decode cmd = .ok i)
    (he : ∀ s, exec i s = finish s (encodeFrame v (code s.cfg))) (hc : ∀ c b, (code c b).1 = levels c b) :
    EncodesAs i cmd (multOf v) levels where
  cmdWord := hd
  inputCapacity s h := (he s).trans (finish_err (encodeFrame_eq_error.2 (.inl ⟨h, rfl⟩)))
  outputCapacity s h1 h2 := (he s).trans (finish_err (encodeFrame_eq_error.2 (.inr (.inl ⟨h1, h2, rfl⟩))))
  domain s k w h1 h2 hk hb hr h0 h1' := (he s).trans (finish_err (encodeFrame_eq_error.2 (.inr (.inr
    ⟨h1, h2, k, hk, fetchBit_eq_error.2 (.inr ⟨w, hr, h0, h1', rfl⟩), bitsBelow_iff.1 hb⟩))))
  unwritten s k h1 h2 hk hb hr := (he s).trans (finish_elem (encodeFrame_eq_error.2 (.inr (.inr
    ⟨h1, h2, k, hk, fetchBit_eq_error.2 (.inl ⟨hr, rfl⟩), bitsBelow_iff.1 hb⟩))))
  success s b hb h1 h2 := by
    obtain ⟨hl, hread⟩ := hb
    have hok := encodeFrame_eq_ok (code := code s.cfg).2 ⟨hl ▸ h1, hl ▸ h2, b, hl.symm, hread, rfl⟩
    exact ⟨_, (he s).trans (finish_ok hok), hc s.cfg b ▸ delivers_succeed s rfl⟩

/-- A command that runs the DECODE frame has its errors in the frame's order, and delivers the bits of its code. -/
theorem decodesAs_of_frame {i : Instr} {cmd : Word} {v : LineCode} {code : Config → List Int → List Bool × Option Int}
    {bits : Config → List Int → List Bool} (hd : decode cmd = .ok i)
    (he : ∀ s, exec i s = finish s (decodeFrame v (code s.cfg))) (hc : ∀ c l, (code c l).1 = bits c l) :
    DecodesAs i cmd (multOf v) (levelsOf v) bits where
  cmdWord := hd
  inputCapacity s h := (he s).trans (finish_err (decodeFrame_eq_error.2 (.inl ⟨h, rfl⟩)))
  shape s h1 h2 := (he s).trans (finish_err (decodeFrame_eq_error.2 (.inr (.inl ⟨h1, h2, rfl⟩))))
  outputCapacity s h1 h2 h3 := (he s).trans (finish_err (decodeFrame_eq_error.2 (.inr (.inr (.inl
    ⟨h1, h2, h3, rfl⟩)))))
  domain s k w h1 h2 h3 hk hb hr hw := (he s).trans (finish_err (decodeFrame_eq_error.2 (.inr (.inr (.inr
    ⟨h1, h2, h3, k, hk, fetchLevel_eq_error.2 (.inr ⟨w, hr, hw, rfl⟩), levelsBelow_iff.1 hb⟩)))))
  unwritten s k h1 h2 h3 hk hb hr := (he s).trans (finish_elem (decodeFrame_eq_error.2 (.inr (.inr (.inr
    ⟨h1, h2, h3, k, hk, fetchLevel_eq_error.2 (.inl ⟨hr, rfl⟩), levelsBelow_iff.1 hb⟩)))))
  success s l hl hmem h1 h2 h3 := by
    obtain ⟨hn, hread⟩ := hl
    have hfetch : ∀ j (hj : j < l.length), s.fetchLevel (levelsOf v) j = .ok l[j] := fun j hj =>
      have ⟨w, hr, hw⟩ := hread j hj
      fetchLevel_eq_ok.2 ⟨w, hr, hw, hmem _ (List.getElem_mem hj)⟩
    have hok := decodeFrame_eq_ok (code := code s.cfg).2 ⟨hn ▸ h1, hn ▸ h2, hn ▸ h3, l, hn.symm, hfetch, rfl⟩
    refine ⟨_, (he s).trans (finish_ok hok), ?_⟩
    rw [← hc, ← funext bitWord_eq]
    exact delivers_succeed s rfl

/-- ELEVELS of a variant delivers its alphabet. -/
theorem exec_lvlRow_delivers (v : LineCode) (s : State) : ∃ t, exec (lvlRow v) s = .next t ∧
    Delivers s t ((levelsOf v).map word) [] ∧ uint t.outLen = (levelsOf v).length := by
  have he : exec (lvlRow v) s = finish s fun _ => levelsFrame v := by cases v <;> rfl
  have hlt : ((levelsOf v).map word).length < 2 ^ 32 := by cases v <;> decide
  refine ⟨_, he.trans (finish_levelsFrame v s), delivers_succeed s rfl, ?_⟩
  exact (lenWord_toNat hlt).trans (List.length_map _)

end Sys2Proof.Claims

/-! ### The closed forms of the codes -/

namespace Sys2Proof.Machine

/-- What a fold emits, turn by turn: turn `i` runs in the state that the elements before it leave. -/
theorem emit_fst_eq_flatMap {α β : Type} {f : Int → α → Int × List β} {l : List α} : ∀ {e : Int} {o : Nat → List β},
    (∀ i (h : i < l.length), (f (emit f e (l.take i)).2 l[i]).2 = o i) →
    (emit f e l).1 = (List.range l.length).flatMap o := by
  induction l with
  | nil => intros; rfl
  | cons a l ih =>
    intro e o ho
    have h0 : (f e a).2 = o 0 := ho 0 (by simp)
    have hs : (emit f (f e a).1 l).1 = (List.range l.length).flatMap fun i => o (i + 1) :=
      ih fun i hi => ho (i + 1) (by simpa using hi)
    rw [emit_cons, h0, hs, List.length_cons, List.range_succ_eq_map, List.flatMap_cons, List.flatMap_map]

/-- The same where each turn emits one element. -/
theorem emit_fst_eq_map {α β : Type} {f : Int → α → Int × List β} {l : List α} {e : Int} {o : Nat → β}
    (ho : ∀ i (h : i < l.length), (f (emit f e (l.take i)).2 l[i]).2 = [o i]) :
    (emit f e l).1 = (List.range l.length).map o := by
  rw [emit_fst_eq_flatMap ho, List.map_eq_flatMap]

/-- A fold that negates its state at each `k` and holds it elsewhere ends in the parity of the number of `k`s. -/
theorem emit_snd_of_negates {β : Type} {f : Int → Bool → Int × List β} {k : Bool}
    (h : ∀ e x, (f e x).1 = if x = k then -e else e) (b : List Bool) :
    ∀ e, (emit f e b).2 = if b.count k % 2 = 0 then e else -e := by
  induction b with
  | nil => simp
  | cons x b ih =>
    intro e
    rw [emit_cons, ih, h, List.count_cons]
    by_cases hx : x = k
    · rcases Nat.mod_two_eq_zero_or_one (b.count k) with hb | hb <;> simp [hx, hb, Nat.add_mod]
    · simp [hx]

theorem signOfCount_eq (n : Nat) : signOfCount n = if n % 2 = 0 then -1 else - -1 := by
  rcases Nat.mod_two_eq_zero_or_one n with h | h <;> simp [signOfCount, h]

theorem signOfCount_succ (n : Nat) : signOfCount (n + 1) = -signOfCount n := by
  rcases Nat.mod_two_eq_zero_or_one n with h | h <;> simp [signOfCount, h, Nat.add_mod]

/-- From −1, the initial polarity of R130, the parity is +1 for odd. -/
theorem emit_snd_eq_signOfCount {β : Type} {f : Int → Bool → Int × List β} {k : Bool}
    (h : ∀ e x, (f e x).1 = if x = k then -e else e) (b : List Bool) : (emit f (-1) b).2 = signOfCount (b.count k) := by
  rw [emit_snd_of_negates h, signOfCount_eq]

theorem count_take_succ (b : List Bool) (k : Bool) {i : Nat} (h : i < b.length) :
    (b.take (i + 1)).count k = (b.take i).count k + if b[i] = k then 1 else 0 := by
  rw [List.take_succ_eq_append_getElem h, List.count_append, List.count_singleton]
  simp

/-- NRZI: the polarity after a bit is the parity of the ones up to and with it. -/
theorem encodeNrzi_eq (b : List Bool) : (encodeNrzi b).1 =
    (List.range b.length).map fun i => signOfCount ((b.take (i + 1)).count true) := by
  refine emit_fst_eq_map fun i hi => ?_
  rw [emit_snd_eq_signOfCount (k := true) (fun e x => by cases x <;> rfl), count_take_succ b true hi]
  cases b[i] <;> simp [signOfCount_succ]

/-- A fold that emits the flipped sign at each `k` and 0 elsewhere: the sign is the parity of the `k`s up to and with the
mark. -/
theorem emit_fst_of_marks {f : Int → Bool → Int × List Int} {k : Bool}
    (h : ∀ e x, f e x = if x = k then (-e, [-e]) else (e, [0])) (b : List Bool) : (emit f (-1) b).1 =
    (List.range b.length).map fun i => if b[i]? = some k then signOfCount ((b.take (i + 1)).count k) else 0 := by
  refine emit_fst_eq_map fun i hi => ?_
  have hs : ∀ e x, (f e x).1 = if x = k then -e else e := fun e x => by rw [h, apply_ite Prod.fst]
  rw [emit_snd_eq_signOfCount hs, count_take_succ b k hi, List.getElem?_eq_getElem hi, h]
  by_cases hx : b[i] = k <;> simp [hx, signOfCount_succ]

theorem encodeAmi_eq (b : List Bool) : (encodeAmi b).1 = (List.range b.length).map fun i =>
    if b[i]? = some true then signOfCount ((b.take (i + 1)).count true) else 0 :=
  emit_fst_of_marks (fun _ _ => rfl) b

theorem encodePst_eq (b : List Bool) : (encodePst b).1 = (List.range b.length).map fun i =>
    if b[i]? = some false then signOfCount ((b.take (i + 1)).count false) else 0 :=
  emit_fst_of_marks (fun e x => by cases x <;> rfl) b

/-- Differential-Manchester: a one inverts twice in its interval and a zero once, so the polarity before an interval is
the parity of the zeros before it. -/
theorem encodeDman_eq (init : Polarity) (b : List Bool) : (encodeDman init b).1 =
    (List.range b.length).flatMap fun i =>
      let e := if (b.take i).count false % 2 = 0 then init.level else -init.level
      let h := if b[i]? = some true then -e else e
      [h, -h] := by
  refine emit_fst_eq_flatMap fun i hi => ?_
  rw [emit_snd_of_negates (k := false) (fun e x => by cases x <;> simp), List.getElem?_eq_getElem hi]
  cases b[i] <;> simp

/-- A list with its first position forced to 0, by index. -/
theorem false_cons_map_eq_map_range (q : Option Int → Prop) [DecidablePred q] (a : Int) (l : List Int) :
    (false :: l.map fun x => decide (q (some x))) =
      (List.range (a :: l).length).map fun i => decide (i ≠ 0 ∧ q (a :: l)[i]?) := by
  refine List.ext_getElem (by simp) fun i h _ => ?_
  cases i with
  | zero => simp
  | succ i =>
    have hi : i < l.length := by simpa using h
    simp [hi]

theorem decodeAmi_eq (l : List Int) :
    decodeAmi l = (List.range l.length).map fun i => decide (i ≠ 0 ∧ l[i]? ≠ some 0) := by
  cases l with
  | nil => rfl
  | cons a l =>
    rw [← false_cons_map_eq_map_range (· ≠ some 0) a l]
    simp [decodeAmi, bne, beq_eq_decide]

theorem decodePst_eq (l : List Int) :
    decodePst l = (List.range l.length).map fun i => decide (i ≠ 0 ∧ l[i]? = some 0) := by
  cases l with
  | nil => rfl
  | cons a l =>
    rw [← false_cons_map_eq_map_range (· = some 0) a l]
    simp [decodePst, beq_eq_decide]

/-- A fold that takes its state from the input compares each element with what the one before it left. -/
theorem emit_fst_of_compares {α : Type} (final boundary : α → Int) (l : List α) : ∀ e,
    (emit (fun e a => (final a, [boundary a != e])) e l).1 =
      List.zipWith (fun p a => decide (boundary a ≠ p)) (e :: l.map final) l := by
  induction l with
  | nil => intro e; rfl
  | cons a l ih =>
    intro e
    rw [emit_cons, ih, List.map_cons, List.zipWith_cons_cons, bne, beq_eq_decide, decide_not]
    rfl

theorem decodeNrzi_eq (l : List Int) :
    (decodeNrzi l).1 = List.zipWith (fun p x => decide (x ≠ p)) (-1 :: l) l := by
  have h := emit_fst_of_compares id id l (-1)
  rwa [List.map_id] at h

/-- The pairs of a list by index, whatever the default. -/
theorem pairs_eq_map {α : Type} (d : α) : ∀ l : List α,
    pairs l = (List.range (l.length / 2)).map fun i => (l.getD (2 * i) d, l.getD (2 * i + 1) d)
  | [] => by simp [pairs]
  | [_] => by simp [pairs]
  | a :: b :: l => by
    have hn : (a :: b :: l).length / 2 = l.length / 2 + 1 := by
      rw [List.length_cons, List.length_cons]
      omega
    rw [pairs, pairs_eq_map d l, hn, List.range_succ_eq_map, List.map_cons, List.map_map]
    rfl

theorem decodeMan_eq (l : List Int) : decodeMan l =
    (List.range (l.length / 2)).map fun i => decide (l.getD (2 * i) 0 < l.getD (2 * i + 1) 0) := by
  rw [decodeMan, pairs_eq_map 0, List.map_map]
  rfl

theorem decodeDman_eq (init : Polarity) (l : List Int) : (decodeDman init l).1 =
    (List.range (l.length / 2)).map fun i =>
      decide (l.getD (2 * i) 0 ≠ if i = 0 then init.level else l.getD (2 * i - 1) 0) := by
  rw [decodeDman, emit_fst_of_compares Prod.snd Prod.fst, pairs_eq_map 0]
  refine List.ext_getElem (by simp) fun i _ _ => ?_
  cases i with
  | zero => simp
  | succ i => simp [Nat.mul_add]

end Sys2Proof.Machine

/-! ### ENCODE -/

/-- Settles O9: both maps are the model's. -/
theorem encNrzAndNrzlMapEachBit : Obligations.EncNrzAndNrzlMapEachBit := by
  unfold Obligations.EncNrzAndNrzlMapEachBit
  exact ⟨encodesAs_of_frame (v := .nrz) (code := fun _ => stateless encodeNrz) rfl (fun _ => rfl) fun _ _ => rfl,
    encodesAs_of_frame (v := .nrzl) (code := fun _ => stateless encodeNrzl) rfl (fun _ => rfl) fun _ _ => rfl⟩

/-- Settles O10: the model's sign flips at each mark, so it is the parity of the marks. -/
theorem encAmiAndPstAlternateMarks : Obligations.EncAmiAndPstAlternateMarks := by
  unfold Obligations.EncAmiAndPstAlternateMarks
  exact ⟨encodesAs_of_frame (v := .ami) (code := fun _ => stateful encodeAmi) rfl (fun _ => rfl) fun _ => encodeAmi_eq,
    encodesAs_of_frame (v := .pst) (code := fun _ => stateful encodePst) rfl (fun _ => rfl) fun _ => encodePst_eq⟩

/-- Settles O11: the polarity toggles at each 1, so it is the parity of the ones. -/
theorem encNrziTogglesOnOne : Obligations.EncNrziTogglesOnOne := by
  unfold Obligations.EncNrziTogglesOnOne
  exact encodesAs_of_frame (v := .nrzi) (code := fun _ => stateful encodeNrzi) rfl (fun _ => rfl) fun _ => encodeNrzi_eq

/-- Settles O12: the map is the model's. -/
theorem encManWritesHalfPairs : Obligations.EncManWritesHalfPairs := by
  unfold Obligations.EncManWritesHalfPairs
  exact encodesAs_of_frame (v := .man) (code := fun _ => stateless encodeMan) rfl (fun _ => rfl) fun _ _ => rfl

/-- Settles O13: the polarity before an interval is the parity of the zeros before it. -/
theorem encDmanInvertsAtBoundaryOnOne : Obligations.EncDmanInvertsAtBoundaryOnOne := by
  unfold Obligations.EncDmanInvertsAtBoundaryOnOne
  exact encodesAs_of_frame (v := .dman) (code := fun c => stateful (encodeDman c.dmInit)) rfl (fun _ => rfl)
    fun c => encodeDman_eq c.dmInit

/-! ### DECODE -/

/-- Settles O14: both thresholds are the model's. -/
theorem decNrzAndNrzlThreshold : Obligations.DecNrzAndNrzlThreshold := by
  unfold Obligations.DecNrzAndNrzlThreshold
  exact ⟨decodesAs_of_frame (v := .nrz) (code := fun _ => stateless decodeNrz) rfl (fun _ => rfl) fun _ _ => rfl,
    decodesAs_of_frame (v := .nrzl) (code := fun _ => stateless decodeNrzl) rfl (fun _ => rfl) fun _ _ => rfl⟩

/-- Settles O15: by index, the first one being the forced 0. -/
theorem decAmiAndPstForceFirstZero : Obligations.DecAmiAndPstForceFirstZero := by
  unfold Obligations.DecAmiAndPstForceFirstZero
  exact ⟨decodesAs_of_frame (v := .ami) (code := fun _ => startsEstate decodeAmi) rfl (fun _ => rfl)
      fun _ => decodeAmi_eq,
    decodesAs_of_frame (v := .pst) (code := fun _ => startsEstate decodePst) rfl (fun _ => rfl) fun _ => decodePst_eq⟩

/-- Settles O16: the fold's state is the sample before. -/
theorem decNrziComparesWithPrevious : Obligations.DecNrziComparesWithPrevious := by
  unfold Obligations.DecNrziComparesWithPrevious
  exact decodesAs_of_frame (v := .nrzi) (code := fun _ => stateful decodeNrzi) rfl (fun _ => rfl) fun _ => decodeNrzi_eq

/-- Settles O17: interval `i` is the pair at 2i and 2i + 1. -/
theorem decManComparesHalves : Obligations.DecManComparesHalves := by
  unfold Obligations.DecManComparesHalves
  exact decodesAs_of_frame (v := .man) (code := fun _ => stateless decodeMan) rfl (fun _ => rfl) fun _ => decodeMan_eq

/-- Settles O18: the fold's state is the received second half of the interval before. -/
theorem decDmanComparesAcrossBoundary : Obligations.DecDmanComparesAcrossBoundary := by
  unfold Obligations.DecDmanComparesAcrossBoundary
  exact decodesAs_of_frame (v := .dman) (code := fun c => stateful (decodeDman c.dmInit)) rfl (fun _ => rfl)
    fun c => decodeDman_eq c.dmInit

/-! ### ELEVELS -/

/-- Settles O19: each query delivers its alphabet, which has two levels or three. -/
theorem levelQueriesWriteTheAlphabetAscending : Obligations.LevelQueriesWriteTheAlphabetAscending := by
  unfold Obligations.LevelQueriesWriteTheAlphabetAscending
  intro s
  refine ⟨fun i hi => ?_, fun i hi => ?_, rfl, rfl, rfl, rfl, rfl, rfl, rfl⟩
  · simp only [List.mem_cons, List.not_mem_nil, or_false] at hi
    rcases hi with rfl | rfl | rfl | rfl | rfl
    · exact exec_lvlRow_delivers .nrz s
    · exact exec_lvlRow_delivers .nrzl s
    · exact exec_lvlRow_delivers .nrzi s
    · exact exec_lvlRow_delivers .man s
    · exact exec_lvlRow_delivers .dman s
  · simp only [List.mem_cons, List.not_mem_nil, or_false] at hi
    rcases hi with rfl | rfl
    · exact exec_lvlRow_delivers .ami s
    · exact exec_lvlRow_delivers .pst s

end

section
/-! The numeric primitives of 41_modulation: the time grid (R215) and the classifier (R220) over exact reals, and the
vote (R221). -/

open Sys2Proof Sys2Proof.Machine Sys2Proof.Claims

/-! ### The time grid -/

namespace Sys2Proof.Claims

theorem grid_getElem {Num : Type} (F : NumFmt Num) (g : GridEndpoint) (n : Nat) (d : Num) {k : Nat}
    (h : k < (grid F g n d).length) : (grid F g n d)[k] = gridPoint F g n d k :=
  (List.getElem_eq_iff h).2 (grid_getElem? F g n d (by simpa using h))

/-- The distance of consecutive grid points over exact reals (41_modulation R215). -/
noncomputable def gridStep (g : GridEndpoint) (n : Nat) (d : ℝ) : ℝ := d / (if g = .excl then (n : ℝ) else (n : ℝ) - 1)

/-- Over exact reals the grid is an arithmetic progression from 0. A grid of one point under INCL has a step of 0,
division by 0 being 0. -/
theorem grid_getElem_exact {F : NumFmt ℝ} (hF : F.Exact) (g : GridEndpoint) (n : Nat) (d : ℝ) {k : Nat}
    (h : k < (grid F g n d).length) : (grid F g n d)[k] = k * gridStep g n d := by
  rw [grid_getElem]
  cases g with
  | excl => simp [gridPoint, gridStep, hF.div, hF.mul, hF.ofInt, mul_div_assoc]
  | incl =>
    by_cases hn : n = 1
    · simp [gridPoint, gridStep, hF.ofInt, hn]
    · simp [gridPoint, gridStep, hF.div, hF.mul, hF.ofInt, hn, mul_div_assoc]

theorem gridStep_pos (g : GridEndpoint) {n : Nat} {d : ℝ} (hd : 0 < d) (hn : 1 < n) : 0 < gridStep g n d := by
  have h1 : (1 : ℝ) < n := by exact_mod_cast hn
  cases g with
  | excl => exact div_pos hd (zero_lt_one.trans h1)
  | incl => exact div_pos hd (sub_pos.2 h1)

/-- n steps of EXCL make the duration. -/
theorem mul_gridStep_excl {n : Nat} (hn : n ≠ 0) (d : ℝ) : n * gridStep .excl n d = d :=
  mul_div_cancel₀ d (Nat.cast_ne_zero.2 hn)

/-- n − 1 steps of INCL make the duration. -/
theorem pred_mul_gridStep_incl {n : Nat} (hn : 2 ≤ n) (d : ℝ) : (n - 1 : Nat) * gridStep .incl n d = d := by
  have h0 : ((n - 1 : Nat) : ℝ) ≠ 0 := Nat.cast_ne_zero.2 (by omega)
  rw [Nat.cast_pred (by omega)] at h0 ⊢
  exact mul_div_cancel₀ d h0

end Sys2Proof.Claims

/-- Settles O37: point k is k steps, and n steps of EXCL or n − 1 of INCL make the duration. -/
theorem gridIsUniformFromZero : Obligations.GridIsUniformFromZero := by
  unfold Obligations.GridIsUniformFromZero
  intro F hF g n d hd
  refine ⟨grid_length F g n d, fun h => ?_, fun k h => ?_, fun k h hg => ?_, fun h hn hg => ?_⟩
  · rw [grid_getElem_exact hF, Nat.cast_zero, zero_mul]
  · have hn : 1 < n := by simp only [grid_length] at h; omega
    have hdiff : (grid F g n d)[k + 1] - (grid F g n d)[k] = gridStep g n d := by
      rw [grid_getElem_exact hF, grid_getElem_exact hF]
      push_cast
      ring
    exact ⟨hdiff, sub_pos.1 (hdiff ▸ gridStep_pos g hd hn)⟩
  · subst hg
    have hk : k < n := by simpa using h
    have hn : n * gridStep .excl n d = d := mul_gridStep_excl (by omega) d
    have hstep : 0 < gridStep .excl n d := pos_of_mul_pos_right (hd.trans_eq hn.symm) (Nat.cast_nonneg n)
    calc (grid F .excl n d)[k] = k * gridStep .excl n d := grid_getElem_exact hF ..
      _ < n * gridStep .excl n d := mul_lt_mul_of_pos_right (Nat.cast_lt.2 hk) hstep
      _ = d := hn
  · subst hg
    rw [grid_getElem_exact hF, pred_mul_gridStep_incl hn]

/-! ### The classifier -/

namespace Sys2Proof.Claims

/-- `m` is a least element of the list, and `r` the first index that holds it. -/
structure FirstLeast (l : List ℝ) (r : Nat) (m : ℝ) : Prop where
  getElem? : l[r]? = some m
  le : ∀ y ∈ l, m ≤ y
  lt : ∀ y ∈ l.take r, m < y

theorem FirstLeast.lt_length {l : List ℝ} {r : Nat} {m : ℝ} (h : FirstLeast l r m) : r < l.length :=
  (List.getElem?_eq_some_iff.1 h.getElem?).1

/-- A further element that is less takes the place of the least. -/
theorem FirstLeast.concat_of_lt {l : List ℝ} {r : Nat} {m x : ℝ} (h : FirstLeast l r m) (hx : x < m) :
    FirstLeast (l ++ [x]) l.length x where
  getElem? := by simp
  le y hy := by
    rcases List.mem_append.1 hy with hy | hy
    · exact hx.le.trans (h.le y hy)
    · exact (List.mem_singleton.1 hy).ge
  lt y hy := hx.trans_le (h.le y (by simpa using hy))

/-- A further element that is not less leaves the least in its place. -/
theorem FirstLeast.concat_of_le {l : List ℝ} {r : Nat} {m x : ℝ} (h : FirstLeast l r m) (hx : m ≤ x) :
    FirstLeast (l ++ [x]) r m where
  getElem? := by rw [List.getElem?_append_left h.lt_length, h.getElem?]
  le y hy := by
    rcases List.mem_append.1 hy with hy | hy
    · exact h.le y hy
    · exact List.mem_singleton.1 hy ▸ hx
  lt y hy := h.lt y (by rwa [List.take_append_of_le_length h.lt_length.le] at hy)

/-- The fold's invariant: its best so far is the first least of the elements it has passed. -/
theorem argminFrom_firstLeast {F : NumFmt ℝ} (hF : F.Exact) {ds l : List ℝ} {best : ℝ} {bi : Nat}
    (h : FirstLeast l bi best) : ∃ m, FirstLeast (l ++ ds) (argminFrom F best bi l.length ds) m := by
  induction ds generalizing l best bi with
  | nil => exact ⟨best, by simpa [argminFrom] using h⟩
  | cons d ds ih =>
    rw [argminFrom, List.append_cons, show l.length + 1 = (l ++ [d]).length by simp]
    split
    case isTrue hd => exact ih (h.concat_of_lt ((hF.lt d best).1 hd))
    case isFalse hd => exact ih (h.concat_of_le (not_lt.1 fun hlt => hd ((hF.lt d best).2 hlt)))

/-- Over exact reals `argmin` is the least index of a least element. -/
theorem argmin_firstLeast {F : NumFmt ℝ} (hF : F.Exact) {ds : List ℝ} (h : ds ≠ []) :
    ∃ m, FirstLeast ds (argmin F ds) m := by
  cases ds with
  | nil => exact absurd rfl h
  | cons d ds => exact argminFrom_firstLeast hF (l := [d]) (bi := 0) ⟨rfl, by simp, by simp⟩

/-- Over exact reals the classifier is `argmin` of the distances to the references. -/
theorem classify_exact {F : NumFmt ℝ} (hF : F.Exact) (c : Modem ℝ) (x t : ℝ) :
    classify F c x t = argmin F (c.par.map fun p => |x - refAt F c.carrier p t|) := by
  simp [classify, nearest, Function.comp_def, hF.abs, hF.sub]

end Sys2Proof.Claims

/-- Settles O38: the classifier returns the first least of the distances. -/
theorem classifyPicksTheLeastNearestIndex : Obligations.ClassifyPicksTheLeastNearestIndex := by
  unfold Obligations.ClassifyPicksTheLeastNearestIndex
  intro F hF c x t hc
  have hlt := classify_lt F hc x t
  obtain ⟨m, hm⟩ := argmin_firstLeast hF (ds := c.par.map fun p => |x - refAt F c.carrier p t|) (by simpa using hc)
  rw [← classify_exact hF] at hm
  obtain rfl : |x - refAt F c.carrier c.par[classify F c x t] t| = m := by simpa [hlt] using hm.getElem?
  refine ⟨hlt, fun i hi => hm.le _ (List.mem_map.2 ⟨_, List.getElem_mem hi, rfl⟩), fun i hi => hm.lt _ ?_⟩
  exact List.mem_take_iff_getElem.2 ⟨i, by simpa using ⟨hi, hi.trans hlt⟩, by simp⟩

/-! ### The vote -/

namespace Sys2Proof.Claims

/-- An ascending list is the sort of each of its permutations. -/
theorem insertionSort_eq_of_perm {codes d : List Nat} (hp : d.Perm codes) (hd : d.Pairwise (· ≤ ·)) :
    codes.insertionSort (· ≤ ·) = d :=
  ((List.perm_insertionSort _ codes).trans hp.symm).eq_of_pairwise' (List.pairwise_insertionSort _ codes) hd

variable {codes d : List Nat} (hp : d.Perm codes) (hd : d.Pairwise (· ≤ ·))
include hp hd

/-- The vote of an odd number of codes is the middle one of their ascending order. -/
theorem vote_of_odd (h : d.length % 2 = 1) : d[(d.length - 1) / 2]? = some (vote codes) := by
  have hlt : (d.length - 1) / 2 < d.length := by omega
  simp [vote, insertionSort_eq_of_perm hp hd, ← hp.length_eq, h, hlt]

/-- The vote of an even number of codes with the middle ones `a` and `b` is half their sum, rounded half to even. -/
theorem vote_of_even (h : d.length % 2 = 0) {a b : Nat} (ha : d[d.length / 2 - 1]? = some a)
    (hb : d[d.length / 2]? = some b) :
    ((a + b) % 2 = 0 → 2 * vote codes = a + b) ∧
      ((a + b) % 2 = 1 → vote codes % 2 = 0 ∧ (2 * vote codes = a + b + 1 ∨ 2 * vote codes + 1 = a + b)) := by
  simp only [vote, insertionSort_eq_of_perm hp hd, ← hp.length_eq, h, List.getD_eq_getElem?_getD, ha, hb,
    Option.getD_some, zero_ne_one, if_false]
  split
  case isTrue hs => omega
  case isFalse hs => split <;> omega

end Sys2Proof.Claims

/-- Settles O39: the ascending codes are the model's sort, whose middles exist as the list is not empty. -/
theorem voteIsTheMedianRoundedHalfToEven : Obligations.VoteIsTheMedianRoundedHalfToEven := by
  unfold Obligations.VoteIsTheMedianRoundedHalfToEven
  intro codes d hc hp hd
  have hpos : 0 < d.length := hp.length_eq ▸ List.length_pos_iff.2 hc
  refine ⟨vote_of_odd hp hd, fun h => ?_, fun k => vote_lt hc⟩
  have ha := List.getElem?_eq_getElem (l := d) (i := d.length / 2 - 1) (by omega)
  have hb := List.getElem?_eq_getElem (l := d) (i := d.length / 2) (by omega)
  exact ⟨_, _, ha, hb, vote_of_even hp hd h ha hb⟩

end

section
/-! The errors of 60_exceptions: which words raise ILLEGAL (R271), and what the end of a command leaves as it was (R284,
R285). -/

open Sys2Proof Sys2Proof.Machine Sys2Proof.Claims

/-! ### The legal words are the words of the commands that exist -/

namespace Sys2Proof

/-- The values 0 to 6 of VAR are those of the line codes (30_encoding R102). -/
theorem LineCode.exists_var_eq {b : BitVec 4} (h : b.toNat ≤ 6) : ∃ v : LineCode, v.var = b := by
  match b, h with
  | 0, _ => exact ⟨.nrz, rfl⟩
  | 1, _ => exact ⟨.nrzl, rfl⟩
  | 2, _ => exact ⟨.nrzi, rfl⟩
  | 3, _ => exact ⟨.ami, rfl⟩
  | 4, _ => exact ⟨.pst, rfl⟩
  | 5, _ => exact ⟨.man, rfl⟩
  | 6, _ => exact ⟨.dman, rfl⟩

theorem decodeLine_var (row : LineCode → Instr) (v : LineCode) : decodeLine row v.var 0#1 = .ok (row v) := by
  cases v <;> rfl

theorem decodeLine_of_gt (row : LineCode → Instr) {var : BitVec 4} (h : 6 < var.toNat) :
    decodeLine row var 0#1 = .error .reservedVar := by
  simp only [decodeLine, bne_self_eq_false, Bool.false_eq_true, if_false]
  split
  case h_8 => rfl
  all_goals omega

/-- OP 1 to 3 (30_encoding R102, R103): the fields of a row whose commands all exist. -/
theorem exists_decodeLine_ok {c : Config} {row : LineCode → Instr} (hrow : ∀ v, (row v).wellFormed c = true)
    (var : BitVec 4) (dur : BitVec 1) :
    (∃ i, decodeLine row var dur = .ok i ∧ i.wellFormed c = true) ↔ var.toNat ≤ 6 ∧ dur = 0#1 := by
  by_cases hd : dur = 0#1
  case neg => simp [decodeLine, hd]
  subst hd
  by_cases hv : var.toNat ≤ 6
  · obtain ⟨v, rfl⟩ := LineCode.exists_var_eq hv
    simp [decodeLine_var, hrow, hv]
  · simp [decodeLine_of_gt row (not_le.1 hv), hv]

/-- OP 5 to 9 (30_encoding R102, R103): both fields must be 0, and the one command must exist. -/
theorem exists_decodePlain_ok {c : Config} (i : Instr) (var : BitVec 4) (dur : BitVec 1) :
    (∃ j, decodePlain i var dur = .ok j ∧ j.wellFormed c = true) ↔
      (var = 0#4 ∧ dur = 0#1) ∧ i.wellFormed c = true := by
  by_cases hv : var = 0#4
  case neg => simp [decodePlain, hv]
  by_cases hd : dur = 0#1
  case neg => simp [decodePlain, hd, hv]
  simp [decodePlain, hd, hv]

/-- 30_encoding R108 read off the decoder of R107: a word is legal exactly when it decodes to a command that exists. -/
theorem legal_iff_decode {c : Config} {w : Word} :
    legal c.hasConvB w = true ↔ ∃ i, decode w = .ok i ∧ i.wellFormed c = true := by
  have henc : ∀ v, (encRow v).wellFormed c = true := fun v => by cases v <;> rfl
  have hdec : ∀ v, (decRow v).wellFormed c = true := fun v => by cases v <;> rfl
  have hlvl : ∀ v, (lvlRow v).wellFormed c = true := fun v => by cases v <;> rfl
  have hvar : (varField w).toNat = 0 ↔ varField w = 0#4 := BitVec.toNat_inj (y := 0#4)
  have hdur : (durField w).toNat = 0 ↔ durField w = 0#1 := BitVec.toNat_inj (y := 0#1)
  unfold legal decode
  by_cases hr : rsvField w = 0#23
  case neg => simp [hr]
  simp only [hr, bne_self_eq_false, Bool.false_eq_true, if_false, beq_self_eq_true, Bool.true_and]
  split
  case h_1 h => simp [h, hdur, exists_decodeLine_ok henc]
  case h_2 h => simp [h, hdur, exists_decodeLine_ok hdec]
  case h_3 h => simp [h, hdur, exists_decodeLine_ok hlvl]
  case h_4 h =>
    have hmod : Instr.mod.wellFormed c = true := rfl
    have hmodDur : Instr.modDur.wellFormed c = true := rfl
    by_cases hd : durField w = 0#1 <;> simp [h, hvar, hd, ite_eq_iff, hmod, hmodDur]
  case h_5 h | h_6 h | h_7 h | h_8 h | h_9 h =>
    rw [exists_decodePlain_ok]
    simp [h, hvar, hdur, Instr.wellFormed, Instr.isConvB]
  case h_10 => simp_all

end Sys2Proof

namespace Sys2Proof.Machine

/-! ### The engine's turn -/

/-- A word that is not legal, be it no command or one that does not exist, ends in ILLEGAL(0). -/
theorem engineStep_of_not_legal {s : State} (h : legal s.cfg.hasConvB s.cmd = false) :
    engineStep s = .next (s.raise .illegal 0) := by
  unfold engineStep
  cases hd : decode s.cmd with
  | error _ => rfl
  | ok i =>
    have hw : ¬i.wellFormed s.cfg = true := fun hw => by simp [legal_iff_decode.2 ⟨i, hd, hw⟩] at h
    exact (exec_eq i s).trans (if_neg hw)

/-- No computation raises ILLEGAL, so a command that exists does not end in it. -/
theorem exec_ecode_ne_illegal {i : Instr} {s t : State} (hw : i.wellFormed s.cfg = true) (h : exec i s = .next t) :
    t.status.ecode ≠ some .illegal := by
  rcases exec_cases h with ⟨hn, -⟩ | ⟨-, u, v, -, ⟨r, -, rfl⟩ | ⟨e, n, he, rfl⟩⟩
  · simp [hw] at hn
  · simp [Status.success]
  · rintro ⟨rfl⟩
    exact bodyOf_halts i u _ he

/-- A legal word does not end in ILLEGAL. -/
theorem engineStep_ecode_ne_illegal {s t : State} (hl : legal s.cfg.hasConvB s.cmd = true)
    (h : engineStep s = .next t) : t.status.ecode ≠ some .illegal := by
  obtain ⟨i, hd, hw⟩ := legal_iff_decode.1 hl
  rw [engineStep, hd] at h
  exact exec_ecode_ne_illegal hw h

end Sys2Proof.Machine

namespace Sys2Proof.Claims

/-- When the engine is next, the step is its turn on the state with the rest of the agenda. -/
theorem EngineNext.step_eq {s : State} {rest : List Move} (h : EngineNext s rest) :
    step s = engineTurn { s with agenda := rest } := by
  rcases h with ⟨ha, rfl⟩ | ha
  · simp only [step, ha]
    rw [← ha]
  · simp only [step, ha, moveStep]

theorem EngineNext.step_of_busy {s : State} {rest : List Move} (h : EngineNext s rest) (hb : s.status.busy = true) :
    step s = engineStep { s with agenda := rest } :=
  h.step_eq.trans (if_pos hb)

end Sys2Proof.Claims

/-- Settles O4: the step is the engine's, where a legal word is that of a command that exists, and no computation of one
raises ILLEGAL. -/
theorem illegalIsRaisedExactlyByIllegalWords : Obligations.IllegalIsRaisedExactlyByIllegalWords := by
  unfold Obligations.IllegalIsRaisedExactlyByIllegalWords
  intro s rest hn hb
  rw [hn.step_of_busy hb]
  exact ⟨engineStep_of_not_legal (s := { s with agenda := rest }),
    fun hl _ => engineStep_ecode_ne_illegal (s := { s with agenda := rest }) hl⟩

/-! ### The end of a command -/

/-- Settles O43: a next state of a command is entered by success or by the error entry. -/
theorem commandEndsInSuccessOrPreciseError : Obligations.CommandEndsInSuccessOrPreciseError := by
  unfold Obligations.CommandEndsInSuccessOrPreciseError
  intro i s t h
  obtain ⟨-, fs, ⟨r, -, rfl⟩ | ⟨e, n, rfl⟩⟩ := exec_next h
  · exact .inl ⟨rfl, rfl⟩
  · exact .inr ⟨e, n, rfl⟩

end

section
/-! The command words of 30_encoding: the decoder and the encoder agree on every word (R100 to R107), and the legal words
are the listed ones (R105). -/

open Sys2Proof Sys2Proof.Machine Sys2Proof.Claims

namespace Sys2Proof

/-- The four fields make up the word (30_encoding R100). -/
theorem rsv_dur_var_op_append (w : Word) : rsvField w ++ durField w ++ varField w ++ opField w = w := by
  refine BitVec.eq_of_getLsbD_eq fun k hk => ?_
  have hk' : ¬k < 9 → k - 4 - 4 - 1 < 23 := by omega
  simp only [BitVec.getLsbD_append, rsvField, durField, varField, opField, BitVec.getLsbD_extractLsb']
  by_cases h4 : k < 4
  · simp [h4]
  by_cases h8 : k - 4 < 4
  · simp [h4, h8, show 4 + (k - 4) = k by omega]
  by_cases h9 : k - 4 - 4 < 1
  · simp [h4, h8, h9, show 8 + (k - 4 - 4) = k by omega]
  · simp [h4, h8, h9, hk' (by omega), show 9 + (k - 4 - 4 - 1) = k by omega]

/-- A word whose RSV is 0 is the command word of its other fields. -/
theorem commandWord_of_fields {w : Word} {op var : BitVec 4} {dur : BitVec 1} (hr : rsvField w = 0#23)
    (hd : durField w = dur) (hv : varField w = var) (ho : (opField w).toNat = op.toNat) : w = commandWord op var dur := by
  obtain rfl := BitVec.eq_of_toNat_eq ho
  rw [commandWord, ← hr, ← hd, ← hv, rsv_dur_var_op_append]

theorem decodeLine_eq_ok {row : LineCode → Instr} {var : BitVec 4} {dur : BitVec 1} {i : Instr}
    (h : decodeLine row var dur = .ok i) : ∃ v : LineCode, i = row v ∧ var = v.var ∧ dur = 0#1 := by
  by_cases hd : dur = 0#1
  case neg => simp [decodeLine, hd] at h
  subst hd
  by_cases hv : var.toNat ≤ 6
  · obtain ⟨v, rfl⟩ := LineCode.exists_var_eq hv
    rw [decodeLine_var] at h
    exact ⟨v, (Except.ok.inj h).symm, rfl, rfl⟩
  · simp [decodeLine_of_gt row (not_le.1 hv)] at h

theorem decodePlain_eq_ok {i j : Instr} {var : BitVec 4} {dur : BitVec 1} (h : decodePlain i var dur = .ok j) :
    j = i ∧ var = 0#4 ∧ dur = 0#1 := by
  by_cases hv : var = 0#4
  case neg => simp [decodePlain, hv] at h
  by_cases hd : dur = 0#1
  case neg => simp [decodePlain, hv, hd] at h
  simp only [decodePlain, hv, hd, bne_self_eq_false, Bool.false_eq_true, if_false, Except.ok.injEq] at h
  exact ⟨h.symm, hv, hd⟩

theorem encode_encRow (v : LineCode) : encode (encRow v) = commandWord 1 v.var 0 := by cases v <;> rfl
theorem encode_decRow (v : LineCode) : encode (decRow v) = commandWord 2 v.var 0 := by cases v <;> rfl
theorem encode_lvlRow (v : LineCode) : encode (lvlRow v) = commandWord 3 v.var 0 := by cases v <;> rfl

theorem decode_encode (i : Instr) : decode (encode i) = .ok i := by cases i <;> rfl

/-- A word that decodes has the fields of its command's word. -/
theorem eq_encode_of_decode {w : Word} {i : Instr} (h : decode w = .ok i) : w = encode i := by
  unfold decode at h
  by_cases hr : rsvField w = 0#23
  case neg => simp [hr] at h
  simp only [hr, bne_self_eq_false, Bool.false_eq_true, if_false] at h
  split at h
  case h_1 ho =>
    obtain ⟨v, rfl, hv, hd⟩ := decodeLine_eq_ok h
    exact (commandWord_of_fields (op := 1) hr hd hv ho).trans (encode_encRow v).symm
  case h_2 ho =>
    obtain ⟨v, rfl, hv, hd⟩ := decodeLine_eq_ok h
    exact (commandWord_of_fields (op := 2) hr hd hv ho).trans (encode_decRow v).symm
  case h_3 ho =>
    obtain ⟨v, rfl, hv, hd⟩ := decodeLine_eq_ok h
    exact (commandWord_of_fields (op := 3) hr hd hv ho).trans (encode_lvlRow v).symm
  case h_4 ho =>
    by_cases hv : varField w = 0#4
    case neg => simp [hv] at h
    rcases BitVec.eq_zero_or_eq_one (durField w) with hd | hd
    · simp only [hv, hd, bne_self_eq_false, Bool.false_eq_true, if_false, Except.ok.injEq] at h
      exact h ▸ commandWord_of_fields (op := 4) hr hd hv ho
    · simp [hv, hd] at h
      exact h ▸ commandWord_of_fields (op := 4) hr hd hv ho
  case h_5 ho | h_6 ho | h_7 ho | h_8 ho | h_9 ho =>
    obtain ⟨rfl, hv, hd⟩ := decodePlain_eq_ok h
    exact commandWord_of_fields hr hd hv ho
  case h_10 => cases h

end Sys2Proof

/-- Settles O2: a command's word decodes to it, and a word that decodes has the fields of its command's word. -/
theorem decodeAndEncodeAgreeOnEveryWord : Obligations.DecodeAndEncodeAgreeOnEveryWord := by
  unfold Obligations.DecodeAndEncodeAgreeOnEveryWord
  exact fun w i => ⟨eq_encode_of_decode, fun h => h ▸ decode_encode i⟩

/-- Settles O1: each word is the command's own. -/
theorem tableWordsDecodeToTheirCommands : Obligations.TableWordsDecodeToTheirCommands := by
  unfold Obligations.TableWordsDecodeToTheirCommands
  exact ⟨decode_encode .encNrzi, decode_encode .decMan, decode_encode .lvlAmi, decode_encode .mod, decode_encode .modDur,
    decode_encode .demod, decode_encode .sig, decode_encode .demodb⟩

namespace Sys2Proof

/-- The legal words are the words of the commands that exist. -/
theorem legal_iff_exists_encode {c : Config} {w : Word} :
    legal c.hasConvB w = true ↔ ∃ i : Instr, i.wellFormed c = true ∧ w = encode i := by
  rw [legal_iff_decode]
  exact exists_congr fun i => by rw [decodeAndEncodeAgreeOnEveryWord w i, and_comm]

/-- The words of the three line-code rows are listed by VAR, 0 to 6 (30_encoding R105). -/
theorem exists_lineCode_words {v : Nat} (h : v ≤ 6) : ∃ l : LineCode,
    0x00000001#32 ||| (BitVec.ofNat 32 v <<< 4) = encode (encRow l) ∧
    0x00000002#32 ||| (BitVec.ofNat 32 v <<< 4) = encode (decRow l) ∧
    0x00000003#32 ||| (BitVec.ofNat 32 v <<< 4) = encode (lvlRow l) := by
  match v, h with
  | 0, _ => exact ⟨.nrz, rfl, rfl, rfl⟩
  | 1, _ => exact ⟨.nrzl, rfl, rfl, rfl⟩
  | 2, _ => exact ⟨.nrzi, rfl, rfl, rfl⟩
  | 3, _ => exact ⟨.ami, rfl, rfl, rfl⟩
  | 4, _ => exact ⟨.pst, rfl, rfl, rfl⟩
  | 5, _ => exact ⟨.man, rfl, rfl, rfl⟩
  | 6, _ => exact ⟨.dman, rfl, rfl, rfl⟩

end Sys2Proof

/-- Settles O3: the legal words are those of the commands that exist, and the line-code words are listed by VAR. -/
theorem legalWordsAreExactlyTheListed : Obligations.LegalWordsAreExactlyTheListed := by
  unfold Obligations.LegalWordsAreExactlyTheListed
  intro convB w
  rw [show convB = Config.hasConvB { (default : Config) with hasConvB := convB } from rfl, legal_iff_exists_encode]
  constructor
  · rintro ⟨i, hi, rfl⟩
    cases i
    case encNrz | decNrz | lvlNrz => exact .inl ⟨0, by decide⟩
    case encNrzl | decNrzl | lvlNrzl => exact .inl ⟨1, by decide⟩
    case encNrzi | decNrzi | lvlNrzi => exact .inl ⟨2, by decide⟩
    case encAmi | decAmi | lvlAmi => exact .inl ⟨3, by decide⟩
    case encPst | decPst | lvlPst => exact .inl ⟨4, by decide⟩
    case encMan | decMan | lvlMan => exact .inl ⟨5, by decide⟩
    case encDman | decDman | lvlDman => exact .inl ⟨6, by decide⟩
    case mod => exact .inr (.inl rfl)
    case modDur => exact .inr (.inr (.inl rfl))
    case demod => exact .inr (.inr (.inr (.inl rfl)))
    case sig => exact .inr (.inr (.inr (.inr (.inl rfl))))
    case mlvl => exact .inr (.inr (.inr (.inr (.inr (.inl rfl)))))
    case modg => exact .inr (.inr (.inr (.inr (.inr (.inr ⟨hi, .inl rfl⟩)))))
    case demodb => exact .inr (.inr (.inr (.inr (.inr (.inr ⟨hi, .inr rfl⟩)))))
  · rintro (⟨v, hv, hw⟩ | rfl | rfl | rfl | rfl | rfl | ⟨hb, rfl | rfl⟩)
    · obtain ⟨l, henc, hdec, hlvl⟩ := exists_lineCode_words hv
      rw [henc, hdec, hlvl] at hw
      rcases hw with rfl | rfl | rfl
      · exact ⟨encRow l, by cases l <;> rfl, rfl⟩
      · exact ⟨decRow l, by cases l <;> rfl, rfl⟩
      · exact ⟨lvlRow l, by cases l <;> rfl, rfl⟩
    · exact ⟨.mod, rfl, rfl⟩
    · exact ⟨.modDur, rfl, rfl⟩
    · exact ⟨.demod, rfl, rfl⟩
    · exact ⟨.sig, rfl, rfl⟩
    · exact ⟨.mlvl, rfl, rfl⟩
    · exact ⟨.modg, hb, rfl⟩
    · exact ⟨.demodb, hb, rfl⟩

end

section
/-! The step of the machine: what one step can do, the invariant of 10_state (R36 to R40, R55, R56), what a step leaves
(00_scope R12, R21), BUSY (R37), reset (R60), and ESTATE, which nothing reads (R61). -/

open Sys2Proof Sys2Proof.Machine Sys2Proof.Claims

/-! ### What one step can do -/

namespace Sys2Proof.Machine

/-- A word at a register's offset is the only form of access that reaches it. -/
theorem targetReg_eq_ok {off width : Nat} {r : Reg} (h : targetReg off width = .ok r) : off = r.offset ∧ width = 4 := by
  unfold targetReg at h
  split at h
  · cases h
  · rename_i hf
    split at h
    · cases h
    · rename_i r' hr
      obtain rfl := Except.ok.inj h
      have hw : width = 4 := by
        simp only [Bool.or_eq_true, bne_iff_ne, not_or, not_not] at hf
        exact hf.1
      exact ⟨(Reg.ofOffset_eq_some.1 hr).symm, hw⟩

theorem State.answerReg_of_some {s : State} {r : Reg} {w : Word} (h : s.regRead r = some w) :
    s.answerReg r = s.answer w := by
  have hr : s.reg r = Held.of w := Held.read_eq_some.1 h
  simp [State.answerReg, hr, Held.of]

theorem State.answerReg_of_none {s : State} {r : Reg} (h : s.regRead r = none) :
    s.answerReg r = (s.mark (.unwritten (.reg r))).answer (s.reg r).word := by
  have hr : (s.reg r).written = false := Held.read_eq_none.1 h
  simp [State.answerReg, hr]

/-- What an admitted host access can do: a read answers; a write, which needs BUSY = 0, stores. -/
theorem access_cases {s t : State} {a : Access} (h : s.access a = .next t) :
    (∃ r, a = .readReg r.offset 4 ∧ t = s.answerReg r) ∨
    (∃ b i w, a = .readBuf b i ∧ (s.buf b).read i = some w ∧ t = s.answer w) ∨
    (s.status.busy = false ∧ ∃ r v, a = .writeReg r.offset 4 v ∧ t = s.regWrite r v) ∨
    (s.status.busy = false ∧ ∃ b i v, a = .writeBuf b i v ∧ i < capOf s.cfg b ∧
      t = s.setBuf b ((s.buf b).write i v)) := by
  unfold State.access at h
  split at h
  · cases h
  rename_i hb
  have hwrite (ha : a.readsStatus = false) : s.status.busy = false := by simpa [ha] using hb
  cases a with
  | readReg off width =>
    simp only [State.accessIdle] at h
    split at h
    · cases h
    · rename_i r hr
      obtain ⟨rfl, rfl⟩ := targetReg_eq_ok hr
      cases h
      exact .inl ⟨r, rfl, rfl⟩
  | writeReg off width v =>
    simp only [State.accessIdle] at h
    split at h
    · cases h
    · rename_i r hr
      obtain ⟨rfl, rfl⟩ := targetReg_eq_ok hr
      cases h
      exact .inr (.inr (.inl ⟨hwrite rfl, r, v, rfl, rfl⟩))
  | readBuf b i =>
    simp only [State.accessIdle, State.answerElem] at h
    split at h
    · split at h
      · rename_i w hw
        cases h
        exact .inr (.inl ⟨b, i, w, rfl, hw, rfl⟩)
      · cases h
    · cases h
  | writeBuf b i v =>
    simp only [State.accessIdle] at h
    split at h
    · rename_i hi
      cases h
      exact .inr (.inr (.inr ⟨hwrite rfl, b, i, v, rfl, hi, rfl⟩))
    · cases h

/-- What a step of the engine can do: a command completes, or an error is entered; at most one register is marked. -/
theorem engineStep_next {s t : State} (h : engineStep s = .next t) :
    RecordOnlyGrows s t ∧ ∃ fs, (∃ i r, Completes i s r ∧ t = State.succeed { s with faults := fs } r) ∨
      ∃ e n, t = State.raise { s with faults := fs } e n := by
  unfold engineStep at h
  split at h
  · rename_i i _
    obtain ⟨hg, fs, ⟨r, hc, ht⟩ | ht⟩ := exec_next h
    · exact ⟨hg, fs, .inl ⟨i, r, hc, ht⟩⟩
    · exact ⟨hg, fs, .inr ht⟩
  · cases h
    exact ⟨.inl rfl, s.faults, .inr ⟨_, _, rfl⟩⟩

/-- A step of the engine clears BUSY. -/
theorem engineStep_busy {s t : State} (h : engineStep s = .next t) : t.status.busy = false := by
  obtain ⟨-, fs, ⟨i, r, -, rfl⟩ | ⟨e, n, rfl⟩⟩ := engineStep_next h <;> rfl

theorem engineTurn_of_busy {s : State} (h : s.status.busy = true) : engineTurn s = engineStep s := if_pos h

theorem engineTurn_of_not_busy {s : State} (h : s.status.busy = false) : engineTurn s = .next s :=
  if_neg (Bool.eq_false_iff.1 h)

/-- A step is the engine's, a reset, or a host access. -/
theorem step_cases {s : State} {o : Step} (h : step s = o) :
    (∃ rest, EngineNext s rest ∧ engineTurn { s with agenda := rest } = o) ∨
    (∃ rest, s.agenda = .reset :: rest ∧ .next (State.takeReset { s with agenda := rest }) = o) ∨
    ∃ a rest, s.agenda = .host a :: rest ∧ State.access { s with agenda := rest } a = o := by
  cases ha : s.agenda with
  | nil => exact .inl ⟨[], .inl ⟨ha, rfl⟩, (EngineNext.step_eq (.inl ⟨ha, rfl⟩)).symm.trans h⟩
  | cons m rest =>
    cases m with
    | engine => exact .inl ⟨rest, .inr ha, (EngineNext.step_eq (.inr ha)).symm.trans h⟩
    | reset => exact .inr (.inl ⟨rest, rfl, by simpa only [step, ha, moveStep] using h⟩)
    | host a => exact .inr (.inr ⟨a, rest, rfl, (step_of_host ha).symm.trans h⟩)

end Sys2Proof.Machine

/-! ### The invariant -/

namespace Sys2Proof.Claims

theorem Inv.of_agenda {s : State} (h : Inv s) (ag : List Move) : Inv { s with agenda := ag } :=
  ⟨h.canonical, h.bounded, h.outWritten, h.oneFlag, h.ecode, h.eidx, h.estate⟩

theorem Inv.of_faults {s : State} (h : Inv s) (fs : List ModelFault) : Inv { s with faults := fs } :=
  ⟨h.canonical, h.bounded, h.outWritten, h.oneFlag, h.ecode, h.eidx, h.estate⟩

theorem Inv.answer {s : State} (h : Inv s) (w : Word) : Inv (s.answer w) :=
  ⟨h.canonical, h.bounded, h.outWritten, h.oneFlag, h.ecode, h.eidx, h.estate⟩

theorem Inv.answerReg {s : State} (h : Inv s) (r : Reg) : Inv (s.answerReg r) := by
  cases hr : s.regRead r with
  | some w => exact State.answerReg_of_some hr ▸ h.answer w
  | none => exact State.answerReg_of_none hr ▸ (h.of_faults _).answer _

theorem Inv.latch {s : State} (h : Inv s) (v : Word) : Inv (s.latch v) where
  canonical := h.canonical
  bounded := h.bounded
  outWritten := h.outWritten
  oneFlag := by simp [Status.latched]
  ecode := by simp [Status.latched]
  eidx _ := rfl
  estate := h.estate

/-- A register write other than that of CMD touches nothing the invariant speaks of. -/
theorem Inv.regWrite {s : State} (h : Inv s) (r : Reg) (v : Word) : Inv (s.regWrite r v) := by
  cases r
  case cmd => exact h.latch v
  all_goals exact ⟨h.canonical, h.bounded, h.outWritten, h.oneFlag, h.ecode, h.eidx, h.estate⟩

/-- A host write of an element keeps the buffers canonical and bounded, and takes no element away. -/
theorem Inv.setBuf {s : State} (h : Inv s) {b : Buf} {i : Nat} (hi : i < capOf s.cfg b) (v : Word) :
    Inv (s.setBuf b ((s.buf b).write i v)) := by
  obtain ⟨hin, htin, hout, htout⟩ := h.canonical
  obtain ⟨bin, btin, bout, btout⟩ := h.bounded
  have hw {m : Memory} (hm : m.wf = true) := Memory.wf_write hm i v
  have hb {m : Memory} (hm : m.within (capOf s.cfg b) = true) := Memory.within_write hm hi v
  cases b with
  | inB =>
    exact ⟨⟨hw hin, htin, hout, htout⟩, ⟨hb bin, btin, bout, btout⟩, h.outWritten, h.oneFlag, h.ecode, h.eidx, h.estate⟩
  | tin =>
    exact ⟨⟨hin, hw htin, hout, htout⟩, ⟨bin, hb btin, bout, btout⟩, h.outWritten, h.oneFlag, h.ecode, h.eidx, h.estate⟩
  | out =>
    refine ⟨⟨hin, htin, hw hout, htout⟩, ⟨bin, btin, hb bout, btout⟩, fun j hj => ?_, h.oneFlag, h.ecode, h.eidx,
      h.estate⟩
    have hread := Memory.read_write s.outBuf i v j
    by_cases hji : j = i
    · simp [hji]
    · simpa [hread, hji] using h.outWritten j hj
  | tout =>
    exact ⟨⟨hin, htin, hout, hw htout⟩, ⟨bin, btin, bout, hb btout⟩, h.outWritten, h.oneFlag, h.ecode, h.eidx, h.estate⟩

theorem Inv.raise {s : State} (h : Inv s) (e : ErrCode) (n : Nat) : Inv (s.raise e n) where
  canonical := h.canonical
  bounded := h.bounded
  outWritten := h.outWritten
  oneFlag := by simp
  ecode := by simp
  eidx he := by simp at he
  estate := h.estate

/-- A result that fits keeps TOUT canonical and bounded. -/
theorem Inv.succeed_tout {s : State} (h : Inv s) {r : Result} (hf : Fits s r) :
    (s.succeed r).toutBuf.wf = true ∧ (s.succeed r).toutBuf.within s.cfg.capOut = true := by
  obtain ⟨-, -, -, hc⟩ := h.canonical
  obtain ⟨-, -, -, hb⟩ := h.bounded
  cases ht : r.tout with
  | none => rw [State.succeed_toutBuf_of_none s ht]; exact ⟨hc, hb⟩
  | some ts =>
    have hl : 0 + ts.length ≤ s.cfg.capOut := by rw [Nat.zero_add, hf.times ts ht]; exact hf.len
    rw [State.succeed_toutBuf_of_some s ht]
    exact ⟨Memory.wf_writeFrom ts hc 0, Memory.within_writeFrom ts hb 0 hl⟩

/-- A result that fits is entered within OUT, and OUT_LEN counts what it wrote. -/
theorem Inv.succeed {s : State} (h : Inv s) {r : Result} (hf : Fits s r) : Inv (s.succeed r) := by
  obtain ⟨hin, htin, hout, -⟩ := h.canonical
  obtain ⟨bin, btin, bout, -⟩ := h.bounded
  obtain ⟨htout, btout⟩ := h.succeed_tout hf
  refine ⟨⟨hin, htin, Memory.wf_writeFrom _ hout 0, htout⟩,
    ⟨bin, btin, Memory.within_writeFrom _ bout 0 (by simpa using hf.len), btout⟩, fun j hj => ?_, by simp, by simp,
    fun _ => rfl, ?_⟩
  · rw [State.succeed_outBuf, Memory.read_writeFrom_zero_of_lt _ (lt_of_lt_lenWord hj)]
    exact Option.some_ne_none _
  · rw [State.succeed_estate]
    cases he : r.estate with
    | none => exact h.estate
    | some e => exact hf.estate e he

theorem inv_resetWith (c : Config) : Inv (State.resetWith c) where
  canonical := ⟨rfl, rfl, rfl, rfl⟩
  bounded := ⟨rfl, rfl, rfl, rfl⟩
  outWritten j hj := absurd hj (Nat.not_lt_zero j)
  oneFlag := by simp [State.resetWith]
  ecode := by simp [State.resetWith]
  eidx _ := rfl
  estate := .inl rfl

theorem inv_takeReset (s : State) : Inv s.takeReset :=
  have h := inv_resetWith s.cfg
  ⟨h.canonical, h.bounded, h.outWritten, h.oneFlag, h.ecode, h.eidx, h.estate⟩

theorem Inv.engineTurn {s t : State} (h : Inv s) (ht : engineTurn s = .next t) : Inv t := by
  cases hb : s.status.busy with
  | false =>
    rw [engineTurn_of_not_busy hb] at ht
    cases ht
    exact h
  | true =>
    rw [engineTurn_of_busy hb] at ht
    obtain ⟨-, fs, ⟨i, r, hc, rfl⟩ | ⟨e, n, rfl⟩⟩ := engineStep_next ht
    · exact (h.of_faults fs).succeed ⟨hc.fits.len, hc.fits.times, hc.fits.estate⟩
    · exact (h.of_faults fs).raise e n

theorem Inv.access {s t : State} {a : Access} (h : Inv s) (ht : s.access a = .next t) : Inv t := by
  rcases access_cases ht with ⟨r, -, rfl⟩ | ⟨b, i, w, -, -, rfl⟩ | ⟨-, r, v, -, rfl⟩ | ⟨-, b, i, v, -, hi, rfl⟩
  · exact h.answerReg r
  · exact h.answer w
  · exact h.regWrite r v
  · exact h.setBuf hi v

end Sys2Proof.Claims

/-- Settles O59: the engine's turn, a reset and a host access each keep the invariant. -/
theorem everyStepKeepsTheInvariant : Obligations.EveryStepKeepsTheInvariant := by
  unfold Obligations.EveryStepKeepsTheInvariant
  intro s t h ht
  rcases step_cases ht with ⟨rest, -, ht⟩ | ⟨rest, -, ht⟩ | ⟨a, rest, -, ht⟩
  · exact (h.of_agenda rest).engineTurn ht
  · cases ht
    exact inv_takeReset _
  · exact (h.of_agenda rest).access ht

/-- Settles O58: the state after reset has empty buffers, no flag and the level −1. -/
theorem invariantHoldsAtReset : Obligations.InvariantHoldsAtReset := by
  unfold Obligations.InvariantHoldsAtReset
  exact fun c ag => (inv_resetWith c).of_agenda ag

/-! ### The engine's next step -/

/-- Settles O5: when the engine is next the step is its turn, which is the command's meaning or nothing. -/
theorem stepRunsTheDecodedCommand : Obligations.StepRunsTheDecodedCommand := by
  unfold Obligations.StepRunsTheDecodedCommand
  intro s rest hn
  refine ⟨fun i hb hd => ?_, fun hb => ?_⟩
  · rw [hn.step_of_busy hb, engineStep]
    simp only [hd]
  · rw [hn.step_eq, engineTurn_of_not_busy (s := { s with agenda := rest }) hb]

/-! ### Parameters and the fault record -/

namespace Sys2Proof.Claims

theorem recordOnlyGrows_answerReg (s : State) (r : Reg) : RecordOnlyGrows s (s.answerReg r) := by
  cases hr : s.regRead r with
  | some w => exact State.answerReg_of_some hr ▸ .inl rfl
  | none => exact State.answerReg_of_none hr ▸ .inr ⟨r, hr, rfl⟩

end Sys2Proof.Claims

namespace Sys2Proof.Machine

@[simp] theorem State.cfg_answerReg (s : State) (r : Reg) : (s.answerReg r).cfg = s.cfg := by
  unfold State.answerReg; split <;> rfl
@[simp] theorem State.status_answerReg (s : State) (r : Reg) : (s.answerReg r).status = s.status := by
  unfold State.answerReg; split <;> rfl

@[simp] theorem State.regWrite_cfg (s : State) (r : Reg) (v : Word) : (s.regWrite r v).cfg = s.cfg := by cases r <;> rfl
@[simp] theorem State.regWrite_faults (s : State) (r : Reg) (v : Word) : (s.regWrite r v).faults = s.faults := by
  cases r <;> rfl
theorem State.regWrite_status (s : State) {r : Reg} (hr : r ≠ .cmd) (v : Word) : (s.regWrite r v).status = s.status := by
  cases r
  case cmd => exact absurd rfl hr
  all_goals rfl

@[simp] theorem State.setBuf_cfg (s : State) (b : Buf) (m : Memory) : (s.setBuf b m).cfg = s.cfg := by cases b <;> rfl
@[simp] theorem State.setBuf_faults (s : State) (b : Buf) (m : Memory) : (s.setBuf b m).faults = s.faults := by
  cases b <;> rfl
@[simp] theorem State.setBuf_status (s : State) (b : Buf) (m : Memory) : (s.setBuf b m).status = s.status := by
  cases b <;> rfl

@[simp] theorem State.agenda_answerReg (s : State) (r : Reg) : (s.answerReg r).agenda = s.agenda := by
  unfold State.answerReg; split <;> rfl

theorem engineTurn_keeps {s t : State} (h : engineTurn s = .next t) : t.cfg = s.cfg ∧ RecordOnlyGrows s t := by
  cases hb : s.status.busy with
  | false =>
    rw [engineTurn_of_not_busy hb] at h
    cases h
    exact ⟨rfl, .inl rfl⟩
  | true =>
    rw [engineTurn_of_busy hb] at h
    obtain ⟨hg, fs, ⟨i, r, -, rfl⟩ | ⟨e, n, rfl⟩⟩ := engineStep_next h
    · exact ⟨rfl, hg⟩
    · exact ⟨rfl, hg⟩

theorem access_keeps {s t : State} {a : Access} (h : s.access a = .next t) : t.cfg = s.cfg ∧ RecordOnlyGrows s t := by
  rcases access_cases h with ⟨r, -, rfl⟩ | ⟨b, i, w, -, -, rfl⟩ | ⟨-, r, v, -, rfl⟩ | ⟨-, b, i, v, -, -, rfl⟩
  · exact ⟨s.cfg_answerReg r, recordOnlyGrows_answerReg s r⟩
  · exact ⟨rfl, .inl rfl⟩
  · exact ⟨s.regWrite_cfg r v, .inl (s.regWrite_faults r v)⟩
  · exact ⟨s.setBuf_cfg b _, .inl (s.setBuf_faults b _)⟩

end Sys2Proof.Machine

/-- Settles O7: the engine's turn and a host access mark at most one unwritten register, and a reset marks nothing. -/
theorem stepKeepsParametersAndFaultRecord : Obligations.StepKeepsParametersAndFaultRecord := by
  unfold Obligations.StepKeepsParametersAndFaultRecord
  intro s t ht
  rcases step_cases ht with ⟨rest, -, ht⟩ | ⟨rest, -, ht⟩ | ⟨a, rest, -, ht⟩
  · exact engineTurn_keeps (s := { s with agenda := rest }) ht
  · cases ht
    exact ⟨rfl, .inl rfl⟩
  · exact access_keeps (s := { s with agenda := rest }) ht

/-! ### BUSY -/

namespace Sys2Proof.Machine

theorem engineTurn_busy {s t : State} (h : engineTurn s = .next t) : t.status.busy = false := by
  cases hb : s.status.busy with
  | false =>
    rw [engineTurn_of_not_busy hb] at h
    cases h
    exact hb
  | true => exact engineStep_busy ((engineTurn_of_busy hb).symm.trans h)

/-- A host access leaves STATUS as it is, but for a write of CMD, which latches. -/
theorem access_status {s t : State} {a : Access} (h : s.access a = .next t) :
    t.status = s.status ∨ s.status.busy = false ∧ ∃ v, a = .writeReg 0x00 4 v ∧ t = s.latch v := by
  rcases access_cases h with ⟨r, -, rfl⟩ | ⟨b, i, w, -, -, rfl⟩ | ⟨hb, r, v, rfl, rfl⟩ | ⟨-, b, i, v, -, -, rfl⟩
  · exact .inl (s.status_answerReg r)
  · exact .inl rfl
  · by_cases hr : r = .cmd
    · exact .inr ⟨hb, v, by rw [hr]; rfl, by rw [hr]; rfl⟩
    · exact .inl (s.regWrite_status hr v)
  · exact .inl (s.setBuf_status b _)

end Sys2Proof.Machine

/-- Settles O6: the engine's turn and a reset end with BUSY = 0, and the one host access that touches STATUS is the write
of CMD, which needs BUSY = 0. -/
theorem busyIsSetByCmdWriteAndClearedByEngineOrReset : Obligations.BusyIsSetByCmdWriteAndClearedByEngineOrReset := by
  unfold Obligations.BusyIsSetByCmdWriteAndClearedByEngineOrReset
  intro s t ht
  rcases step_cases ht with ⟨rest, hn, ht⟩ | ⟨rest, ha, ht⟩ | ⟨a, rest, ha, ht⟩
  · exact ⟨fun _ hb => absurd hb (by simp [engineTurn_busy ht]), fun _ _ => .inl ⟨rest, hn⟩⟩
  · cases ht
    exact ⟨fun _ hb => absurd hb (by simp [Status.idle]), fun _ _ => .inr ⟨rest, ha⟩⟩
  · rcases access_status ht with hs | ⟨hb, v, rfl, rfl⟩
    · exact ⟨fun h0 h1 => absurd (hs ▸ h1) (by simp [h0]), fun h1 h0 => absurd (hs ▸ h0) (by simp [h1])⟩
    · exact ⟨fun _ _ => ⟨v, rest, ha, rfl⟩, fun h1 => absurd hb (by simp [h1])⟩

namespace Sys2Proof.Machine

/-- A run of the machine, its steps and states by their own types. -/
def runFor (k : Nat) (s : State) : Step := core.run k s

theorem runFor_zero (s : State) : runFor 0 s = .next s := rfl

theorem runFor_succ_of_next {s t : State} (h : step s = .next t) (k : Nat) : runFor (k + 1) s = runFor k t := by
  have h' : core.step s = .next t := h
  have hrun : core.run (k + 1) s = core.run k t := by simp only [Host.Core.run, h']
  exact hrun

theorem runFor_succ_of_fault {s : State} {f : Fault} (h : step s = .fault f) (k : Nat) :
    runFor (k + 1) s = .fault f := by
  have h' : core.step s = .fault f := h
  have hrun : core.run (k + 1) s = .fault f := by simp only [Host.Core.run, h']
  exact hrun

theorem access_ne_refused (s : State) (a : Access) (q : Refusal) : s.access a ≠ .refused q := by
  unfold State.access
  split
  · nofun
  · cases a <;> simp only [State.accessIdle, State.answerElem] <;> repeat' split
    all_goals nofun

theorem finish_ne_refused (s : State) (body : State → Except Halt Result) (q : Refusal) : finish s body ≠ .refused q := by
  have hc (v : State) (first : Option Loc) : ∀ c, conclude v first c ≠ .refused q
    | .ok _ => nofun
    | .error (.err _ _) => nofun
    | .error (.unwritten _) => nofun
  rcases finish_eq s body with ⟨-, hf⟩ | ⟨r, -, hf⟩
  · exact hf ▸ hc _ _ _
  · exact hf ▸ hc _ _ _

theorem exec_ne_refused (i : Instr) (s : State) (q : Refusal) : exec i s ≠ .refused q := by
  rw [exec_eq]
  split
  · exact finish_ne_refused _ _ _
  · nofun

theorem engineTurn_ne_refused (s : State) (q : Refusal) : engineTurn s ≠ .refused q := by
  unfold engineTurn engineStep
  split
  · split
    · exact exec_ne_refused _ _ _
    · nofun
  · nofun

/-- No step refuses. -/
theorem step_ne_refused (s : State) (q : Refusal) : step s ≠ .refused q := fun h => by
  rcases step_cases h with ⟨rest, -, h⟩ | ⟨rest, -, h⟩ | ⟨a, rest, -, h⟩
  · exact engineTurn_ne_refused _ _ h
  · cases h
  · exact access_ne_refused _ _ _ h

/-- A step while BUSY = 1 that goes on with BUSY = 1 takes a move off the agenda. -/
theorem step_agenda_of_busy {s t : State} (hs : s.status.busy = true) (ht : step s = .next t)
    (hb : t.status.busy = true) : s.agenda.length = t.agenda.length + 1 := by
  rcases step_cases ht with ⟨rest, -, ht⟩ | ⟨rest, -, ht⟩ | ⟨a, rest, ha, ht⟩
  · simp [engineTurn_busy ht] at hb
  · cases ht
    simp [Status.idle] at hb
  · rcases access_cases ht with ⟨r, -, rfl⟩ | ⟨b, i, w, -, -, rfl⟩ | ⟨hb, -⟩ | ⟨hb, -⟩
    · rw [ha, State.agenda_answerReg, List.length_cons]
    · rw [ha, List.length_cons, State.answer_agenda]
    · exact absurd hs (by simpa using hb)
    · exact absurd hs (by simpa using hb)

/-- From BUSY = 1, each step ends the command or the run, or takes a move off the agenda; at its end the engine moves. -/
theorem exists_runFor_completes (s : State) (hb : s.status.busy = true) : ∃ k, k ≤ s.agenda.length + 1 ∧
    ((∃ t, runFor k s = .next t ∧ t.status.busy = false) ∨ ∃ f, runFor k s = .fault f) := by
  cases hs : step s with
  | refused q => exact absurd hs (step_ne_refused s q)
  | fault f => exact ⟨1, by omega, .inr ⟨f, runFor_succ_of_fault hs 0⟩⟩
  | next t =>
    cases ht : t.status.busy with
    | false => exact ⟨1, by omega, .inl ⟨t, runFor_succ_of_next hs 0, ht⟩⟩
    | true =>
      have hl := step_agenda_of_busy hb hs ht
      obtain ⟨k, hk, h⟩ := exists_runFor_completes t ht
      exact ⟨k + 1, by omega, by simpa only [runFor_succ_of_next hs] using h⟩
termination_by s.agenda.length

end Sys2Proof.Machine

/-- Settles O8: a step that goes on with BUSY = 1 shortens the agenda. -/
theorem latchedCommandCompletesWithinTheAgenda : Obligations.LatchedCommandCompletesWithinTheAgenda := by
  unfold Obligations.LatchedCommandCompletesWithinTheAgenda
  exact exists_runFor_completes

/-! ### A host read of a register -/

/-- Settles O55: the read answers, and marks where the register is unwritten. -/
theorem registerReadsAnswerAndMark : Obligations.RegisterReadsAnswerAndMark := by
  unfold Obligations.RegisterReadsAnswerAndMark
  intro s r rest hn
  rw [hn.step_eq, State.accessIdle_readReg]
  refine ⟨fun w hw => ?_, fun hw => ?_⟩
  · rw [State.answerReg_of_some (s := { s with agenda := rest }) hw]
    rfl
  · rw [State.answerReg_of_none (s := { s with agenda := rest }) hw]
    rfl

/-! ### Reset -/

namespace Sys2Proof.Claims

/-- What the state after a reset is: the reset values of R60, whatever the record, the agenda and the reads are. -/
def IsReset (c : Config) (s : State) : Prop :=
  s = { State.resetWith c with faults := s.faults, agenda := s.agenda, reads := s.reads }

theorem IsReset.regRead {c : Config} {s : State} (h : IsReset c s) (r : Reg) : s.regRead r =
    if r = .argDur ∨ r = .modFreq ∨ r = .modAmp ∨ r = .modDur ∨ (∃ i, r = .modLvl i) ∨ (∃ i, r = .modPar i) then none
    else some 0#32 := by
  rw [h]
  cases r
  case modLvl i => match i with
    | 0 => rfl
    | 1 => rfl
    | 2 => rfl
  case modPar i => match i with
    | 0 => rfl
    | 1 => rfl
    | 2 => rfl
  case status => exact congrArg some (show Status.idle.toWord = 0#32 by decide)
  case modCfg => exact congrArg some (show ModCfg.toWord { variant := .dflt, k := 0#2 } = 0#32 by decide)
  all_goals rfl

theorem IsReset.read_buf {c : Config} {s : State} (h : IsReset c s) (b : Buf) (k : Nat) : (s.buf b).read k = none := by
  rw [h]
  cases b <;> rfl

theorem step_of_reset {s : State} {rest : List Move} (h : s.agenda = .reset :: rest) :
    step s = .next (State.takeReset { s with agenda := rest }) := by
  simp only [step, h, moveStep]

end Sys2Proof.Claims

/-- Settles O57: both states hold the reset values, and the reset move keeps the record, the parameters and the agenda. -/
theorem resetLeavesTheListedValues : Obligations.ResetLeavesTheListedValues := by
  unfold Obligations.ResetLeavesTheListedValues
  refine ⟨fun c s hs => ?_, fun u rest hu => ⟨_, step_of_reset hu, rfl, rfl, rfl⟩, ⟨Config.chip, rfl⟩, rfl⟩
  have h : ∃ c, IsReset c s := by
    rcases hs with rfl | ⟨u, rest, hu, hs⟩
    · exact ⟨c, rfl⟩
    · rw [step_of_reset hu] at hs
      cases hs
      exact ⟨u.cfg, rfl⟩
  obtain ⟨c, h⟩ := h
  exact ⟨h.regRead, by rw [h]; rfl, h.read_buf, .inl (by rw [h]; rfl)⟩

/-! ### What no command reads -/

namespace Sys2Proof.Claims

/-- Two outcomes that stop alike, or go on to related states. -/
def Related (R : State → State → Prop) (o p : Step) : Prop :=
  match o, p with
  | .next t, .next u => R t u
  | .fault f, .fault g => f = g
  | _, _ => False

/-- Related states differ only in what no command reads, and the ends of a command keep them related. -/
structure Unread (R : State → State → Prop) : Prop where
  agree : ∀ {s u}, R s u → ∀ i, AgreeOnReads i s u
  cmd : ∀ {s u}, R s u → u.cmd = s.cmd
  status : ∀ {s u}, R s u → u.status = s.status
  succeed : ∀ {s u} r, R s u → R (s.succeed r) (u.succeed r)
  raise : ∀ {s u} e n, R s u → R (s.raise e n) (u.raise e n)
  mark : ∀ {s u} m, R s u → R (s.mark m) (u.mark m)

variable {R : State → State → Prop} (h : Unread R) {s u : State} (hR : R s u)
include h hR

theorem Unread.conclude (first : Option Loc) (c : Except Halt Result) :
    Related R (conclude s first c) (conclude u first c) := by
  match c with
  | .ok r => exact h.succeed r hR
  | .error (.err e n) => exact h.raise e n hR
  | .error (.unwritten _) => exact rfl

/-- A command ends alike on related states, whether or not it reads an unwritten register. -/
theorem Unread.exec (i : Instr) : Related R (exec i s) (exec i u) := by
  have ag := h.agree hR i
  rw [exec_eq, exec_eq, ag.wellFormed i]
  split
  case isFalse => exact h.raise _ _ hR
  cases hw : unwrittenRegister (bodyOf i s) with
  | none =>
    rw [finish_of_written hw, finish_of_written (by rwa [ag.bodyOf]), ag.bodyOf]
    exact h.conclude hR none _
  | some r =>
    have hr := unwrittenRegister_eq_some.1 hw
    rw [finish_reg hr, finish_reg (ag.bodyOf.trans hr), ag.settled.bodyOf]
    exact h.conclude (h.mark _ hR) _ _

theorem Unread.engineStep : Related R (engineStep s) (engineStep u) := by
  unfold Machine.engineStep
  rw [h.cmd hR]
  split
  · exact h.exec hR _
  · exact h.raise _ _ hR

theorem Unread.engineTurn : Related R (engineTurn s) (engineTurn u) := by
  unfold Machine.engineTurn
  rw [h.status hR]
  split
  · exact h.engineStep hR
  · exact hR

end Sys2Proof.Claims

/-! ### ESTATE is never read -/

namespace Sys2Proof.Claims

/-- The states are equal apart from ESTATE. -/
def EqualButEstate (s u : State) : Prop := u = { s with estate := u.estate }

theorem unread_estate : Unread EqualButEstate where
  agree h i := by
    rw [h]
    exact ⟨rfl, fun _ => ⟨rfl, fun _ _ => rfl⟩, fun _ => ⟨rfl, fun _ _ => rfl⟩, fun _ => ⟨rfl, fun _ _ => rfl⟩,
      fun _ _ _ _ => rfl, fun _ _ _ => rfl, fun _ _ _ => rfl, fun _ => rfl, fun _ => rfl, fun _ => rfl, fun _ => rfl⟩
  cmd h := by rw [h]
  status h := by rw [h]
  succeed r h := by rw [h]; exact rfl
  raise e n h := by rw [h]; exact rfl
  mark m h := by rw [h]; exact rfl

variable (s : State) (e : Int)

theorem related_answerReg_estate (r : Reg) :
    Related EqualButEstate (.next (s.answerReg r)) (.next (State.answerReg { s with estate := e } r)) := by
  have hr : State.reg { s with estate := e } r = s.reg r := by cases r <;> rfl
  unfold State.answerReg
  rw [hr]
  split <;> exact rfl

theorem related_accessIdle_estate (a : Access) :
    Related EqualButEstate (s.accessIdle a) (State.accessIdle { s with estate := e } a) := by
  cases a with
  | readReg off width =>
    simp only [State.accessIdle]
    cases targetReg off width with
    | error h => exact rfl
    | ok r => exact related_answerReg_estate s e r
  | writeReg off width v =>
    simp only [State.accessIdle]
    cases targetReg off width with
    | error h => exact rfl
    | ok r => cases r <;> exact rfl
  | readBuf b i =>
    have hb : State.buf { s with estate := e } b = s.buf b := by cases b <;> rfl
    simp only [State.accessIdle, State.answerElem, hb]
    split
    · cases (s.buf b).read i <;> exact rfl
    · exact rfl
  | writeBuf b i v =>
    simp only [State.accessIdle]
    split
    · cases b <;> exact rfl
    · exact rfl

theorem related_access_estate (a : Access) :
    Related EqualButEstate (s.access a) (State.access { s with estate := e } a) := by
  unfold State.access
  dsimp only
  split
  · exact rfl
  · exact related_accessIdle_estate s e a

end Sys2Proof.Claims

/-- Settles O49: no computation of a command, no host access and no reset depends on ESTATE. -/
theorem estateIsNeverRead : Obligations.EstateIsNeverRead := by
  unfold Obligations.EstateIsNeverRead
  intro s e
  change Related EqualButEstate (step s) (step { s with estate := e })
  unfold step
  dsimp only
  split
  · exact unread_estate.engineTurn rfl
  · rename_i m rest _
    cases m with
    | host a => exact related_access_estate { s with agenda := rest } e a
    | engine => exact unread_estate.engineTurn rfl
    | reset => exact rfl

end

section
/-! The litmus tests of 95_test_vectors: an access after a write of CMD comes before the engine's step or after it
(20_memory R79, R80, R84). -/

open Sys2Proof Sys2Proof.Machine Sys2Proof.Claims

/-! ### Another agenda -/

namespace Sys2Proof.Machine

/-- The state with another agenda. -/
def State.withAgenda (s : State) (ag : List Move) : State := { s with agenda := ag }

@[simp] theorem State.withAgenda_agenda (s : State) (ag : List Move) : (s.withAgenda ag).agenda = ag := rfl
@[simp] theorem State.withAgenda_status (s : State) (ag : List Move) : (s.withAgenda ag).status = s.status := rfl
@[simp] theorem State.withAgenda_withAgenda (s : State) (ag ag' : List Move) :
    (s.withAgenda ag).withAgenda ag' = s.withAgenda ag' := rfl

theorem State.withAgenda_of_eq {s : State} {ag : List Move} (h : s.agenda = ag) : s.withAgenda ag = s := by
  rw [← h, State.withAgenda]

/-- The agenda is no matter of a command. -/
theorem unread_agenda (ag : List Move) : Unread fun s u => u = s.withAgenda ag where
  agree h i := by
    rw [h]
    exact ⟨rfl, fun _ => ⟨rfl, fun _ _ => rfl⟩, fun _ => ⟨rfl, fun _ _ => rfl⟩, fun _ => ⟨rfl, fun _ _ => rfl⟩,
      fun _ _ _ _ => rfl, fun _ _ _ => rfl, fun _ _ _ => rfl, fun _ => rfl, fun _ => rfl, fun _ => rfl, fun _ => rfl⟩
  cmd h := by rw [h]; rfl
  status h := by rw [h]; rfl
  succeed r h := by rw [h]; rfl
  raise e n h := by rw [h]; rfl
  mark m h := by rw [h]; rfl

/-- The engine's step takes the agenda along. -/
theorem engineStep_withAgenda_of_next {s t : State} (h : engineStep s = .next t) (ag : List Move) :
    engineStep (s.withAgenda ag) = .next (t.withAgenda ag) := by
  have hr := (unread_agenda ag).engineStep (s := s) rfl
  rw [h] at hr
  cases hu : engineStep (s.withAgenda ag) with
  | next u => rw [hu] at hr; exact congrArg _ hr
  | fault f => rw [hu] at hr; exact hr.elim
  | refused q => rw [hu] at hr; exact hr.elim

theorem engineStep_withAgenda_of_fault {s : State} {f : Fault} (h : engineStep s = .fault f) (ag : List Move) :
    engineStep (s.withAgenda ag) = .fault f := by
  have hr := (unread_agenda ag).engineStep (s := s) rfl
  rw [h] at hr
  cases hu : engineStep (s.withAgenda ag) with
  | next u => rw [hu] at hr; exact hr.elim
  | fault g => rw [hu] at hr; exact congrArg _ hr.symm
  | refused q => rw [hu] at hr; exact hr.elim

/-- What the engine's step leaves alone, beside what `engineStep_busy` says. -/
theorem engineStep_keeps {s t : State} (h : engineStep s = .next t) :
    t.agenda = s.agenda ∧ t.inBuf = s.inBuf ∧ t.tinBuf = s.tinBuf := by
  obtain ⟨-, fs, ⟨i, r, -, rfl⟩ | ⟨e, n, rfl⟩⟩ := engineStep_next h <;> exact ⟨rfl, rfl, rfl⟩

theorem engineStep_ne_refused {s : State} (hb : s.status.busy = true) (q : Refusal) : engineStep s ≠ .refused q :=
  engineTurn_of_busy hb ▸ engineTurn_ne_refused s q

/-- The engine's step stops only at an element that holds no value. -/
theorem engineStep_stops {s : State} {f : Fault} (h : engineStep s = .fault f) :
    ∃ b k first, f = .unwritten (.elem b k) first ∧ (s.buf b).read k = none := by
  unfold engineStep at h
  split at h
  · obtain ⟨b, k, first, hf, -, -, hr, -⟩ := exec_stops h
    exact ⟨b, k, first, hf, hr⟩
  · cases h

/-! ### Runs -/

theorem runFor_one (s : State) : runFor 1 s = step s := by
  cases h : step s with
  | next t => exact runFor_succ_of_next h 0
  | fault f => exact runFor_succ_of_fault h 0
  | refused q => exact absurd h (step_ne_refused s q)

/-- A run of `a + b` steps is one of `b` steps from where `a` steps lead. -/
theorem runFor_add_of_next {a : Nat} : ∀ {s t : State}, runFor a s = .next t → ∀ b, runFor (a + b) s = runFor b t := by
  induction a with
  | zero =>
    intro s t h b
    cases h
    rw [Nat.zero_add]
  | succ a ih =>
    intro s t h b
    cases hs : step s with
    | next u =>
      rw [runFor_succ_of_next hs] at h
      rw [Nat.add_right_comm, runFor_succ_of_next hs, ih h]
    | fault f =>
      rw [runFor_succ_of_fault hs] at h
      cases h
    | refused q => exact absurd hs (step_ne_refused s q)

/-- While BUSY = 0 the engine's turns pass (00_scope R11). -/
theorem runFor_idle_turns {p : Nat} {ag : List Move} : ∀ {s : State}, s.status.busy = false →
    s.agenda = List.replicate p Move.engine ++ ag → runFor p s = .next (s.withAgenda ag) := by
  induction p with
  | zero =>
    intro s _ ha
    rw [runFor_zero, State.withAgenda_of_eq (ag := ag) ha]
  | succ p ih =>
    intro s hb ha
    have hs : step s = .next (s.withAgenda (List.replicate p Move.engine ++ ag)) :=
      (stepRunsTheDecodedCommand s _ (.inr ha)).2 hb
    exact (runFor_succ_of_next hs p).trans (ih (s := s.withAgenda (List.replicate p Move.engine ++ ag)) hb rfl)

/-- The engine's turns before a write of CMD pass, and the write latches. -/
theorem runFor_cmdWrite {s : State} {p : Nat} {v : Word} {ag : List Move} (hb : s.status.busy = false)
    (ha : s.agenda = List.replicate p Move.engine ++ wr .cmd v :: ag) :
    runFor (p + 1) s = .next ((s.latch v).withAgenda ag) := by
  rw [runFor_add_of_next (runFor_idle_turns hb ha), runFor_one]
  exact cmdWriteLatchesTheCommand (s.withAgenda _) v ag ⟨hb, rfl⟩

theorem step_engine_of_busy {s : State} (hb : s.status.busy = true) (ag : List Move) :
    step (s.withAgenda (.engine :: ag)) = engineStep (s.withAgenda ag) :=
  EngineNext.step_of_busy (s := s.withAgenda (.engine :: ag)) (.inr rfl) hb

/-- With BUSY = 1 and the engine next, its step is made and its further turns pass. -/
theorem runFor_engine_turns {s t : State} {ag : List Move} (hb : s.status.busy = true)
    (ht : engineStep (s.withAgenda ag) = .next t) (q : Nat) :
    runFor (q + 1) (s.withAgenda (List.replicate (q + 1) Move.engine ++ ag)) = .next t := by
  have hstep := (step_engine_of_busy hb _).trans (engineStep_withAgenda_of_next ht (List.replicate q Move.engine ++ ag))
  have hbusy : t.status.busy = false := engineStep_busy ht
  have hag : t.agenda = ag := (engineStep_keeps ht).1
  have hidle : runFor q (t.withAgenda (List.replicate q Move.engine ++ ag)) = .next ((t.withAgenda _).withAgenda ag) :=
    runFor_idle_turns hbusy rfl
  rw [List.replicate_succ, List.cons_append, runFor_succ_of_next hstep, hidle, State.withAgenda_withAgenda,
    State.withAgenda_of_eq hag]

/-- Where the engine's step stops, the run stops. -/
theorem runFor_engine_stops {s : State} {f : Fault} {ag : List Move} (hb : s.status.busy = true)
    (hf : engineStep (s.withAgenda ag) = .fault f) (q k : Nat) :
    runFor (k + 1) (s.withAgenda (List.replicate (q + 1) Move.engine ++ ag)) = .fault f := by
  have hstep := (step_engine_of_busy hb _).trans (engineStep_withAgenda_of_fault hf (List.replicate q Move.engine ++ ag))
  rw [List.replicate_succ, List.cons_append, runFor_succ_of_fault hstep]

end Sys2Proof.Machine

/-! ### An access after a write of CMD -/

namespace Sys2Proof.Claims

section
variable {s : State} {v : Word} {a : Access} {p q : Nat} {rest : List Move} (hb : s.status.busy = false)
include hb

/-- No turn of the engine between: the access meets BUSY = 1. -/
theorem runFor_access_before (ha : s.agenda = List.replicate p Move.engine ++ wr .cmd v :: Move.host a :: rest) :
    runFor (p + 2) s = State.access ((s.latch v).withAgenda rest) a := by
  rw [show p + 2 = (p + 1) + 1 from rfl, runFor_add_of_next (runFor_cmdWrite hb ha), runFor_one]
  exact step_of_host rfl

variable (ha : s.agenda = List.replicate p Move.engine ++ wr .cmd v :: (List.replicate (q + 1) Move.engine ++ Move.host a :: rest))
include ha

/-- A turn of the engine or more between, and the command ends: the access is made on the state its end leaves. -/
theorem runFor_access_after {t : State} (ht : engineStep ((s.latch v).withAgenda (.host a :: rest)) = .next t) :
    runFor (p + (q + 1) + 2) s = step t := by
  rw [show p + (q + 1) + 2 = (p + 1) + ((q + 1) + 1) by omega, runFor_add_of_next (runFor_cmdWrite hb ha),
    runFor_add_of_next (runFor_engine_turns rfl ht q), runFor_one]

/-- A turn of the engine or more between, and the command stops: the run stops before the access. -/
theorem runFor_access_never {f : Fault} (hf : engineStep ((s.latch v).withAgenda (.host a :: rest)) = .fault f) :
    runFor (p + (q + 1) + 2) s = .fault f := by
  rw [show p + (q + 1) + 2 = (p + 1) + ((q + 1) + 1) by omega, runFor_add_of_next (runFor_cmdWrite hb ha),
    runFor_engine_stops rfl hf]

end

/-! ### Schedules -/

theorem eq_replicate_of_hostMoves_nil {ag : List Move} (hr : .reset ∉ ag) (h : hostMoves ag = []) :
    ag = List.replicate ag.length .engine := by
  refine List.eq_replicate_iff.2 ⟨rfl, fun m hm => ?_⟩
  have hf := List.filter_eq_nil_iff.1 h m hm
  cases m with
  | host a => exact absurd rfl hf
  | engine => rfl
  | reset => exact absurd hm hr

/-- The engine's turns before the first host access of a schedule without a reset. -/
theorem exists_turns_before {ag ms : List Move} {m : Move} (hr : .reset ∉ ag) (h : hostMoves ag = m :: ms) :
    ∃ p ag', ag = List.replicate p Move.engine ++ m :: ag' ∧ hostMoves ag' = ms ∧ .reset ∉ ag' := by
  induction ag with
  | nil => cases h
  | cons x ag ih =>
    have hr' : .reset ∉ ag := fun hx => hr (List.mem_cons_of_mem x hx)
    cases x with
    | host a =>
      obtain ⟨rfl, hms⟩ := List.cons.inj (show Move.host a :: hostMoves ag = m :: ms from h)
      exact ⟨0, ag, rfl, hms, hr'⟩
    | engine =>
      obtain ⟨p, ag', rfl, hms⟩ := ih hr' h
      exact ⟨p + 1, ag', rfl, hms⟩
    | reset => exact absurd List.mem_cons_self hr

/-- A schedule of the write of CMD and one access, without a reset. -/
theorem exists_turns_of_two {ag : List Move} {m : Move} {a : Access} (hr : .reset ∉ ag)
    (h : hostMoves ag = [m, .host a]) : ∃ p q r, ag =
      List.replicate p Move.engine ++ m :: (List.replicate q Move.engine ++ Move.host a :: List.replicate r Move.engine) := by
  obtain ⟨p, ag₁, rfl, h₁, hr₁⟩ := exists_turns_before hr h
  obtain ⟨q, ag₂, rfl, h₂, hr₂⟩ := exists_turns_before hr₁ h₁
  exact ⟨p, q, ag₂.length, by rw [← eq_replicate_of_hostMoves_nil hr₂ h₂]⟩

/-! ### LT-2 and LT-4 -/

/-- ENCODE NRZ of the bit 1, latched, writes +1 to OUT[0] and clears BUSY. -/
theorem engineStep_encNrz_one {s : State} (hs : HoldsBits s [true]) (hc : s.cmd = encode .encNrz) :
    ∃ t, engineStep s = .next t ∧ t.outBuf.read 0 = some 0x00000001#32 ∧ t.reads = s.reads ∧ t.cfg = s.cfg := by
  obtain ⟨t, ht, hd⟩ := encNrzAndNrzlMapEachBit.1.success s [true] hs (Nat.le_add_left ..) (Nat.le_add_left ..)
  refine ⟨t, ?_, hd.out 0, ?_, ?_⟩
  · rw [engineStep, hc, decode_encode]
    exact ht
  · rw [hd.rest]
  · rw [hd.rest]

/-- LT-2 and LT-4 in one, with what the access does left open: without a turn of the engine before the access it is a
hazard; with one it is made on what ENCODE NRZ left, and the run goes on to the end of the schedule. -/
theorem runFor_encNrz_then {s : State} {a : Access} {ag : List Move} (hs : HoldsBits s [true]) (hb : s.status.busy = false)
    (ha : s.agenda = ag) (hr : .reset ∉ ag) (hm : hostMoves ag = [issue .encNrz, .host a]) (hns : a ≠ .readReg 0x04 4) :
    (∃ k, runFor k s = .fault (.hostHazard .busy)) ∨
    ∃ t : State, t.outBuf.read 0 = some 0x00000001#32 ∧ t.reads = s.reads ∧ t.cfg = s.cfg ∧
      ∀ t', t.accessIdle a = .next t' → t'.status = t.status → t'.agenda = t.agenda →
        runFor ag.length s = .next (t'.withAgenda []) := by
  obtain ⟨p, q, r, hag⟩ := exists_turns_of_two hr hm
  rw [hag] at ha
  cases q with
  | zero => exact .inl ⟨p + 2, (runFor_access_before hb ha).trans (State.access_of_busy rfl hns)⟩
  | succ q =>
    obtain ⟨t, ht, hout, hreads, hcfg⟩ := engineStep_encNrz_one
      (s := (s.latch (encode .encNrz)).withAgenda (.host a :: List.replicate r Move.engine)) hs rfl
    have hbusy : t.status.busy = false := engineStep_busy ht
    have hagenda : t.agenda = .host a :: List.replicate r Move.engine := (engineStep_keeps ht).1
    refine .inr ⟨t.withAgenda (List.replicate r Move.engine), hout, hreads, hcfg, fun t' ht' hst hat => ?_⟩
    have hstep : step t = .next t' := (HostNext.step_eq ⟨hbusy, hagenda⟩).trans ht'
    have hlen : ag.length = p + (q + 1) + 2 + r := by simp [hag]; omega
    rw [hlen, runFor_add_of_next ((runFor_access_after hb ha ht).trans hstep)]
    exact runFor_idle_turns (by rw [hst]; exact hbusy) (by rw [hat]; simp)

end Sys2Proof.Claims

/-- Settles O60: by the number of the engine's turns between the write of CMD and the access. -/
theorem litmusAccessAfterCmdWrite : Obligations.LitmusAccessAfterCmdWrite := by
  unfold Obligations.LitmusAccessAfterCmdWrite
  refine ⟨fun s u v a p q rest hb ha hu => ⟨fun hq => ?_, fun hq => ?_⟩, fun s v hs hb => ⟨fun ag ha hr hm => ?_,
    fun ag ha hr hm => ?_⟩⟩
  · subst hq hu
    have hrun := runFor_access_before hb ha
    have hword : Status.latched.toWord = 1#32 := by decide
    refine ⟨fun hns => hrun.trans (State.access_of_busy rfl hns), fun h => hrun.trans ?_⟩
    rw [h, State.access_readStatus, State.withAgenda_status, State.latch_status, hword]
    rfl
  · obtain ⟨q, rfl⟩ := Nat.exists_eq_succ_of_ne_zero hq.ne'
    subst hu
    have hstep : step ((s.latch v).withAgenda (.engine :: Move.host a :: rest)) =
        engineStep ((s.latch v).withAgenda (.host a :: rest)) := step_engine_of_busy rfl _
    cases he : engineStep ((s.latch v).withAgenda (.host a :: rest)) with
    | next t =>
      obtain ⟨hag, hin, htin⟩ := engineStep_keeps he
      exact .inl ⟨t, hstep.trans he, engineStep_busy he, hag, hin, htin, runFor_access_after hb ha he⟩
    | fault f =>
      obtain ⟨b, k, first, rfl, hread⟩ := engineStep_stops he
      exact .inr ⟨b, k, first, hstep.trans he, by cases b <;> exact hread, runFor_access_never hb ha he⟩
    | refused x => exact absurd he (engineStep_ne_refused rfl x)
  · refine (runFor_encNrz_then hs hb ha hr hm nofun).imp_right ?_
    rintro ⟨t, hout, hreads, hcfg, hrun⟩
    have hacc : t.accessIdle (.readBuf .out 0) = .next (t.answer 0x00000001#32) := by
      simp [State.accessIdle, State.answerElem, capOf, Config.capOut, hout]
    exact ⟨_, hrun _ hacc rfl rfl, congrArg (· ++ [0x00000001#32]) hreads⟩
  · refine (runFor_encNrz_then hs hb ha hr hm nofun).imp_right ?_
    rintro ⟨t, hout, hreads, hcfg, hrun⟩
    have hacc : t.accessIdle (.writeBuf .inB 0 v) = .next (t.setBuf .inB (t.inBuf.write 0 v)) := by
      simp [State.accessIdle, capOf, Config.capIn]
    exact ⟨_, hrun _ hacc rfl rfl, hout, Memory.read_write_same _ _ _⟩

end

section
/-! The laws of the line-code unit (40_line_codes section 10): the alphabets (R161), the round trip (R162), the marks of
AMI and Pseudoternary (R163), and the intervals of the two Manchester codes (R164, R165). -/

open Sys2Proof Sys2Proof.Machine Sys2Proof.Claims

/-! ### The seven codes as one family -/

namespace Sys2Proof.Machine

/-- What ENCODE of a variant computes on a core with these parameters. -/
def encodeOf (c : Config) : LineCode → List Bool → List Int × Option Int
  | .nrz => stateless encodeNrz
  | .nrzl => stateless encodeNrzl
  | .nrzi => stateful encodeNrzi
  | .ami => stateful encodeAmi
  | .pst => stateful encodePst
  | .man => stateless encodeMan
  | .dman => stateful (encodeDman c.dmInit)

/-- What DECODE of a variant computes on a core with these parameters. -/
def decodeOf (c : Config) : LineCode → List Int → List Bool × Option Int
  | .nrz => stateless decodeNrz
  | .nrzl => stateless decodeNrzl
  | .nrzi => stateful decodeNrzi
  | .ami => startsEstate decodeAmi
  | .pst => startsEstate decodePst
  | .man => stateless decodeMan
  | .dman => stateful (decodeDman c.dmInit)

theorem exec_encRow (v : LineCode) (s : State) :
    exec (encRow v) s = finish s (encodeFrame v (encodeOf s.cfg v)) := by cases v <;> rfl

theorem exec_decRow (v : LineCode) (s : State) :
    exec (decRow v) s = finish s (decodeFrame v (decodeOf s.cfg v)) := by cases v <;> rfl

theorem encodeOf_length (c : Config) (v : LineCode) (b : List Bool) :
    (encodeOf c v b).1.length = multOf v * b.length := by
  cases v <;> simp [encodeOf, stateless, stateful, multOf]

/-- 40_line_codes R161: what ENCODE emits is in the alphabet. -/
theorem encodeOf_mem {c : Config} {v : LineCode} {b : List Bool} {x : Int} (h : x ∈ (encodeOf c v b).1) :
    x ∈ levelsOf v := by
  have sign {x : Int} (hx : IsSign x) : x ∈ ([-1, 1] : List Int) := by simpa [IsSign] using hx
  have mark {x : Int} (hx : IsSign x ∨ x = 0) : x ∈ ([-1, 0, 1] : List Int) := by
    rcases hx with (rfl | rfl) | rfl <;> decide
  cases v with
  | nrz => exact sign (encodeNrz_mem h)
  | nrzl => exact sign (encodeNrzl_mem h)
  | nrzi => exact sign (encodeNrzi_mem h)
  | ami => exact mark (encodeAmi_mem h)
  | pst => exact mark (encodePst_mem h)
  | man => exact sign (encodeMan_mem h)
  | dman => exact sign (encodeDman_mem h)

/-- The word of a level of an alphabet holds that level. -/
theorem toInt_word_of_mem {v : LineCode} {x : Int} (h : x ∈ levelsOf v) : (word x).toInt = x := by
  have hx : x ∈ ([-1, 0, 1] : List Int) := by cases v <;> simp [levelsOf] at h ⊢ <;> tauto
  simp only [List.mem_cons, List.not_mem_nil, or_false] at hx
  rcases hx with rfl | rfl | rfl <;> decide

end Sys2Proof.Machine

namespace Sys2Proof.Claims

theorem alphabetOf_eq (v : LineCode) : alphabetOf v = levelsOf v := by cases v <;> rfl
theorem symbolsPerBit_eq (v : LineCode) : symbolsPerBit v = multOf v := by cases v <;> rfl

/-- The bits that IN holds are determined. -/
theorem HoldsBits.unique {s : State} {b b' : List Bool} (h : HoldsBits s b) (h' : HoldsBits s b') : b = b' := by
  obtain ⟨hl, hr⟩ := h
  obtain ⟨hl', hr'⟩ := h'
  refine List.ext_getElem (hl.symm.trans hl') fun i hi hi' => ?_
  have hw := (hr i hi).symm.trans (hr' i hi')
  cases hb : b[i] <;> cases hb' : b'[i] <;> simp [hb, hb'] at hw ⊢

/-- The result of ENCODE of a variant on these bits. -/
def encodeResult (c : Config) (v : LineCode) (b : List Bool) : Result :=
  { out := (encodeOf c v b).1.map word, tout := none, estate := (encodeOf c v b).2 }

/-- An ENCODE that succeeds found bits in IN, and its levels fit. -/
theorem exec_encRow_done {v : LineCode} {s t : State} (h : exec (encRow v) s = .next t) (hd : t.status.done = true) :
    ∃ b, HoldsBits s b ∧ b.length ≤ s.cfg.capIn ∧ multOf v * b.length ≤ s.cfg.capOut ∧
      t = s.succeed (encodeResult s.cfg v b) := by
  rw [exec_encRow, finish_encodeFrame] at h
  rcases conclude_eq_next h with ⟨r, hr, rfl⟩ | ⟨e, n, -, rfl⟩
  · obtain ⟨h1, h2, b, hl, hb, rfl⟩ := encodeFrame_eq_ok.1 hr
    exact ⟨b, ⟨hl.symm, hb⟩, hl ▸ h1, hl ▸ h2, rfl⟩
  · simp at hd

/-- An ENCODE of bits that fit succeeds. -/
theorem exec_encRow_of_bits {v : LineCode} {s : State} {b : List Bool} (hb : HoldsBits s b) (h1 : b.length ≤ s.cfg.capIn)
    (h2 : multOf v * b.length ≤ s.cfg.capOut) : exec (encRow v) s = .next (s.succeed (encodeResult s.cfg v b)) := by
  obtain ⟨hl, hr⟩ := hb
  rw [exec_encRow]
  exact finish_ok (encodeFrame_eq_ok.2 ⟨hl ▸ h1, hl ▸ h2, b, hl.symm, hr, rfl⟩)

theorem encodeResult_length (c : Config) (v : LineCode) (b : List Bool) :
    (encodeResult c v b).out.length = multOf v * b.length := by
  rw [encodeResult, List.length_map, encodeOf_length]

/-- OUT after an ENCODE, element by element. -/
theorem read_encodeResult (s : State) (c : Config) {v : LineCode} {b : List Bool} {j : Nat} {x : Int}
    (h : (encodeOf c v b).1[j]? = some x) : (s.succeed (encodeResult c v b)).outBuf.read j = some (word x) := by
  rw [State.succeed_outBuf, Memory.read_writeFrom_zero_eq_or, encodeResult, List.getElem?_map, h]
  rfl

/-- DECODE of every variant has the errors and the result of its frame. -/
theorem decodesAs_decRow (v : LineCode) :
    DecodesAs (decRow v) (encode (decRow v)) (multOf v) (levelsOf v) fun c l => (decodeOf c v l).1 :=
  decodesAs_of_frame (code := fun c => decodeOf c v) (decode_encode _) (exec_decRow v) fun _ _ => rfl

end Sys2Proof.Claims

/-- Settles O20: every element below OUT_LEN is one that the code emitted. -/
theorem encodedLevelsAreInTheAlphabet : Obligations.EncodedLevelsAreInTheAlphabet := by
  unfold Obligations.EncodedLevelsAreInTheAlphabet
  intro v s t h hd j hj
  obtain ⟨b, -, -, -, rfl⟩ := exec_encRow_done h hd
  have hlt : j < (encodeOf s.cfg v b).1.length := by
    rw [encodeOf_length, ← encodeResult_length s.cfg]
    exact lt_of_lt_lenWord hj
  exact ⟨_, alphabetOf_eq v ▸ encodeOf_mem (List.getElem_mem hlt), read_encodeResult s _ (List.getElem?_eq_getElem hlt)⟩

/-! ### The round trip -/

namespace Sys2Proof.Machine

theorem decodeNrz_encodeNrz (b : List Bool) : decodeNrz (encodeNrz b) = b := by
  rw [decodeNrz, encodeNrz, List.map_map]
  exact List.map_id'' (fun x => by cases x <;> rfl) b

theorem decodeNrzl_encodeNrzl (b : List Bool) : decodeNrzl (encodeNrzl b) = b := by
  rw [decodeNrzl, encodeNrzl, List.map_map]
  exact List.map_id'' (fun x => by cases x <;> rfl) b

/-- A fold whose every turn a second fold undoes, its state following the first one's, is undone. -/
theorem emit_emit {α β : Type} {f : Int → α → Int × List β} {g : Int → β → Int × List α} {p : Int → Prop}
    (h : ∀ e a, p e → p (f e a).1 ∧ emit g e (f e a).2 = ([a], (f e a).1)) (l : List α) :
    ∀ e, p e → (emit g e (emit f e l).1).1 = l := by
  have happend (l₁ l₂ : List β) : ∀ e, (emit g e (l₁ ++ l₂)).1 = (emit g e l₁).1 ++ (emit g (emit g e l₁).2 l₂).1 := by
    induction l₁ with
    | nil => intro e; rfl
    | cons x l₁ ih => intro e; simp [ih]
  induction l with
  | nil => intro e _; rfl
  | cons a l ih =>
    intro e he
    obtain ⟨hp, hg⟩ := h e a he
    rw [emit_cons, happend, hg, ih _ hp]
    rfl

theorem decodeNrzi_encodeNrzi (b : List Bool) : (decodeNrzi (encodeNrzi b).1).1 = b := by
  refine emit_emit (p := IsSign) (fun e x he => ?_) b _ (.inl rfl)
  rcases he with rfl | rfl <;> cases x <;> exact ⟨by simp [IsSign], rfl⟩

/-- A fold that emits one element a turn, from which `g` reads the turn's input, is undone by `g`. -/
theorem map_emit_eq {f : Int → Bool → Int × List Int} {g : Int → Bool}
    (h : ∀ e x, IsSign e → IsSign (f e x).1 ∧ (f e x).2.map g = [x]) (b : List Bool) :
    ∀ e, IsSign e → (emit f e b).1.map g = b := by
  induction b with
  | nil => intro e _; rfl
  | cons x b ih =>
    intro e he
    obtain ⟨hs, hx⟩ := h e x he
    rw [emit_cons, List.map_append, hx, ih _ hs]
    rfl

theorem map_encodeAmi (b : List Bool) : (encodeAmi b).1.map (· != 0) = b :=
  map_emit_eq (fun e x he => by rcases he with rfl | rfl <;> cases x <;> simp [IsSign]) b _ (.inl rfl)

theorem map_encodePst (b : List Bool) : (encodePst b).1.map (· == 0) = b :=
  map_emit_eq (fun e x he => by rcases he with rfl | rfl <;> cases x <;> simp [IsSign]) b _ (.inl rfl)

theorem decodeAmi_eq_map (l : List Int) : decodeAmi l = recovered .ami (l.map (· != 0)) := by cases l <;> rfl
theorem decodePst_eq_map (l : List Int) : decodePst l = recovered .pst (l.map (· == 0)) := by cases l <;> rfl

theorem decodeMan_encodeMan (b : List Bool) : decodeMan (encodeMan b) = b := by
  induction b with
  | nil => rfl
  | cons x b ih =>
    cases x
    · exact congrArg (false :: ·) ih
    · exact congrArg (true :: ·) ih

/-- The pairs of what a fold of pairs emits, as a fold. -/
theorem pairs_emit {f : Int → Bool → Int × List Int} {g : Int → Bool → Int × Int}
    (h : ∀ e x, (f e x).2 = [(g e x).1, (g e x).2]) (b : List Bool) :
    ∀ e, pairs (emit f e b).1 = (emit (fun e x => ((f e x).1, [g e x])) e b).1 := by
  induction b with
  | nil => intro e; rfl
  | cons x b ih =>
    intro e
    rw [emit_cons, emit_cons, h, ← ih]
    rfl

theorem decodeDman_encodeDman (i : Polarity) (b : List Bool) : (decodeDman i (encodeDman i b).1).1 = b := by
  rw [decodeDman, encodeDman, pairs_emit (g := fun e x => (if x then -e else e, -if x then -e else e)) fun _ _ => rfl]
  refine emit_emit (p := IsSign) (fun e x he => ?_) b _ (isSign_level i)
  rcases he with rfl | rfl <;> cases x <;> exact ⟨by simp [IsSign], rfl⟩

/-- 40_line_codes R162, on the codes themselves. -/
theorem decodeOf_encodeOf (c : Config) (v : LineCode) (b : List Bool) :
    (decodeOf c v (encodeOf c v b).1).1 = recovered v b := by
  cases v with
  | nrz => exact decodeNrz_encodeNrz b
  | nrzl => exact decodeNrzl_encodeNrzl b
  | nrzi => exact decodeNrzi_encodeNrzi b
  | ami => exact (decodeAmi_eq_map _).trans (congrArg (recovered .ami) (map_encodeAmi b))
  | pst => exact (decodePst_eq_map _).trans (congrArg (recovered .pst) (map_encodePst b))
  | man => exact decodeMan_encodeMan b
  | dman => exact decodeDman_encodeDman c.dmInit b

end Sys2Proof.Machine

namespace Sys2Proof.Claims

/-- What the host copied from an ENCODE's OUT is its levels. -/
theorem CopiedOutToIn.holdsLevels {s u : State} {c : Config} {v : LineCode} {b : List Bool}
    (h : CopiedOutToIn (s.succeed (encodeResult c v b)) u) (hlt : multOf v * b.length < 2 ^ 32) :
    HoldsLevels u (encodeOf c v b).1 := by
  obtain ⟨hlen, hread⟩ := h
  have hout : uint (s.succeed (encodeResult c v b)).outLen = (encodeOf c v b).1.length := by
    rw [State.succeed_outLen, encodeOf_length, ← encodeResult_length c]
    exact lenWord_toNat (by rwa [encodeResult_length])
  refine ⟨hlen.trans hout, fun i hi => ⟨word (encodeOf c v b).1[i], ?_, toInt_word_of_mem (encodeOf_mem (List.getElem_mem hi))⟩⟩
  rw [hread i (hout ▸ hi)]
  exact read_encodeResult s c (List.getElem?_eq_getElem hi)

end Sys2Proof.Claims

/-- Settles O21: the copied levels are those the code emitted, and decoding them undoes it. -/
theorem decodeAfterEncodeRecoversTheBits : Obligations.DecodeAfterEncodeRecoversTheBits := by
  unfold Obligations.DecodeAfterEncodeRecoversTheBits
  intro v s t u b hb h hd hcopy hcfg hcap hlt
  obtain ⟨b', hb', -, hout, rfl⟩ := exec_encRow_done h hd
  obtain rfl := hb.unique hb'
  rw [symbolsPerBit_eq] at hcap hlt
  have hlen := encodeOf_length s.cfg v b
  obtain ⟨w, hw, hdel⟩ := (decodesAs_decRow v).success u _ (hcopy.holdsLevels hlt) (fun x => encodeOf_mem)
    (by rw [hlen, hcfg]; exact hcap) (by rw [hlen, Nat.mul_mod_right])
    (by rw [hlen, Nat.mul_div_cancel_left _ (multOf_pos v), hcfg]
        exact (Nat.le_mul_of_pos_left _ (multOf_pos v)).trans hout)
  rw [hcfg, decodeOf_encodeOf] at hdel
  exact ⟨w, hw, hdel⟩

/-! ### The marks of AMI and Pseudoternary -/

namespace Sys2Proof.Machine

/-- A fold that flips and emits its sign at each `k` and emits 0 elsewhere: its marks alternate, from the flipped sign
on. -/
theorem filter_emit_marks {f : Int → Bool → Int × List Int} {k : Bool}
    (h : ∀ e x, f e x = if x = k then (-e, [-e]) else (e, [0])) (b : List Bool) : ∀ e, e ≠ 0 →
    (emit f e b).1.filter (fun x => !decide (x = 0)) = (List.range (b.count k)).map fun j => if j % 2 = 0 then -e else e := by
  induction b with
  | nil => intro e _; rfl
  | cons x b ih =>
    intro e he
    rw [emit_cons, List.filter_append, h, List.count_cons]
    by_cases hx : x = k
    · have hsucc (j : Nat) : (if (j + 1) % 2 = 0 then -e else e) = if j % 2 = 0 then - -e else -e := by
        rcases Nat.mod_two_eq_zero_or_one j with hj | hj <;> simp [hj, Nat.add_mod]
      simp [hx, he, ih (-e) (neg_ne_zero.2 he), List.range_succ_eq_map, Function.comp_def, hsucc]
    · simp [hx, ih e he]

/-- The nonzero elements that a buffer holds of the words of a list of levels. -/
theorem filterMap_read_word {m : Memory} {l : List Int} (hm : ∀ j (h : j < l.length), m.read j = some (word l[j]))
    (hw : ∀ x ∈ l, (word x).toInt = x) :
    (List.range l.length).filterMap (fun j => (m.read j).bind fun w => if w = 0#32 then none else some w.toInt) =
      l.filter fun x => !decide (x = 0) := by
  have hz {x : Int} (hx : x ∈ l) : word x = 0#32 ↔ x = 0 := by
    rw [← BitVec.toInt_inj, hw x hx]
    rfl
  have hl : (List.range l.length).map (fun j => l.getD j 0) = l :=
    List.ext_getElem (by simp) fun j _ h => by simp [h]
  rw [← List.filterMap_eq_filter]
  conv_rhs => rw [← hl, List.filterMap_map]
  refine List.filterMap_congr fun j hj => ?_
  have hj : j < l.length := List.mem_range.1 hj
  have hmem := List.getElem_mem hj
  have hg : l.getD j 0 = l[j] := by simp [hj]
  rw [hm j hj, Function.comp_apply, hg, Option.bind_some, hw _ hmem, if_congr (hz hmem) rfl rfl]
  by_cases h0 : l[j] = 0 <;> simp [Option.guard, h0]

end Sys2Proof.Machine

namespace Sys2Proof.Claims

/-- What OUT holds after an ENCODE of one level a bit, as the statement reads it. -/
theorem filterMap_read_encode {v : LineCode} {s t : State} {b : List Bool} (hv : multOf v = 1) (hb : HoldsBits s b)
    (h : exec (encRow v) s = .next t) (hd : t.status.done = true) :
    (List.range b.length).filterMap (fun j => (t.outBuf.read j).bind fun w => if w = 0#32 then none else some w.toInt) =
      (encodeOf s.cfg v b).1.filter fun x => !decide (x = 0) := by
  obtain ⟨b', hb', -, -, rfl⟩ := exec_encRow_done h hd
  obtain rfl := hb.unique hb'
  have hl : (encodeOf s.cfg v b).1.length = b.length := by rw [encodeOf_length, hv, Nat.one_mul]
  rw [← hl]
  exact filterMap_read_word (fun j hj => read_encodeResult s _ (List.getElem?_eq_getElem hj))
    fun x hx => toInt_word_of_mem (encodeOf_mem hx)

end Sys2Proof.Claims

/-- Settles O22: both folds flip their sign at each mark, from −1. -/
theorem amiAndPseudoternaryMarksAlternate : Obligations.AmiAndPseudoternaryMarksAlternate := by
  unfold Obligations.AmiAndPseudoternaryMarksAlternate
  intro s t b hb
  refine ⟨fun h hd => ?_, fun h hd => ?_⟩
  · rw [filterMap_read_encode (v := .ami) rfl hb h hd]
    exact filter_emit_marks (k := true) (fun _ _ => rfl) b (-1) (by decide)
  · rw [filterMap_read_encode (v := .pst) rfl hb h hd]
    exact filter_emit_marks (k := false) (fun e x => by cases x <;> rfl) b (-1) (by decide)

/-! ### The intervals of Manchester and Differential-Manchester -/

namespace Sys2Proof.Machine

/-- Where each element gives two halves of opposite sign, they stand at 2j and 2j + 1. -/
theorem exists_halves {α : Type} {f : α → List Int} {l : List α} (h : ∀ a ∈ l, ∃ x, IsSign x ∧ f a = [x, -x]) :
    ∀ {j}, j < l.length → ∃ x, IsSign x ∧ (l.flatMap f)[2 * j]? = some x ∧ (l.flatMap f)[2 * j + 1]? = some (-x) := by
  induction l with
  | nil => intro j hj; simp at hj
  | cons a l ih =>
    intro j hj
    obtain ⟨x, hx, hf⟩ := h a (by simp)
    cases j with
    | zero => exact ⟨x, hx, by simp [hf], by simp [hf]⟩
    | succ j =>
      obtain ⟨y, hy, h0, h1⟩ := ih (fun a ha => h a (by simp [ha])) (Nat.lt_of_succ_lt_succ hj)
      exact ⟨y, hy, by simpa [hf, Nat.mul_add] using h0, by simpa [hf, Nat.mul_add] using h1⟩

/-- 40_line_codes R164, on the codes themselves. -/
theorem encodeOf_halves (c : Config) {v : LineCode} (hv : v = .man ∨ v = .dman) {b : List Bool} {j : Nat}
    (hj : j < b.length) : ∃ x, IsSign x ∧ (encodeOf c v b).1[2 * j]? = some x ∧
      (encodeOf c v b).1[2 * j + 1]? = some (-x) := by
  rcases hv with rfl | rfl
  · exact exists_halves (l := b) (fun x _ => by cases x <;> simp [IsSign]) hj
  · have he : (encodeOf c .dman b).1 = _ := encodeDman_eq c.dmInit b
    rw [he]
    refine exists_halves (fun i _ => ⟨_, ?_, rfl⟩) (by simpa using hj)
    have hs := isSign_level c.dmInit
    repeat' split
    all_goals simp only [hs, hs.neg, neg_neg]

/-- The other initial polarity negates every level (40_line_codes R165). -/
theorem encodeDman_neg (b : List Bool) : (encodeDman .high b).1 = (encodeDman .low b).1.map fun x => -x := by
  suffices h : ∀ e e' : Int, e' = -e → (emit (fun e x => let h := if x then -e else e; (-h, [h, -h])) e' b).1 =
      (emit (fun e x => let h := if x then -e else e; (-h, [h, -h])) e b).1.map fun x => -x from h (-1) 1 rfl
  induction b with
  | nil => intros; rfl
  | cons x b ih =>
    rintro e _ rfl
    cases x
    · simpa using ih (-e) e (neg_neg e).symm
    · simpa using ih e (-e) rfl

theorem pairs_map_neg : ∀ l : List Int, pairs (l.map fun x => -x) = (pairs l).map fun p => (-p.1, -p.2)
  | [] => rfl
  | [_] => rfl
  | _ :: _ :: l => congrArg (_ :: ·) (pairs_map_neg l)

/-- Negating both the input and the initial polarity changes no decoded bit (40_line_codes R165). -/
theorem decodeDman_neg (l : List Int) : (decodeDman .high (l.map fun x => -x)).1 = (decodeDman .low l).1 := by
  rw [decodeDman, decodeDman, pairs_map_neg]
  suffices h : ∀ e e' : Int, e' = -e →
      (emit (fun e p => (p.2, [p.1 != e])) e' ((pairs l).map fun p => (-p.1, -p.2))).1 =
        (emit (fun e p => (p.2, [p.1 != e])) e (pairs l)).1 from h (-1) 1 rfl
  induction pairs l with
  | nil => intros; rfl
  | cons p ps ih =>
    rintro e _ rfl
    have hne : (-p.1 != -e) = (p.1 != e) := by simp [bne, beq_eq_decide]
    rw [List.map_cons, emit_cons, emit_cons, ih p.2 _ rfl, hne]

end Sys2Proof.Machine

namespace Sys2Proof.Claims

/-- The levels that IN holds are determined. -/
theorem HoldsLevels.unique {s : State} {l l' : List Int} (h : HoldsLevels s l) (h' : HoldsLevels s l') : l = l' := by
  obtain ⟨hl, hr⟩ := h
  obtain ⟨hl', hr'⟩ := h'
  refine List.ext_getElem (hl.symm.trans hl') fun i hi hi' => ?_
  obtain ⟨w, hw, hx⟩ := hr i hi
  obtain ⟨w', hw', hx'⟩ := hr' i hi'
  obtain rfl := Option.some.inj (hw.symm.trans hw')
  exact hx.symm.trans hx'

/-- A DECODE that succeeds found levels of its alphabet in IN, of its shape, that fit. -/
theorem exec_decRow_done {v : LineCode} {s t : State} (h : exec (decRow v) s = .next t) (hd : t.status.done = true) :
    ∃ l, HoldsLevels s l ∧ (∀ x ∈ l, x ∈ levelsOf v) ∧ l.length ≤ s.cfg.capIn ∧ l.length % multOf v = 0 ∧
      l.length / multOf v ≤ s.cfg.capOut := by
  rw [exec_decRow, finish_decodeFrame] at h
  rcases conclude_eq_next h with ⟨r, hr, rfl⟩ | ⟨e, n, -, rfl⟩
  · obtain ⟨h1, h2, h3, l, hl, hf, -⟩ := decodeFrame_eq_ok.1 hr
    refine ⟨l, ⟨hl.symm, fun i hi => ?_⟩, fun x hx => ?_, hl ▸ h1, hl ▸ h2, hl ▸ h3⟩
    · obtain ⟨w, hw, hx, -⟩ := fetchLevel_eq_ok.1 (hf i hi)
      exact ⟨w, hw, hx⟩
    · obtain ⟨i, hi, rfl⟩ := List.getElem_of_mem hx
      obtain ⟨-, -, -, hm⟩ := fetchLevel_eq_ok.1 (hf i hi)
      exact hm
  · simp at hd

/-- Each interval of a Manchester encoding changes sign in its middle. -/
theorem read_halves {v : LineCode} (hv : v = .man ∨ v = .dman) {s t : State} (h : exec (encRow v) s = .next t)
    (hd : t.status.done = true) {j : Nat} (hj : j < uint s.inLen) :
    t.outBuf.read (2 * j) = some (word (-1)) ∧ t.outBuf.read (2 * j + 1) = some (word 1) ∨
    t.outBuf.read (2 * j) = some (word 1) ∧ t.outBuf.read (2 * j + 1) = some (word (-1)) := by
  obtain ⟨b, ⟨hl, -⟩, -, -, rfl⟩ := exec_encRow_done h hd
  obtain ⟨x, hx, h0, h1⟩ := encodeOf_halves s.cfg hv (hl ▸ hj)
  rw [read_encodeResult s _ h0, read_encodeResult s _ h1]
  rcases hx with rfl | rfl
  · exact .inl ⟨rfl, rfl⟩
  · exact .inr ⟨rfl, rfl⟩

end Sys2Proof.Claims

/-- Settles O23: the halves of each interval are opposite, and both folds of Differential-Manchester commute with the
negation of their state. -/
theorem manchesterIntervalsChangeSignInTheMiddle : Obligations.ManchesterIntervalsChangeSignInTheMiddle := by
  unfold Obligations.ManchesterIntervalsChangeSignInTheMiddle
  refine ⟨fun s t i j hi h hd hj => ?_, fun s t u j ht hu hd hj => ?_, fun s u t v l hs hneg hlow hcfg ht hv hd => ?_⟩
  · rcases hi with rfl | rfl
    · exact read_halves (v := .man) (.inl rfl) h hd hj
    · exact read_halves (v := .dman) (.inr rfl) h hd hj
  · obtain ⟨b, hb, h1, h2, rfl⟩ := exec_encRow_done (v := .dman) ht hd
    have hu' := exec_encRow_of_bits (v := .dman) (s := { s with cfg := { s.cfg with dmInit := .high } }) hb h1 h2
    cases hu'.symm.trans hu
    have hlt : j < (encodeDman .low b).1.length := by
      rw [encodeDman_length, ← hb.1]
      exact hj
    have hx : (encodeDman .low b).1[j]? = some (encodeDman .low b).1[j] := List.getElem?_eq_getElem hlt
    refine ⟨(encodeDman .low b).1[j], read_encodeResult _ _ (v := .dman) hx, read_encodeResult _ _ (v := .dman) ?_,
      (encodeDman_mem (List.getElem_mem hlt)).symm⟩
    exact (congrArg (·[j]?) (encodeDman_neg b)).trans (by rw [List.getElem?_map, hx]; rfl)
  · obtain ⟨l', hl', hmem, h1, h2, h3⟩ := exec_decRow_done (v := .dman) ht hd
    obtain rfl := hs.unique hl'
    have hmem' : ∀ x ∈ l.map fun x => -x, x ∈ levelsOf .dman := fun x hx => by
      obtain ⟨y, hy, rfl⟩ := List.mem_map.1 hx
      have := (isSign_of_mem (hmem y hy)).neg
      simpa [levelsOf, IsSign] using this
    obtain ⟨t', ht', hdt⟩ := (decodesAs_decRow .dman).success s l hs hmem h1 h2 h3
    obtain ⟨v', hv', hdv⟩ := (decodesAs_decRow .dman).success u _ hneg hmem' (by rw [List.length_map, hcfg]; exact h1)
      (by simpa using h2) (by rw [List.length_map, hcfg]; exact h3)
    cases ht'.symm.trans ht
    cases hv'.symm.trans hv
    have hbits : (decodeOf u.cfg .dman (l.map fun x => -x)).1 = (decodeOf s.cfg .dman l).1 := by
      simpa [decodeOf, stateful, hcfg, hlow] using decodeDman_neg l
    refine ⟨by rw [hdv.status], fun j hj => ?_⟩
    have hlen : j < (decodeOf s.cfg .dman l).1.length := by simpa [decodeOf, stateful] using hj
    rw [hdv.out, hdt.out, hbits]
    simp [hlen]

end

section
/-! All commands: the index of an error (60_exceptions R277), where a command stops (00_scope R21, 20_memory R77), and
which commands set ESTATE (10_state R55). -/

open Sys2Proof Sys2Proof.Machine Sys2Proof.Claims

/-! ### The index of an error -/

namespace Sys2Proof.Machine

/-- The commands that look the levels of IN up in the table (41_modulation R217, R225). -/
def looksUpLevels : Instr → Bool
  | .mod | .modDur | .modg => true
  | .encNrz | .encNrzl | .encNrzi | .encAmi | .encPst | .encMan | .encDman
  | .decNrz | .decNrzl | .decNrzi | .decAmi | .decPst | .decMan | .decDman
  | .lvlNrz | .lvlNrzl | .lvlNrzi | .lvlAmi | .lvlPst | .lvlMan | .lvlDman
  | .demod | .sig | .mlvl | .demodb => false

theorem looksUpLevels_eq_true {i : Instr} : looksUpLevels i = true ↔ i = .mod ∨ i = .modDur ∨ i = .modg := by
  cases i <;> simp [looksUpLevels]

/-- A command halts only on the inputs that its row says it reads. -/
theorem bodyOf_halts_row (i : Instr) (s : State) :
    HaltsIn (HaltFair (readsIn i) (readsTin i) (looksUpLevels i) s) (bodyOf i s) := by
  cases i
  case encNrz | encNrzl | encNrzi | encAmi | encPst | encMan | encDman => exact encodeFrame_halts _ _
  case decNrz | decNrzl | decNrzi | decAmi | decPst | decMan | decDman => exact decodeFrame_halts _ _
  case lvlNrz | lvlNrzl | lvlNrzi | lvlAmi | lvlPst | lvlMan | lvlDman => exact .ok _
  case mod | modDur => exact modulateBody_halts _ _
  case demod => exact demodulateBody_halts _
  case sig => exact signalBody_halts _
  case mlvl => exact mlevelsBody_halts
  case modg => exact modulateGridBody_halts _
  case demodb => exact demodulateBinsBody_halts _

/-- The lengths that bound an error's index are those of the state itself, marked or settled or not. -/
theorem Runs.lengths {i : Instr} {s u v : State} (h : Runs i s u v) : u.inLen = s.inLen ∧ u.tinLen = s.tinLen := by
  rcases h.cases with ⟨rfl, -⟩ | ⟨r, -, rfl, -⟩ <;> exact ⟨rfl, rfl⟩

/-- Every error of a command is fair to the state it runs on. -/
theorem exec_error {i : Instr} {s t : State} {e : ErrCode} (h : exec i s = .next t) (he : t.status.ecode = some e) :
    (e = .illegal ∧ t.eidx = 0#32) ∨
      ∃ n, HaltFair (readsIn i) (readsTin i) (looksUpLevels i) s (.err e n) ∧ t.eidx = BitVec.ofNat 32 n := by
  rcases exec_cases h with ⟨-, rfl⟩ | ⟨-, u, v, hr, ⟨r, -, rfl⟩ | ⟨e', n, hb, rfl⟩⟩
  · exact .inl ⟨(Option.some.inj he).symm, rfl⟩
  · cases he
  · obtain rfl : e' = e := Option.some.inj he
    refine .inr ⟨n, ?_, rfl⟩
    obtain ⟨hin, htin⟩ := hr.lengths
    have hf := bodyOf_halts_row i u _ hb
    cases e'
    case illegal => exact hf.elim
    all_goals simpa only [HaltFair, hin, htin] using hf

theorem uint_ofNat_of_lt {n : Nat} {w : Word} (h : n < uint w) : uint (BitVec.ofNat 32 n) = n := by
  have hw : w.toNat < 2 ^ 32 := w.isLt
  rw [uint_eq] at h
  rw [uint_eq, BitVec.toNat_ofNat, Nat.mod_eq_of_lt (h.trans hw)]

end Sys2Proof.Machine

/-- Settles O44: every error but ILLEGAL is a halt of the command's computation, whose index its scan bounds. -/
theorem errorIndexNamesAnInputElement : Obligations.ErrorIndexNamesAnInputElement := by
  unfold Obligations.ErrorIndexNamesAnInputElement
  intro i s t e h he
  rcases exec_error h he with ⟨rfl, hidx⟩ | ⟨n, hf, hidx⟩
  · exact ⟨fun _ => hidx, nofun, nofun⟩
  refine ⟨fun hc => ?_, ?_, ?_⟩
  · rcases hc with rfl | rfl | rfl | rfl
    · exact hf.elim
    all_goals rw [hidx, show n = 0 from hf]
  · rintro rfl
    rcases hf with ⟨hi, hn⟩ | ⟨hi, hn⟩
    · exact .inl ⟨hi, by rwa [hidx, uint_ofNat_of_lt hn]⟩
    · exact .inr ⟨hi, by rwa [hidx, uint_ofNat_of_lt hn]⟩
  · rintro rfl
    obtain ⟨hi, hn⟩ := hf
    exact ⟨looksUpLevels_eq_true.1 hi, by rwa [hidx, uint_ofNat_of_lt hn]⟩

/-! ### Where a command stops -/

/-- Settles O46: a command never refuses, and stops as `exec_stops` says. -/
theorem commandFaultsOnlyOnUnwrittenReads : Obligations.CommandFaultsOnlyOnUnwrittenReads := by
  unfold Obligations.CommandFaultsOnlyOnUnwrittenReads
  intro i s
  cases h : exec i s with
  | next t => exact .inl ⟨t, rfl⟩
  | refused q => exact absurd h (exec_ne_refused i s q)
  | fault f =>
    obtain ⟨b, k, first, rfl, hb, hk, hread, hfirst⟩ := exec_stops h
    refine .inr ⟨b, k, first, rfl, hb, hk, hread, hfirst.imp And.left ?_⟩
    rintro ⟨r, rfl, hr, -⟩
    exact ⟨r, rfl, bodyOf_halts i s _ hr⟩

/-! ### Which commands set ESTATE -/

namespace Sys2Proof.Machine

/-- The commands that set ESTATE where they succeed (10_state R55, log 4). -/
def setsEstate (i : Instr) : Prop :=
  i ∈ [Instr.encNrzi, .encAmi, .encPst, .encDman, .decNrzi, .decAmi, .decPst, .decDman]

theorem encodeFrame_estate {v : LineCode} {code : List Bool → List Int × Option Int} {s : State} {r : Result}
    (h : encodeFrame v code s = .ok r) : ∃ b, r.estate = (code b).2 := by
  obtain ⟨-, -, b, -, -, rfl⟩ := encodeFrame_eq_ok.1 h
  exact ⟨b, rfl⟩

theorem decodeFrame_estate {v : LineCode} {code : List Int → List Bool × Option Int} {s : State} {r : Result}
    (h : decodeFrame v code s = .ok r) : ∃ l, r.estate = (code l).2 := by
  obtain ⟨-, -, -, l, -, -, rfl⟩ := decodeFrame_eq_ok.1 h
  exact ⟨l, rfl⟩

/-- A result has an ESTATE exactly where its command sets one. -/
theorem bodyOf_estate {i : Instr} {s : State} {r : Result} (h : bodyOf i s = .ok r) :
    r.estate ≠ none ↔ setsEstate i := by
  cases i <;> simp only [bodyOf] at h
  case encNrz | encNrzl | encMan =>
    obtain ⟨b, hb⟩ := encodeFrame_estate h
    simp [hb, stateless, setsEstate]
  case encNrzi | encAmi | encPst | encDman =>
    obtain ⟨b, hb⟩ := encodeFrame_estate h
    simp [hb, stateful, setsEstate]
  case decNrz | decNrzl | decMan =>
    obtain ⟨l, hl⟩ := decodeFrame_estate h
    simp [hl, stateless, setsEstate]
  case decNrzi | decDman =>
    obtain ⟨l, hl⟩ := decodeFrame_estate h
    simp [hl, stateful, setsEstate]
  case decAmi | decPst =>
    obtain ⟨l, hl⟩ := decodeFrame_estate h
    simp [hl, startsEstate, setsEstate]
  case lvlNrz | lvlNrzl | lvlNrzi | lvlAmi | lvlPst | lvlMan | lvlDman =>
    cases h
    simp [setsEstate]
  case mod | modDur =>
    obtain ⟨-, -, -, -, -, -, -, -, -, rfl⟩ := modulateBody_eq_ok.1 h
    simp [setsEstate]
  case demod =>
    obtain ⟨-, -, -, -, -, -, -, -, -, rfl⟩ := demodulateBody_eq_ok.1 h
    simp [setsEstate]
  case sig =>
    obtain ⟨-, -, -, -, -, -, rfl⟩ := signalBody_eq_ok.1 h
    simp [setsEstate]
  case mlvl =>
    obtain ⟨-, -, rfl⟩ := mlevelsBody_eq_ok.1 h
    simp [setsEstate]
  case modg =>
    obtain ⟨-, -, -, -, -, -, -, -, -, -, -, -, -, rfl⟩ := modulateGridBody_eq_ok.1 h
    simp [setsEstate]
  case demodb =>
    obtain ⟨-, -, -, -, ⟨-, rfl⟩ | ⟨-, -, -, -, -, rfl⟩⟩ := demodulateBinsBody_eq_ok.1 h
    · simp [setsEstate]
    · simp [setsEstate]

/-- ESTATE after a command: that of its result, where it succeeds and sets one. -/
theorem exec_estate {i : Instr} {s t : State} (h : exec i s = .next t) :
    (t.status.done = true ∧ ∃ r : Result, (r.estate ≠ none ↔ setsEstate i) ∧ (∀ e, r.estate = some e → IsSign e) ∧
      t.estate = r.estate.getD s.estate) ∨ (t.status.done = false ∧ t.estate = s.estate) := by
  rcases exec_cases h with ⟨-, rfl⟩ | ⟨-, u, v, hr, hb⟩
  · exact .inr ⟨rfl, rfl⟩
  have hv : v.estate = s.estate := by rcases hr.cases with ⟨-, rfl⟩ | ⟨r, -, -, rfl⟩ <;> rfl
  rcases hb with ⟨r, hb, rfl⟩ | ⟨e, n, -, rfl⟩
  · exact .inl ⟨rfl, r, bodyOf_estate hb, (bodyOf_fits hb).estate, by rw [State.succeed_estate, hv]⟩
  · exact .inr ⟨rfl, hv⟩

end Sys2Proof.Machine

/-- Settles O48: by the results of the commands, of which those of the differential codes have an ESTATE. -/
theorem estateIsSetOnlyByTheDifferentialCommands : Obligations.EstateIsSetOnlyByTheDifferentialCommands := by
  unfold Obligations.EstateIsSetOnlyByTheDifferentialCommands
  intro i s t h
  rcases exec_estate h with ⟨hd, r, hset, hsign, he⟩ | ⟨hd, he⟩
  · refine ⟨fun hn => by simp [hd] at hn, fun _ hi => ?_, fun hi => ?_⟩
    · obtain ⟨e, hr⟩ := Option.ne_none_iff_exists'.1 (hset.2 hi)
      rw [he, hr]
      exact hsign e hr
    · rw [he, not_not.1 (mt hset.1 hi)]
      rfl
  · exact ⟨fun _ => he, fun hn => by simp [hd] at hn, fun _ => he⟩

end

section
/-! The configuration of the modulation unit (41_modulation section 1): the statements' reading of the registers is the
model's check (R200), its errors in their order, and MLEVELS (R211). -/

open Sys2Proof Sys2Proof.Machine Sys2Proof.Claims

/-! ### The check that passes -/

namespace Sys2Proof.Claims

variable {Num : Type} {F : NumFmt Num} {s : State} {c : Modem Num}

theorem toNat_k_eq {k : BitVec 2} : (k = 2#2 ∨ k = 3#2) ↔ (k.toNat = 2 ∨ k.toNat = 3) :=
  or_congr (BitVec.toNat_inj (y := 2#2)).symm (BitVec.toNat_inj (y := 3#2)).symm

/-- The first half of `ModConfig` passes exactly where the statements say so. -/
theorem tablePasses_iff {lvl : List Int} : TablePasses s lvl ↔ s.modLevels = .ok lvl := by
  rw [modLevels_eq_ok, toNat_k_eq, TablePasses, HoldsTable]
  constructor
  · rintro ⟨hn, ⟨hl, hw⟩, ha⟩
    exact ⟨hl ▸ hn, hl, hw, ha⟩
  · rintro ⟨hn, hl, hw, ha⟩
    exact ⟨hl ▸ hn, ⟨hl, hw⟩, ha⟩

theorem holdsCarrier_iff {cr : Carrier Num} : HoldsCarrier F s cr ↔ CarrierIs F s cr := by
  cases hv : s.modCfg.variant <;> cases cr <;> simp [HoldsCarrier, CarrierIs, hv]

/-- A configuration passes `ModConfig(_, true)` exactly where the statements say so. -/
theorem configured_iff : Configured F s c ↔ s.modConfig F = .ok c := by
  rw [modConfig_eq_ok, ← tablePasses_iff, modParams_eq_ok, ← holdsCarrier_iff]
  constructor
  · rintro ⟨hn, ht, ha, hp, hpar, hc⟩
    exact ⟨⟨hn, ht, ha⟩, hp.trans ht.1, hpar, hc⟩
  · rintro ⟨⟨hn, ht, ha⟩, hp, hpar, hc⟩
    exact ⟨hn, ht, ha, hp.trans ht.1.symm, hpar, hc⟩

theorem configuredS_iff {n : Nat} : ConfiguredS F s c n ↔ s.modConfigS F = .ok (c, n) := by
  rw [modConfigS_eq_ok, ← configured_iff, modSamples_eq_ok]
  exact ⟨fun h => ⟨h.conf, h.samples, h.pos⟩, fun ⟨hc, hs, hp⟩ => ⟨hc, hs, hp⟩⟩

theorem Configured.modConfig (h : Configured F s c) : s.modConfig F = .ok c := configured_iff.1 h
theorem ConfiguredS.modConfigS {n : Nat} (h : ConfiguredS F s c n) : s.modConfigS F = .ok (c, n) := configuredS_iff.1 h

/-- The number of levels is K. -/
theorem Configured.k_eq (h : Configured F s c) : s.modCfg.k.toNat = c.lvl.length := h.table.1.symm

theorem Configured.par_ne_nil (h : Configured F s c) : c.par ≠ [] := by
  rw [← List.length_pos_iff, h.parCount]
  rcases h.count with hn | hn <;> omega

end Sys2Proof.Claims

/-! ### The errors of the check -/

namespace Sys2Proof.Machine

variable {Num : Type} {F : NumFmt Num} {s : State}

theorem modLevels_of_count (h2 : s.modCfg.k ≠ 2#2) (h3 : s.modCfg.k ≠ 3#2) : s.modLevels = .error (.err .config 0) :=
  bind_eq_error.2 (.inl (failIf_eq_error.2 ⟨by simp [h2, h3], rfl⟩))

/-- The scan of the levels stops at the first that is unwritten. -/
theorem modLevels_of_unwritten {k : Nat} (hk : s.modCfg.k = 2#2 ∨ s.modCfg.k = 3#2) (hlt : k < s.modCfg.k.toNat)
    (hbelow : ∀ j, j < k → s.lvl.get (Fin.ofNat 3 j) ≠ none) (hnone : s.lvl.get (Fin.ofNat 3 k) = none) :
    s.modLevels = .error (.unwritten (.reg (.modLvl (Fin.ofNat 3 k)))) := by
  refine bind_eq_error.2 (.inr ⟨(), failIf_eq_ok.2 (by rcases hk with h | h <;> simp [h]), bind_eq_error.2 (.inl ?_)⟩)
  refine collect_eq_error.2 ⟨k, hlt, ?_, fun j hj => ?_⟩
  · rw [Nat.zero_add]
    exact bind_eq_error.2 (.inl (fetchReg_eq_error.2 ⟨hnone, rfl⟩))
  · obtain ⟨w, hw⟩ := Option.ne_none_iff_exists'.1 (hbelow j hj)
    rw [Nat.zero_add]
    exact ⟨_, bind_eq_ok.2 ⟨w, fetchReg_eq_ok.2 hw, rfl⟩⟩

theorem modLevels_of_order {lvl : List Int} (hn : lvl.length = 2 ∨ lvl.length = 3) (ht : HoldsTable s lvl)
    (ha : ¬lvl.Pairwise (· < ·)) : s.modLevels = .error (.err .config 0) := by
  obtain ⟨hl, hw⟩ := ht
  have hk := toNat_k_eq.2 (hl ▸ hn)
  refine bind_eq_error.2 (.inr ⟨(), failIf_eq_ok.2 (by rcases hk with h | h <;> simp [h]), bind_eq_error.2 (.inr ⟨lvl, ?_,
    bind_eq_error.2 (.inl (failIf_eq_error.2 ⟨by simpa [← ascending_iff] using ha, rfl⟩))⟩)⟩)
  refine collect_eq_ok.2 ⟨hl, fun i hi => ?_⟩
  obtain ⟨w, hr, hx⟩ := hw i hi
  rw [Nat.zero_add]
  exact bind_eq_ok.2 ⟨w, fetchReg_eq_ok.2 hr, congrArg Except.ok hx⟩

/-- Where the levels pass, the check goes on to the parameters. -/
theorem modConfig_of_params {lvl : List Int} {h : Halt} (ht : TablePasses s lvl) (hp : s.modParams F = .error h) :
    s.modConfig F = .error h :=
  bind_eq_error.2 (.inr ⟨lvl, tablePasses_iff.1 ht, bind_eq_error.2 (.inl hp)⟩)

theorem paramsBelow_iff {k : Nat} :
    ParamsBelow F s k ↔ ∀ j, j < k → ∃ x, s.fetchRegNum F (.modPar (entry (0 + j))) = .ok x := by
  simp only [ParamsBelow, fetchRegNum_eq_ok, State.regRead_modPar, Nat.zero_add, entry_eq]
  exact forall₂_congr fun _ _ => exists_comm

/-- The scan of the parameters halts at the first that is unwritten or no number. -/
theorem modParams_of_param {k : Nat} {h : Halt} (hlt : k < s.modCfg.k.toNat) (hb : ParamsBelow F s k)
    (hk : s.fetchRegNum F (.modPar (Fin.ofNat 3 k)) = .error h) : s.modParams F = .error h :=
  bind_eq_error.2 (.inl (collect_eq_error.2 ⟨k, hlt, by rwa [Nat.zero_add], paramsBelow_iff.1 hb⟩))

/-- After the parameters, the check halts at the carrier register it comes to. -/
theorem modParams_of_carrier {r : Reg} {h : Halt} (hb : ParamsBelow F s s.modCfg.k.toNat) (hr : CarrierReaches F s r)
    (hh : s.fetchRegNum F r = .error h) : s.modParams F = .error h := by
  obtain ⟨par, hpar⟩ : ∃ par, collect (fun i => s.fetchRegNum F (.modPar (entry i))) 0 s.modCfg.k.toNat = .ok par := by
    cases hc : collect (fun i => s.fetchRegNum F (.modPar (entry i))) 0 s.modCfg.k.toNat with
    | ok par => exact ⟨par, rfl⟩
    | error e =>
      obtain ⟨k, hk, he, -⟩ := collect_eq_error.1 hc
      obtain ⟨x, hx⟩ := paramsBelow_iff.1 hb k hk
      cases he.symm.trans hx
  refine bind_eq_error.2 (.inr ⟨par, hpar, ?_⟩)
  rcases hr with ⟨rfl, hv | hv⟩ | ⟨rfl, hv | ⟨hv, w, x, hw, hx⟩⟩
  · simp only [hv, hh, error_bind]
  · simp only [hv, hh, error_bind]
  · simp only [hv, hh, error_bind]
  · have hf : s.fetchRegNum F .modFreq = .ok x := fetchRegNum_eq_ok.2 ⟨w, hw, hx⟩
    simp only [hv, hf, hh, ok_bind, error_bind]

end Sys2Proof.Machine

/-! ### Commands at an unwritten register -/

namespace Sys2Proof.Claims

/-- A command whose computation meets an unwritten register marks it and goes on as with its registers settled. -/
theorem marksAndGoesOn_of_body {run : State → Step} {body : State → Except Halt Result} {s : State} {r : Reg}
    (hrun : run s = finish s body) (hrun' : run s.settled = finish s.settled body)
    (hb : body s = .error (.unwritten (.reg r))) (hset : unwrittenRegister (body s.settled) = none) :
    MarksAndGoesOn run s r := by
  rw [MarksAndGoesOn, hrun, hrun', finish_reg hb, finish_of_written hset]
  match body s.settled with
  | .ok _ => exact rfl
  | .error (.err _ _) => exact rfl
  | .error (.unwritten _) => exact rfl

/-- A command that begins with the check of its configuration has its errors, in their order. -/
theorem configurationErrors_of_body {Num : Type} {F : NumFmt Num} {has : Config → Bool} {run : State → Step}
    {body : State → Except Halt Result} (hrun : ∀ s, has s.cfg = true → run s = finish s body)
    (hcheck : ∀ {s h}, s.modConfig F = .error h → body s = .error h)
    (hset : ∀ s : State, unwrittenRegister (body s.settled) = none) : ConfigurationErrors F has run := by
  have levels {s h} (hh : s.modLevels = .error h) : body s = .error h := hcheck (bind_eq_error.2 (.inl hh))
  have marks {s r} (hh : has s.cfg = true) (hb : body s = .error (.unwritten (.reg r))) : MarksAndGoesOn run s r :=
    marksAndGoesOn_of_body (hrun s hh) (hrun s.settled hh) hb (hset s)
  refine ⟨fun s hh h2 h3 => ?_, fun s k hh hk hlt hb hn => ?_, fun s lvl hh hn ht ha => ?_,
    fun s lvl k hh ht hlt hb hn => ?_, fun s lvl k w hh ht hlt hb hw hx => ?_, fun s lvl r hh ht hb hr hn => ?_,
    fun s lvl r w hh ht hb hr hw hx => ?_⟩
  · rw [hrun s hh]
    exact finish_err (levels (modLevels_of_count h2 h3))
  · exact marks hh (levels (modLevels_of_unwritten hk hlt hb hn))
  · rw [hrun s hh]
    exact finish_err (levels (modLevels_of_order hn ht ha))
  · exact marks hh (hcheck (modConfig_of_params ht (modParams_of_param (ht.2.1.1 ▸ hlt) hb
      (fetchRegNum_eq_error.2 (.inl ⟨hn, rfl⟩)))))
  · rw [hrun s hh]
    exact finish_err (hcheck (modConfig_of_params ht (modParams_of_param (ht.2.1.1 ▸ hlt) hb
      (fetchRegNum_eq_error.2 (.inr ⟨w, hw, hx, rfl⟩)))))
  · exact marks hh (hcheck (modConfig_of_params ht (modParams_of_carrier (ht.2.1.1 ▸ hb) hr
      (fetchRegNum_eq_error.2 (.inl ⟨hn, rfl⟩)))))
  · rw [hrun s hh]
    exact finish_err (hcheck (modConfig_of_params ht (modParams_of_carrier (ht.2.1.1 ▸ hb) hr
      (fetchRegNum_eq_error.2 (.inr ⟨w, hw, hx, rfl⟩)))))

end Sys2Proof.Claims

namespace Sys2Proof.Machine

variable {Num : Type} {F : NumFmt Num} {s : State} {h : Halt}

theorem signalBody_of_modConfig (hh : s.modConfig F = .error h) : signalBody F s = .error h :=
  bind_eq_error.2 (.inl hh)
theorem modConfigS_of_modConfig (hh : s.modConfig F = .error h) : s.modConfigS F = .error h :=
  bind_eq_error.2 (.inl hh)
theorem modulateBody_of_modConfig (r : Reg) (hh : s.modConfig F = .error h) : modulateBody F r s = .error h :=
  bind_eq_error.2 (.inl (modConfigS_of_modConfig hh))
theorem demodulateBody_of_modConfig (hh : s.modConfig F = .error h) : demodulateBody F s = .error h :=
  bind_eq_error.2 (.inl (modConfigS_of_modConfig hh))
theorem modulateGridBody_of_modConfig (hh : s.modConfig F = .error h) : modulateGridBody F s = .error h :=
  bind_eq_error.2 (.inl (modConfigS_of_modConfig hh))
theorem demodulateBinsBody_of_modConfig (hh : s.modConfig F = .error h) : demodulateBinsBody F s = .error h :=
  bind_eq_error.2 (.inl hh)

/-- With convention B its two commands run as the others do. -/
theorem convB_of_has {o : Step} (hb : s.cfg.hasConvB = true) : convB s o = o := by rw [convB_eq, if_pos hb]

end Sys2Proof.Machine

/-- Settles O26: each of the commands begins with the check. -/
theorem configurationErrorsComeInOrder : Obligations.ConfigurationErrorsComeInOrder := by
  unfold Obligations.ConfigurationErrorsComeInOrder
  intro Num F
  refine ⟨?_, ?_, ?_, ?_, ?_, ?_⟩
  · exact configurationErrors_of_body (fun _ _ => rfl) signalBody_of_modConfig
      fun s => ((signalBody_halts F).settled (inp := true) (sym := true))
  · exact configurationErrors_of_body (fun _ _ => rfl) (modulateBody_of_modConfig _)
      fun s => ((modulateBody_halts F _).settled (inp := true) (tin := true))
  · exact configurationErrors_of_body (fun _ _ => rfl) (modulateBody_of_modConfig _)
      fun s => ((modulateBody_halts F _).settled (inp := true) (tin := true))
  · exact configurationErrors_of_body (fun _ _ => rfl) demodulateBody_of_modConfig
      fun s => ((demodulateBody_halts F).settled (sym := true))
  · exact configurationErrors_of_body (fun _ hb => convB_of_has hb) modulateGridBody_of_modConfig
      fun s => ((modulateGridBody_halts F).settled (inp := true))
  · exact configurationErrors_of_body (fun _ hb => convB_of_has hb) demodulateBinsBody_of_modConfig
      fun s => ((demodulateBinsBody_halts F).settled (tin := true) (sym := true))

/-! ### MLEVELS -/

/-- Settles O25: MLEVELS is the first half of the check, and writes the levels that pass it. -/
theorem mlevelsWritesTheTable : Obligations.MlevelsWritesTheTable := by
  unfold Obligations.MlevelsWritesTheTable
  have levels {s : State} {h : Halt} (hh : s.modLevels = .error h) : mlevelsBody s = .error h :=
    bind_eq_error.2 (.inl hh)
  refine ⟨decode_encode .mlvl, fun s lvl hn ht ha => ?_, fun s h2 h3 => ?_, fun s lvl hn ht ha => ?_,
    fun s k hk hlt hb hnone => ?_⟩
  · have hok := mlevelsBody_eq_ok.2 ⟨lvl, tablePasses_iff.1 ⟨hn, ht, ha⟩, rfl⟩
    have hlen : (lvl.map word).length < 2 ^ 32 := by
      rw [List.length_map]
      rcases hn with h | h <;> omega
    exact ⟨_, finish_ok hok, delivers_succeed s rfl, (lenWord_toNat hlen).trans (List.length_map _)⟩
  · exact finish_err (levels (modLevels_of_count h2 h3))
  · exact finish_err (levels (modLevels_of_order hn ht ha))
  · exact marksAndGoesOn_of_body rfl rfl (levels (modLevels_of_unwritten hk hlt hb hnone))
      (mlevelsBody_halts.settled (inp := true) (tin := true) (sym := true))

end

section
/-! The modulation commands of 41_modulation after their configuration check: what each delivers (R210, R217, R222, R225,
R228), and its errors in their order. -/

open Sys2Proof Sys2Proof.Machine Sys2Proof.Claims

/-! ### The scans of the inputs -/

namespace Sys2Proof.Claims

variable {Num : Type} {F : NumFmt Num} {s : State} {c : Modem Num}

/-- A loop from 0 halts at its first halting turn. -/
theorem collect_zero_eq_error {α : Type} {f : Nat → Except Halt α} {n k : Nat} {h : Halt} (hk : k < n)
    (hf : f k = .error h) (hb : ∀ j, j < k → ∃ x, f j = .ok x) : collect f 0 n = .error h :=
  collect_eq_error.2 ⟨k, hk, by rwa [Nat.zero_add], by simpa only [Nat.zero_add] using hb⟩

theorem collect_zero_eq_ok {α : Type} {f : Nat → Except Halt α} {n : Nat} {l : List α} (hn : n = l.length)
    (hf : ∀ i (h : i < l.length), f i = .ok l[i]) : collect f 0 n = .ok l :=
  collect_eq_ok.2 ⟨hn.symm, by simpa only [Nat.zero_add] using hf⟩

theorem numsBelow_iff {b : Buf} {k : Nat} :
    NumsBelow F (s.buf b) k ↔ ∀ j, j < k → ∃ x, s.fetchNum F b j = .ok x := by
  simp only [NumsBelow, fetchNum_eq_ok]
  exact forall₂_congr fun _ _ => exists_comm

theorem collect_fetchNum_of_domain {b : Buf} {n k : Nat} {w : Word} (hk : k < n) (hb : NumsBelow F (s.buf b) k)
    (hr : (s.buf b).read k = some w) (hw : F.num w = none) :
    collect (s.fetchNum F b) 0 n = .error (.err .domain k) :=
  collect_zero_eq_error hk (fetchNum_eq_error.2 (.inr ⟨w, hr, hw, rfl⟩)) (numsBelow_iff.1 hb)

theorem collect_fetchNum_of_unwritten {b : Buf} {n k : Nat} (hk : k < n) (hb : NumsBelow F (s.buf b) k)
    (hr : (s.buf b).read k = none) : collect (s.fetchNum F b) 0 n = .error (.unwritten (.elem b k)) :=
  collect_zero_eq_error hk (fetchNum_eq_error.2 (.inl ⟨hr, rfl⟩)) (numsBelow_iff.1 hb)

theorem fetchNum_of_holdsNums {b : Buf} {xs : List Num} (hx : HoldsNums F (s.buf b) xs) {i : Nat} (hi : i < xs.length) :
    s.fetchNum F b i = .ok xs[i] :=
  fetchNum_eq_ok.2 (hx i hi)

theorem collect_fetchNum_of_holdsNums {b : Buf} {n : Nat} {xs : List Num} (hn : n = xs.length)
    (hx : HoldsNums F (s.buf b) xs) : collect (s.fetchNum F b) 0 n = .ok xs :=
  collect_zero_eq_ok hn fun _ hi => fetchNum_of_holdsNums hx hi

section
variable (hc : Configured F s c)
include hc

/-- A level of the table stands at an entry, whose parameter `fetchSymbol` answers. -/
theorem Configured.exists_parOf {x : Int} (hx : x ∈ c.lvl) : ∃ p, c.parOf x = some p :=
  Option.ne_none_iff_exists'.1 fun hn => (parOf_eq_none hc.ascending hc.parCount).1 hn hx

theorem Configured.fetchSymbol_below {k : Nat} (hb : LevelsBelow s c.lvl k) :
    ∀ j, j < k → ∃ p, s.fetchSymbol c j = .ok p := fun j hj => by
  obtain ⟨w, hr, hw⟩ := hb j hj
  exact (hc.exists_parOf hw).imp fun p hp => fetchSymbol_eq_ok.2 ⟨w, hr, hp⟩

theorem Configured.collect_fetchSymbol_of_alphabet {n k : Nat} {w : Word} (hk : k < n) (hb : LevelsBelow s c.lvl k)
    (hr : s.inBuf.read k = some w) (hw : w.toInt ∉ c.lvl) :
    collect (s.fetchSymbol c) 0 n = .error (.err .alphabet k) :=
  collect_zero_eq_error hk
    (fetchSymbol_eq_error.2 (.inr ⟨w, hr, (parOf_eq_none hc.ascending hc.parCount).2 hw, rfl⟩)) (hc.fetchSymbol_below hb)

theorem Configured.collect_fetchSymbol_of_unwritten {n k : Nat} (hk : k < n) (hb : LevelsBelow s c.lvl k)
    (hr : s.inBuf.read k = none) : collect (s.fetchSymbol c) 0 n = .error (.unwritten (.elem .inB k)) :=
  collect_zero_eq_error hk (fetchSymbol_eq_error.2 (.inl ⟨hr, rfl⟩)) (hc.fetchSymbol_below hb)

theorem Configured.exists_collect_fetchSymbol {n : Nat} (hb : LevelsBelow s c.lvl n) :
    ∃ syms, collect (s.fetchSymbol c) 0 n = .ok syms := by
  cases h : collect (s.fetchSymbol c) 0 n with
  | ok syms => exact ⟨syms, rfl⟩
  | error e =>
    obtain ⟨k, hk, he, -⟩ := collect_eq_error.1 h
    obtain ⟨p, hp⟩ := hc.fetchSymbol_below hb k hk
    rw [Nat.zero_add, hp] at he
    cases he

/-- The symbols scanned are the parameters of the entries at which the levels stand. -/
theorem Configured.collect_fetchSymbol {l : List Int} (hl : HoldsLevels s l) (hmem : ∀ x ∈ l, x ∈ c.lvl) :
    ∃ syms, collect (s.fetchSymbol c) 0 (uint s.inLen) = .ok syms ∧ syms.length = l.length ∧
      ∀ j i (hi : i < c.par.length), j < l.length → c.lvl[i]? = l[j]? → syms[j]? = some c.par[i] := by
  obtain ⟨hn, hread⟩ := hl
  have hb : LevelsBelow s c.lvl (uint s.inLen) := fun j hj => by
    obtain ⟨w, hr, hw⟩ := hread j (hn ▸ hj)
    exact ⟨w, hr, hw ▸ hmem _ (List.getElem_mem _)⟩
  obtain ⟨syms, hs⟩ := hc.exists_collect_fetchSymbol hb
  obtain ⟨hlen, hget⟩ := collect_eq_ok.1 hs
  refine ⟨syms, hs, hlen.trans hn, fun j i hi hj hij => ?_⟩
  have hj' : j < syms.length := by rwa [hlen, hn]
  obtain ⟨w, hr, hw⟩ := hread j hj
  have hf : s.fetchSymbol c j = .ok c.par[i] := fetchSymbol_eq_ok.2 ⟨w, hr, (parOf_eq_some hc.ascending).2
    ⟨i, by rw [hij, hw, List.getElem?_eq_getElem hj], List.getElem?_eq_getElem hi⟩⟩
  have hg := hget j hj'
  rw [Nat.zero_add, hf] at hg
  rw [List.getElem?_eq_getElem hj', Except.ok.inj hg]

end

end Sys2Proof.Claims

/-! ### What a success delivers -/

namespace Sys2Proof.Claims

/-- A success with times delivers its elements and its times. -/
theorem delivers_succeed_times (s : State) {r : Result} {ts : List Word} (ht : r.tout = some ts) :
    Delivers s (s.succeed r) r.out ts where
  rest := rfl
  status := rfl
  eidx := rfl
  len := lenWord_toNat
  out := Memory.read_writeFrom_zero_eq_or _ _
  tout := fun j => by rw [State.succeed_toutBuf_of_some s ht, Memory.read_writeFrom_zero_eq_or]

variable {Num : Type} {F : NumFmt Num} {run : State → Step}

/-! ### SIGNAL -/

/-- 41_modulation R210, level-major. -/
theorem signalDelivers_of_run (hrun : ∀ s, run s = finish s (signalBody F)) : SignalDelivers F run := by
  intro s c ts hc hn hts h1 h2
  have hok := signalBody_eq_ok.2 ⟨c, hc.modConfig, hn ▸ h1, by rwa [hc.k_eq, hn], ts,
    collect_fetchNum_of_holdsNums (b := .tin) hn hts, rfl⟩
  refine ⟨_, _, (hrun s).trans (finish_ok hok), delivers_succeed s rfl, ?_, fun i k hi hk => ?_⟩
  · rw [List.length_map, signal_flatten_length, hc.parCount]
  · rw [List.getElem?_map, signal_flatten_getElem? F c ts hi hk]
    rfl

section
variable {s : State} {c : Modem Num} (hc : Configured F s c)
include hc

theorem Configured.signalBody_of_capacity
    (h : s.cfg.capIn < uint s.tinLen ∨ s.cfg.capOut < c.lvl.length * uint s.tinLen) :
    signalBody F s = .error (.err .capacity 0) := by
  by_cases h1 : s.cfg.capIn < uint s.tinLen
  · simp [signalBody, hc.modConfig, h1]
  · simp [signalBody, hc.modConfig, h1, hc.k_eq, h.resolve_left h1]

theorem Configured.signalBody_of_scan {h : Halt} (h1 : uint s.tinLen ≤ s.cfg.capIn)
    (h2 : c.lvl.length * uint s.tinLen ≤ s.cfg.capOut)
    (hs : collect (s.fetchNum F .tin) 0 (uint s.tinLen) = .error h) : signalBody F s = .error h := by
  simp [signalBody, hc.modConfig, not_lt.2 h1, hc.k_eq, not_lt.2 h2, hs]

end

theorem signalErrors (F : NumFmt Num) : SignalErrors F (signalWith F) where
  capacity _ _ hc h := finish_err (hc.signalBody_of_capacity h)
  domain _ _ _ _ hc h1 h2 hk hb hr hw :=
    finish_err (hc.signalBody_of_scan h1 h2 (collect_fetchNum_of_domain (b := .tin) hk hb hr hw))
  unwritten _ _ _ hc h1 h2 hk hb hr :=
    finish_elem (hc.signalBody_of_scan h1 h2 (collect_fetchNum_of_unwritten (b := .tin) hk hb hr))

/-! ### MODULATE -/

/-- Element k of the samples, where its symbol is the parameter `p` and its instant `t`. -/
theorem getElem?_samples {cr : Carrier Num} {n k : Nat} {syms ts : List Num} {p t : Num} (hk : k < n * syms.length)
    (hp : syms[k / n]? = some p) (ht : ts[k]? = some t) :
    ((List.zipWith (refAt F cr) (repeatEach n syms) ts).map F.enc)[k]? = some (F.enc (refAt F cr p t)) := by
  rw [List.getElem?_map, List.getElem?_zipWith, repeatEach_getElem? n syms hk, hp, ht]
  rfl

theorem grid_getElem?_eq (F : NumFmt Num) (g : GridEndpoint) (n : Nat) (d : Num) {k : Nat} (h : k < n) :
    (grid F g n d)[k]? = some (gridPoint F g n d k) := by
  rw [List.getElem?_eq_getElem (by rwa [grid_length]), grid_getElem]

theorem ReadyToModulate.duration {reg : Reg} {s : State} {c : Modem Num} {n : Nat} {d : Num}
    (h : ReadyToModulate F reg s c n d) : duration F reg s = .ok d :=
  duration_eq_ok.2 ⟨h.dur, h.pos⟩

/-- 41_modulation R217: symbol k div S active at grid point k. -/
theorem modulateDelivers_of_run {reg : Reg} (hrun : ∀ s, run s = finish s (modulateBody F reg)) :
    ModulateDelivers F reg run := by
  intro s c n d l hready hl hmem h1 h2
  obtain ⟨hconf, -, -⟩ := id hready
  obtain ⟨syms, hs, hlen, hsym⟩ := hconf.conf.collect_fetchSymbol hl hmem
  obtain ⟨hn, -⟩ := id hl
  have hok := modulateBody_eq_ok.2 ⟨c, n, d, hconf.modConfigS, hready.duration, hn ▸ h1, by rwa [hn], syms, hs, rfl⟩
  refine ⟨_, _, _, (hrun s).trans (finish_ok hok), delivers_succeed_times s rfl, ?_, ?_, fun k i hi hk hik => ?_⟩
  · simp [hlen, hn]
  · simp [hn]
  · have hgrid := grid_getElem?_eq F s.cfg.gridEndpoint (n * l.length) d hk
    rw [hn]
    refine ⟨getElem?_samples (by rwa [hlen]) (hsym _ i hi (Nat.div_lt_of_lt_mul hk) hik) hgrid, ?_⟩
    rw [List.getElem?_map, hgrid]
    rfl

section
variable {reg : Reg} {s : State} {c : Modem Num} {n : Nat} {d : Num}

/-- S = 0 is found after the rest of the configuration (41_modulation R200). -/
theorem Configured.modConfigS_of_samples (hc : Configured F s c) (h0 : uint s.modSps = 0) :
    s.modConfigS F = .error (.err .config 0) := by
  simp [State.modConfigS, hc.modConfig, State.modSamples, h0]

theorem ConfiguredS.modulateBody_of_duration (hc : ConfiguredS F s c n) {h : Halt}
    (hd : Machine.duration F reg s = .error h) : modulateBody F reg s = .error h := by
  simp [modulateBody, hc.modConfigS, hd]

theorem ReadyToModulate.modulateBody_of_capacity (hr : ReadyToModulate F reg s c n d)
    (h : s.cfg.capIn < uint s.inLen ∨ s.cfg.capOut < n * uint s.inLen) :
    modulateBody F reg s = .error (.err .capacity 0) := by
  by_cases h1 : s.cfg.capIn < uint s.inLen
  · simp [modulateBody, hr.conf.modConfigS, hr.duration, h1]
  · simp [modulateBody, hr.conf.modConfigS, hr.duration, h1, h.resolve_left h1]

theorem ReadyToModulate.modulateBody_of_scan (hr : ReadyToModulate F reg s c n d) {h : Halt}
    (h1 : uint s.inLen ≤ s.cfg.capIn) (h2 : n * uint s.inLen ≤ s.cfg.capOut)
    (hs : collect (s.fetchSymbol c) 0 (uint s.inLen) = .error h) : modulateBody F reg s = .error h := by
  simp [modulateBody, hr.conf.modConfigS, hr.duration, not_lt.2 h1, not_lt.2 h2, hs]

end

theorem modulateErrors (F : NumFmt Num) (reg : Reg) : ModulateErrors F reg (modulateWith F reg) where
  samples _ _ hc h0 := finish_err (bind_eq_error.2 (.inl (hc.modConfigS_of_samples h0)))
  durationUnwritten s _ _ hc hn := marksAndGoesOn_of_body rfl rfl
    (hc.modulateBody_of_duration (bind_eq_error.2 (.inl (fetchRegNum_eq_error.2 (.inl ⟨hn, rfl⟩)))))
    ((modulateBody_halts F reg).settled (inp := true) (tin := true))
  duration s c n w hc hw hd := finish_err (hc.modulateBody_of_duration (by
    cases hx : F.num w with
    | none => exact bind_eq_error.2 (.inl (fetchRegNum_eq_error.2 (.inr ⟨w, hw, hx, rfl⟩)))
    | some d =>
      have hf : s.fetchRegNum F reg = .ok d := fetchRegNum_eq_ok.2 ⟨w, hw, hx⟩
      simp [Machine.duration, hf, hd d hx]))
  capacity _ _ _ _ hr h := finish_err (hr.modulateBody_of_capacity h)
  alphabet _ _ _ _ _ _ hr h1 h2 hk hb hw hx :=
    finish_err (hr.modulateBody_of_scan h1 h2 (hr.conf.conf.collect_fetchSymbol_of_alphabet hk hb hw hx))
  unwritten _ _ _ _ _ hr h1 h2 hk hb hw :=
    finish_elem (hr.modulateBody_of_scan h1 h2 (hr.conf.conf.collect_fetchSymbol_of_unwritten hk hb hw))

/-! ### DEMODULATE -/

section
variable {s : State} {c : Modem Num} {n : Nat} {xs ts : List Num}

/-- The codes that DEMODULATE scans. -/
theorem collect_fetchCode (c : Modem Num) (hn : uint s.inLen = xs.length) (hl : ts.length = xs.length)
    (hx : HoldsNums F s.inBuf xs) (ht : HoldsNums F s.tinBuf ts) :
    collect (fetchCode F c s) 0 (uint s.inLen) = .ok (List.zipWith (classify F c) xs ts) := by
  refine collect_zero_eq_ok (by simp [hn, hl]) fun i hi => ?_
  have hi : i < xs.length := by simpa [hl] using hi
  simp [fetchCode, fetchNum_of_holdsNums (b := .inB) hx hi, fetchNum_of_holdsNums (b := .tin) ht (hl ▸ hi)]

/-- The level at the vote of a group of codes of table entries is a level of the table. -/
theorem Configured.levelWord_vote (hc : Configured F s c) {codes : List Nat} (hne : codes ≠ [])
    (hlt : ∀ k ∈ codes, k < c.par.length) :
    ∃ v, c.lvl[vote codes]? = some v ∧ c.levelWord (vote codes) = word v := by
  have hv : vote codes < c.lvl.length := hc.parCount ▸ vote_lt hne hlt
  exact ⟨c.lvl[vote codes], List.getElem?_eq_getElem hv, by rw [Modem.levelWord, List.getD_eq_getElem _ _ hv]⟩

/-- 41_modulation R222: each group of S codes voted to one level. -/
theorem demodulateDelivers_of_run (hrun : ∀ s, run s = finish s (demodulateBody F)) : DemodulateDelivers F run := by
  intro s c n m xs ts hconf hin htin hxs hts hx ht h1 h2
  have hn : 0 < n := Nat.pos_of_ne_zero hconf.pos
  have hcodes := collect_fetchCode c (hin.trans hxs.symm) (hts.trans hxs.symm) hx ht
  have hdiv : uint s.inLen / n = m := by rw [hin, Nat.mul_div_cancel_left m hn]
  have hok := demodulateBody_eq_ok.2 ⟨c, n, hconf.modConfigS, hin ▸ h1, htin.trans hin.symm, by rw [hin, Nat.mul_mod_right],
    hdiv ▸ h2, _, hcodes, rfl⟩
  rw [hdiv] at hok
  refine ⟨_, _, (hrun s).trans (finish_ok hok), delivers_succeed s rfl, by simp, fun j hj => ?_⟩
  have hjn : j * n + n ≤ n * m := by nlinarith
  have hgroup : ((List.zipWith (classify F c) xs ts).drop (j * n)).take n ≠ [] := by
    rw [← List.length_pos_iff]
    simp [hxs, hts]
    omega
  obtain ⟨v, hv, hword⟩ := hconf.conf.levelWord_vote hgroup fun k hk => by
    obtain ⟨q, hq, rfl⟩ := List.getElem_of_mem (List.mem_of_mem_drop (List.mem_of_mem_take hk))
    rw [List.getElem_zipWith]
    exact classify_lt F hconf.conf.par_ne_nil _ _
  refine ⟨_, ?_, fun k x y hk hxk hyk => ?_, v, hv, ?_⟩
  · simp [hxs, hts]
    omega
  · simp [hk, List.getElem?_zipWith, hxk, hyk]
  · have hlen : j < (groups n m (List.zipWith (classify F c) xs ts)).length := by simpa using hj
    rw [List.getElem?_map, List.getElem?_eq_getElem hlen, groups_getElem]
    exact congrArg some hword

variable (hc : ConfiguredS F s c n)
include hc

theorem ConfiguredS.demodulateBody_of_inputCapacity (h : s.cfg.capIn < uint s.inLen ∨ s.cfg.capIn < uint s.tinLen) :
    demodulateBody F s = .error (.err .capacity 0) := by
  rcases h with h | h <;> simp [demodulateBody, hc.modConfigS, h]

theorem ConfiguredS.demodulateBody_of_shape (h1 : uint s.inLen ≤ s.cfg.capIn) (h2 : uint s.tinLen ≤ s.cfg.capIn)
    (h : uint s.tinLen ≠ uint s.inLen ∨ uint s.inLen % n ≠ 0) : demodulateBody F s = .error (.err .shape 0) := by
  by_cases hl : uint s.tinLen = uint s.inLen
  · have hm : (uint s.inLen % n != 0) = true := bne_iff_ne.2 (h.resolve_left (not_not.2 hl))
    simp [demodulateBody, hc.modConfigS, not_lt.2 h1, hl, hm]
  · have hb : (uint s.tinLen != uint s.inLen) = true := bne_iff_ne.2 hl
    simp [demodulateBody, hc.modConfigS, not_lt.2 h1, not_lt.2 h2, hb]

theorem ConfiguredS.demodulateBody_of_outputCapacity (h1 : uint s.inLen ≤ s.cfg.capIn)
    (h2 : uint s.tinLen = uint s.inLen) (h3 : uint s.inLen % n = 0) (h4 : s.cfg.capOut < uint s.inLen / n) :
    demodulateBody F s = .error (.err .capacity 0) := by
  simp [demodulateBody, hc.modConfigS, not_lt.2 h1, h2, h3, h4]

/-- The scan halts at the first index whose sample, or else whose time, halts. -/
theorem ConfiguredS.demodulateBody_of_scan (h1 : uint s.inLen ≤ s.cfg.capIn) (h2 : uint s.tinLen = uint s.inLen)
    (h3 : uint s.inLen % n = 0) (h4 : uint s.inLen / n ≤ s.cfg.capOut) {k : Nat} {h : Halt} (hk : k < uint s.inLen)
    (hx : NumsBelow F s.inBuf k) (ht : NumsBelow F s.tinBuf k)
    (hh : s.fetchNum F .inB k = .error h ∨ (∃ x, s.fetchNum F .inB k = .ok x) ∧ s.fetchNum F .tin k = .error h) :
    demodulateBody F s = .error h := by
  have hs : collect (fetchCode F c s) 0 (uint s.inLen) = .error h := by
    refine collect_zero_eq_error hk ?_ fun j hj => ?_
    · exact bind_eq_error.2 (hh.imp_right fun ⟨⟨x, hx⟩, ht⟩ => ⟨x, hx, bind_eq_error.2 (.inl ht)⟩)
    · obtain ⟨x, hx⟩ := numsBelow_iff (b := .inB).1 hx j hj
      obtain ⟨t, ht⟩ := numsBelow_iff (b := .tin).1 ht j hj
      exact ⟨_, bind_eq_ok.2 ⟨x, hx, bind_eq_ok.2 ⟨t, ht, rfl⟩⟩⟩
  simp [demodulateBody, hc.modConfigS, not_lt.2 h1, h2, h3, not_lt.2 h4, hs]

end

theorem demodulateErrors (F : NumFmt Num) : DemodulateErrors F (demodulateWith F) where
  samples _ _ hc h0 := finish_err (bind_eq_error.2 (.inl (hc.modConfigS_of_samples h0)))
  inputCapacity _ _ _ hc h := finish_err (hc.demodulateBody_of_inputCapacity h)
  shape _ _ _ hc h1 h2 h := finish_err (hc.demodulateBody_of_shape h1 h2 h)
  outputCapacity _ _ _ hc h1 h2 h3 h4 := finish_err (hc.demodulateBody_of_outputCapacity h1 h2 h3 h4)
  domain _ _ _ _ w hc h1 h2 h3 h4 hk hx ht hw h := finish_err (hc.demodulateBody_of_scan h1 h2 h3 h4 hk hx ht (h.imp
    (fun hr => fetchNum_eq_error.2 (.inr ⟨w, hr, hw, rfl⟩))
    fun ⟨⟨v, x, hv, hn⟩, hr⟩ => ⟨⟨x, fetchNum_eq_ok.2 ⟨v, hv, hn⟩⟩, fetchNum_eq_error.2 (.inr ⟨w, hr, hw, rfl⟩)⟩))
  unwritten _ _ _ _ hc h1 h2 h3 h4 hk hx ht :=
    ⟨fun hr => finish_elem (hc.demodulateBody_of_scan h1 h2 h3 h4 hk hx ht (.inl (fetchNum_eq_error.2 (.inl ⟨hr, rfl⟩)))),
      fun ⟨v, x, hv, hn⟩ hr => finish_elem (hc.demodulateBody_of_scan h1 h2 h3 h4 hk hx ht
        (.inr ⟨⟨x, fetchNum_eq_ok.2 ⟨v, hv, hn⟩⟩, fetchNum_eq_error.2 (.inl ⟨hr, rfl⟩)⟩))⟩

/-! ### MODULATE_GRID -/

/-- The words of TIN as they are. -/
theorem exists_collect_fetchElem_tin {s : State} {ts : List Num} (hn : uint s.tinLen = ts.length)
    (ht : HoldsNums F s.tinBuf ts) : ∃ tws, collect (s.fetchElem .tin) 0 (uint s.tinLen) = .ok tws ∧
      tws.length = ts.length ∧ ∀ k, k < ts.length → tws[k]? = s.tinBuf.read k := by
  cases h : collect (s.fetchElem .tin) 0 (uint s.tinLen) with
  | error e =>
    obtain ⟨k, hk, he, -⟩ := collect_eq_error.1 h
    obtain ⟨w, hw, -⟩ := ht k (hn ▸ hk)
    simp [State.fetchElem, hw, present] at he
  | ok tws =>
    obtain ⟨hlen, hget⟩ := collect_eq_ok.1 h
    refine ⟨tws, rfl, hlen.trans hn, fun k hk => ?_⟩
    have hk' : k < tws.length := by rwa [hlen, hn]
    have hr := fetchElem_eq_ok.1 (hget k hk')
    rw [Nat.zero_add] at hr
    rw [List.getElem?_eq_getElem hk']
    exact hr.symm

/-- 41_modulation R225: the symbols over the given grid, then zeros; TOUT is TIN. -/
theorem modulateGridDelivers_of_run (hrun : ∀ s, run s = convB s (finish s (modulateGridBody F))) :
    ModulateGridDelivers F run := by
  intro s c n l ts hB hconf hl hmem hn ht h1 h2 h3 h4
  obtain ⟨syms, hs, hlen, hsym⟩ := hconf.conf.collect_fetchSymbol hl hmem
  obtain ⟨tws, htws, htlen, hcopy⟩ := exists_collect_fetchElem_tin hn ht
  obtain ⟨hin, -⟩ := id hl
  have hok := modulateGridBody_eq_ok.2 ⟨c, n, hconf.modConfigS, hin ▸ h1, hn ▸ h2, by rwa [hin, hn], hn ▸ h4, syms, ts, tws,
    hs, collect_fetchNum_of_holdsNums (b := .tin) hn ht, htws, rfl⟩
  have hslen : ((List.zipWith (refAt F c.carrier) (repeatEach n syms) ts).map F.enc).length = n * l.length := by
    simp [hlen, h3]
  refine ⟨_, _, _, (hrun s).trans ((convB_of_has hB).trans (finish_ok hok)), delivers_succeed_times s rfl, ?_, htlen, hcopy,
    fun k hk hk' => ?_, fun k i hi hk hk' hik => ?_⟩
  · rw [List.length_append, hslen, List.length_replicate, hin, hn]
    omega
  · rw [List.getElem?_append_right (by omega), hslen, List.getElem?_replicate, hin, hn, if_pos (by omega)]
  · rw [List.getElem?_append_left (by omega)]
    exact getElem?_samples (by rwa [hlen]) (hsym _ i hi (Nat.div_lt_of_lt_mul hk') hik) (List.getElem?_eq_getElem hk)

section
variable {s : State} {c : Modem Num} {n : Nat} (hc : ConfiguredS F s c n)
include hc

theorem ConfiguredS.modulateGridBody_of_inputCapacity (h : s.cfg.capIn < uint s.inLen ∨ s.cfg.capIn < uint s.tinLen) :
    modulateGridBody F s = .error (.err .capacity 0) := by
  rcases h with h | h <;> simp [modulateGridBody, hc.modConfigS, h]

variable (h1 : uint s.inLen ≤ s.cfg.capIn) (h2 : uint s.tinLen ≤ s.cfg.capIn)
include h1 h2

theorem ConfiguredS.modulateGridBody_of_shape (h3 : uint s.tinLen < n * uint s.inLen) :
    modulateGridBody F s = .error (.err .shape 0) := by
  simp [modulateGridBody, hc.modConfigS, not_lt.2 h1, not_lt.2 h2, h3]

variable (h3 : n * uint s.inLen ≤ uint s.tinLen)
include h3

theorem ConfiguredS.modulateGridBody_of_outputCapacity (h4 : s.cfg.capOut < uint s.tinLen) :
    modulateGridBody F s = .error (.err .capacity 0) := by
  simp [modulateGridBody, hc.modConfigS, not_lt.2 h1, not_lt.2 h2, not_lt.2 h3, h4]

variable (h4 : uint s.tinLen ≤ s.cfg.capOut)
include h4

theorem ConfiguredS.modulateGridBody_of_levels {h : Halt}
    (hs : collect (s.fetchSymbol c) 0 (uint s.inLen) = .error h) : modulateGridBody F s = .error h := by
  simp [modulateGridBody, hc.modConfigS, not_lt.2 h1, not_lt.2 h2, not_lt.2 h3, not_lt.2 h4, hs]

/-- The times are scanned only after every level. -/
theorem ConfiguredS.modulateGridBody_of_times {h : Halt} (hl : LevelsBelow s c.lvl (uint s.inLen))
    (ht : collect (s.fetchNum F .tin) 0 (uint s.tinLen) = .error h) : modulateGridBody F s = .error h := by
  obtain ⟨syms, hs⟩ := hc.conf.exists_collect_fetchSymbol hl
  simp [modulateGridBody, hc.modConfigS, not_lt.2 h1, not_lt.2 h2, not_lt.2 h3, not_lt.2 h4, hs, ht]

end

theorem modulateGridErrors (F : NumFmt Num) : ModulateGridErrors F (modulateGridWith F) where
  samples _ _ hB hc h0 := (convB_of_has hB).trans (finish_err (bind_eq_error.2 (.inl (hc.modConfigS_of_samples h0))))
  inputCapacity _ _ _ hB hc h := (convB_of_has hB).trans (finish_err (hc.modulateGridBody_of_inputCapacity h))
  shape _ _ _ hB hc h1 h2 h3 := (convB_of_has hB).trans (finish_err (hc.modulateGridBody_of_shape h1 h2 h3))
  outputCapacity _ _ _ hB hc h1 h2 h3 h4 :=
    (convB_of_has hB).trans (finish_err (hc.modulateGridBody_of_outputCapacity h1 h2 h3 h4))
  alphabet _ _ _ _ _ hB hc h1 h2 h3 h4 hk hb hr hw := (convB_of_has hB).trans (finish_err
    (hc.modulateGridBody_of_levels h1 h2 h3 h4 (hc.conf.collect_fetchSymbol_of_alphabet hk hb hr hw)))
  domain _ _ _ _ _ hB hc h1 h2 h3 h4 hl hk hb hr hw := (convB_of_has hB).trans (finish_err
    (hc.modulateGridBody_of_times h1 h2 h3 h4 hl (collect_fetchNum_of_domain (b := .tin) hk hb hr hw)))
  unwritten _ _ _ _ hB hc h1 h2 h3 h4 :=
    ⟨fun hk hb hr => (convB_of_has hB).trans (finish_elem
        (hc.modulateGridBody_of_levels h1 h2 h3 h4 (hc.conf.collect_fetchSymbol_of_unwritten hk hb hr))),
      fun hl hk hb hr => (convB_of_has hB).trans (finish_elem
        (hc.modulateGridBody_of_times h1 h2 h3 h4 hl (collect_fetchNum_of_unwritten (b := .tin) hk hb hr)))⟩

/-! ### DEMODULATE_BINS -/

theorem arefs_getElem? (c : Modem Num) (i : Nat) : c.arefs[i]? = arefAt c i := by
  unfold Modem.arefs arefAt
  cases c.carrier with
  | dflt => rfl
  | ask _ => rfl
  | fsk a => exact List.getElem?_map
  | psk _ a => exact List.getElem?_map

/-- The level at the nearest reference amplitude is a level of the table. -/
theorem Configured.levelWord_nearest {s : State} {c : Modem Num} (hc : Configured F s c) (x : Num) :
    ∃ v, c.lvl[nearest F c.arefs x]? = some v ∧ c.levelWord (nearest F c.arefs x) = word v := by
  have hne : c.arefs ≠ [] := by
    rw [← List.length_pos_iff, arefs_length]
    exact List.length_pos_iff.2 hc.par_ne_nil
  have hv : nearest F c.arefs x < c.lvl.length := by
    rw [← hc.parCount, ← arefs_length]
    exact nearest_lt F hne x
  exact ⟨c.lvl[nearest F c.arefs x], List.getElem?_eq_getElem hv, by rw [Modem.levelWord, List.getD_eq_getElem _ _ hv]⟩

/-- 41_modulation R228: `w` samples a window, `b` windows; with no samples, nothing. -/
theorem demodulateBinsDelivers_of_run (hrun : ∀ s, run s = convB s (finish s (demodulateBinsBody F))) :
    DemodulateBinsDelivers F run := by
  intro s c b w xs hB hc hb hb0 hin hxs hx h1 h2
  by_cases hw : w = 0
  · have hok := demodulateBinsBody_eq_ok.2 ⟨c, hc.modConfig, hb ▸ hb0, hin ▸ h1, .inl ⟨by rw [hin, hw, Nat.mul_zero], rfl⟩⟩
    exact ⟨_, _, (hrun s).trans ((convB_of_has hB).trans (finish_ok hok)), delivers_succeed s rfl, (if_pos hw).symm,
      fun j hw' => absurd hw hw'⟩
  · have hdiv : uint s.inLen / uint s.argBins = w := by
      rw [hin, hb, Nat.mul_div_cancel_left w (Nat.pos_of_ne_zero hb0)]
    have hok := demodulateBinsBody_eq_ok.2 ⟨c, hc.modConfig, hb ▸ hb0, hin ▸ h1, .inr ⟨by rw [hin]; exact Nat.mul_ne_zero hb0 hw,
      by rw [hin, hb, Nat.mul_mod_right], hb ▸ h2 hw, xs,
      collect_fetchNum_of_holdsNums (b := .inB) (hin.trans hxs.symm) hx, rfl⟩⟩
    rw [hdiv, hb] at hok
    refine ⟨_, _, (hrun s).trans ((convB_of_has hB).trans (finish_ok hok)), delivers_succeed s rfl,
      by rw [List.length_map, groups_length, if_neg hw], fun j _ hj => ?_⟩
    obtain ⟨v, hv, hword⟩ := hc.levelWord_nearest (F := F) (med F (((xs.drop (j * w)).take w).map F.abs))
    refine ⟨c.arefs, arefs_getElem? c, v, hv, ?_⟩
    have hlen : j < (groups w b xs).length := by simpa using hj
    rw [List.getElem?_map, List.getElem?_eq_getElem hlen, groups_getElem]
    exact congrArg some hword

section
variable {s : State} {c : Modem Num} (hc : Configured F s c)
include hc

theorem Configured.demodulateBinsBody_of_bins (h0 : uint s.argBins = 0) :
    demodulateBinsBody F s = .error (.err .config 0) := by
  simp [demodulateBinsBody, hc.modConfig, h0]

variable (h0 : uint s.argBins ≠ 0)
include h0

theorem Configured.demodulateBinsBody_of_inputCapacity (h1 : s.cfg.capIn < uint s.inLen) :
    demodulateBinsBody F s = .error (.err .capacity 0) := by
  simp [demodulateBinsBody, hc.modConfig, beq_eq_false_iff_ne.2 h0, h1]

variable (h1 : uint s.inLen ≤ s.cfg.capIn)
include h1

theorem Configured.demodulateBinsBody_of_shape (h2 : uint s.inLen % uint s.argBins ≠ 0) :
    demodulateBinsBody F s = .error (.err .shape 0) := by
  have hne : uint s.inLen ≠ 0 := fun hz => h2 (by rw [hz, Nat.zero_mod])
  have hm : (uint s.inLen % uint s.argBins != 0) = true := bne_iff_ne.2 h2
  simp [demodulateBinsBody, hc.modConfig, beq_eq_false_iff_ne.2 h0, not_lt.2 h1, hne, hm]

variable (h2 : uint s.inLen % uint s.argBins = 0)
include h2

theorem Configured.demodulateBinsBody_of_outputCapacity (hne : uint s.inLen ≠ 0) (h3 : s.cfg.capOut < uint s.argBins) :
    demodulateBinsBody F s = .error (.err .capacity 0) := by
  simp [demodulateBinsBody, hc.modConfig, beq_eq_false_iff_ne.2 h0, not_lt.2 h1, hne, h2, h3]

theorem Configured.demodulateBinsBody_of_scan {h : Halt} {k : Nat} (h3 : uint s.argBins ≤ s.cfg.capOut)
    (hk : k < uint s.inLen) (hs : collect (s.fetchNum F .inB) 0 (uint s.inLen) = .error h) :
    demodulateBinsBody F s = .error h := by
  simp [demodulateBinsBody, hc.modConfig, beq_eq_false_iff_ne.2 h0, not_lt.2 h1, (Nat.zero_lt_of_lt hk).ne', h2,
    not_lt.2 h3, hs]

end

theorem demodulateBinsErrors (F : NumFmt Num) : DemodulateBinsErrors F (demodulateBinsWith F) where
  bins _ _ hB hc h0 := (convB_of_has hB).trans (finish_err (hc.demodulateBinsBody_of_bins h0))
  inputCapacity _ _ hB hc h0 h1 := (convB_of_has hB).trans (finish_err (hc.demodulateBinsBody_of_inputCapacity h0 h1))
  shape _ _ hB hc h0 h1 h2 := (convB_of_has hB).trans (finish_err (hc.demodulateBinsBody_of_shape h0 h1 h2))
  outputCapacity _ _ hB hc h0 h1 hne h2 h3 :=
    (convB_of_has hB).trans (finish_err (hc.demodulateBinsBody_of_outputCapacity h0 h1 h2 hne h3))
  domain _ _ _ _ hB hc h0 h1 h2 h3 hk hb hr hw := (convB_of_has hB).trans (finish_err
    (hc.demodulateBinsBody_of_scan h0 h1 h2 h3 hk (collect_fetchNum_of_domain (b := .inB) hk hb hr hw)))
  unwritten _ _ _ hB hc h0 h1 h2 h3 hk hb hr := (convB_of_has hB).trans (finish_elem
    (hc.demodulateBinsBody_of_scan h0 h1 h2 h3 hk (collect_fetchNum_of_unwritten (b := .inB) hk hb hr)))

/-- Without convention B a command that it gates is ILLEGAL. -/
theorem convB_of_not_has {s : State} (o : Step) (hB : s.cfg.hasConvB = false) :
    convB s o = .next (ErrorState s .illegal 0) := by
  rw [convB_eq, hB]
  rfl

end Sys2Proof.Claims

/-! ### The statements -/

/-- Settles O27: the signal is level-major. -/
theorem signalWritesReferencesLevelMajor : Obligations.SignalWritesReferencesLevelMajor := by
  unfold Obligations.SignalWritesReferencesLevelMajor
  exact ⟨signalDelivers_of_run fun _ => rfl, fun _ _ => signalDelivers_of_run fun _ => rfl⟩

/-- Settles O28: the lengths are checked before the scan of the times. -/
theorem signalErrorsComeInOrder : Obligations.SignalErrorsComeInOrder := by
  unfold Obligations.SignalErrorsComeInOrder
  exact ⟨decode_encode .sig, fun _ => rfl, fun _ F => signalErrors F⟩

/-- Settles O29: sample k is the reference of symbol k div S at grid point k. -/
theorem modulateWritesSamplesOverTheGrid : Obligations.ModulateWritesSamplesOverTheGrid := by
  unfold Obligations.ModulateWritesSamplesOverTheGrid
  exact ⟨modulateDelivers_of_run fun _ => rfl, modulateDelivers_of_run fun _ => rfl,
    fun _ _ => ⟨modulateDelivers_of_run fun _ => rfl, modulateDelivers_of_run fun _ => rfl⟩⟩

/-- Settles O30: S, then the duration, then the lengths, then the scan of the levels. -/
theorem modulateErrorsComeInOrder : Obligations.ModulateErrorsComeInOrder := by
  unfold Obligations.ModulateErrorsComeInOrder
  exact ⟨decode_encode .mod, decode_encode .modDur, fun _ => rfl, fun _ => rfl,
    fun _ F => ⟨modulateErrors F .modDur, modulateErrors F .argDur⟩⟩

/-- Settles O31: group j of the scanned codes is voted to a level. -/
theorem demodulateVotesNearestLevels : Obligations.DemodulateVotesNearestLevels := by
  unfold Obligations.DemodulateVotesNearestLevels
  exact ⟨demodulateDelivers_of_run fun _ => rfl, fun _ _ => demodulateDelivers_of_run fun _ => rfl⟩

/-- Settles O32: S, then the lengths, then the scan of samples and times. -/
theorem demodulateErrorsComeInOrder : Obligations.DemodulateErrorsComeInOrder := by
  unfold Obligations.DemodulateErrorsComeInOrder
  exact ⟨decode_encode .demod, fun _ => rfl, fun _ F => demodulateErrors F⟩

/-- Settles O33: the samples of MODULATE over the times of TIN, padded to their number. -/
theorem modulateGridPadsWithZeros : Obligations.ModulateGridPadsWithZeros := by
  unfold Obligations.ModulateGridPadsWithZeros
  exact ⟨modulateGridDelivers_of_run fun _ => rfl, fun _ _ => modulateGridDelivers_of_run fun _ => rfl⟩

/-- Settles O34: S, then the lengths, then the scan of the levels, then that of the times. -/
theorem modulateGridErrorsComeInOrder : Obligations.ModulateGridErrorsComeInOrder := by
  unfold Obligations.ModulateGridErrorsComeInOrder
  exact ⟨decode_encode .modg, fun _ => rfl, fun _ hB => convB_of_not_has _ hB, fun _ F => modulateGridErrors F⟩

/-- Settles O35: window j is matched to the nearest of the reference amplitudes. -/
theorem demodulateBinsMatchesWindowMedians : Obligations.DemodulateBinsMatchesWindowMedians := by
  unfold Obligations.DemodulateBinsMatchesWindowMedians
  exact ⟨demodulateBinsDelivers_of_run fun _ => rfl, fun _ _ => demodulateBinsDelivers_of_run fun _ => rfl⟩

/-- Settles O36: B, then the lengths, with the exit of no samples before that of the output, then the scan. -/
theorem demodulateBinsErrorsComeInOrder : Obligations.DemodulateBinsErrorsComeInOrder := by
  unfold Obligations.DemodulateBinsErrorsComeInOrder
  exact ⟨decode_encode .demodb, fun _ => rfl, fun _ hB => convB_of_not_has _ hB, fun _ F => demodulateBinsErrors F⟩

end

section
/-! The modulation unit over exact reals: the reference waveforms (41_modulation R203 to R206), the median (R226), the bins
of FSK and PSK (R227, R228), and the round trip of MODULATE and DEMODULATE (R232). -/

open Sys2Proof Sys2Proof.Machine Sys2Proof.Claims

/-! ### The reference waveforms -/

/-- Settles O24: the model's products, with the operations of exact reals for its own. -/
theorem referenceWaveformsFollowTheirFormulas : Obligations.ReferenceWaveformsFollowTheirFormulas := by
  unfold Obligations.ReferenceWaveformsFollowTheirFormulas
  intro F hF p t f a
  have hangle (x : ℝ) : angle F x t = 2 * Real.pi * x * t := by simp [angle, hF.mul, hF.ofInt, hF.pi]
  refine ⟨rfl, ?_, ?_, ?_⟩
  · rw [refAt, hF.mul, hF.cos, hangle]
  · rw [refAt, hF.mul, hF.cos, hangle]
  · rw [refAt, hF.mul, hF.cos, hF.add, hangle]

/-! ### The median -/

namespace Sys2Proof.Claims

/-- Over exact reals the model's sort is the ascending order. -/
theorem sortNum_eq_of_perm {F : NumFmt ℝ} (hF : F.Exact) {xs d : List ℝ} (hp : d.Perm xs) (hd : d.Pairwise (· ≤ ·)) :
    sortNum F xs = d := by
  have hle : (fun a b => F.lt b a = false) = fun a b : ℝ => a ≤ b :=
    funext₂ fun a b => propext (by rw [← Bool.not_eq_true, hF.lt, not_lt])
  simp only [sortNum, hle]
  exact ((List.perm_insertionSort _ xs).trans hp.symm).eq_of_pairwise' (List.pairwise_insertionSort _ xs) hd

end Sys2Proof.Claims

/-- Settles O40: the ascending numbers are the model's sort, whose middles exist as the window is not empty. -/
theorem medianIsMiddleOrMeanOfMiddles : Obligations.MedianIsMiddleOrMeanOfMiddles := by
  unfold Obligations.MedianIsMiddleOrMeanOfMiddles
  intro F hF xs d hxs hp hd
  have hpos : 0 < d.length := hp.length_eq ▸ List.length_pos_iff.2 hxs
  have hb : d.length / 2 < d.length := by omega
  refine ⟨fun h => ?_, fun h => ?_⟩
  · simp [med, sortNum_eq_of_perm hF hp hd, ← hp.length_eq, h, hb]
  · have ha : d.length / 2 - 1 < d.length := by omega
    refine ⟨_, _, List.getElem?_eq_getElem ha, List.getElem?_eq_getElem hb, ?_⟩
    simp [med, sortNum_eq_of_perm hF hp hd, ← hp.length_eq, h, ha, hb, hF.div, hF.add, hF.ofInt]

/-! ### The bins of FSK and PSK -/

namespace Sys2Proof.Claims

variable {Num : Type} {F : NumFmt Num} {s : State} {c : Modem Num}

/-- Where all elements are alike, the first is the least index of a least one. -/
theorem argmin_of_forall_eq {y : Num} (hy : F.lt y y = false) {ds : List Num} (hd : ∀ d ∈ ds, d = y) :
    argmin F ds = 0 := by
  have hfrom : ∀ (ds : List Num) (i : Nat), (∀ d ∈ ds, d = y) → argminFrom F y 0 i ds = 0 := by
    intro ds
    induction ds with
    | nil => intros; rfl
    | cons d ds ih =>
      intro i hd
      obtain rfl := hd d (by simp)
      simpa [argminFrom, hy] using ih (i + 1) fun e he => hd e (by simp [he])
  cases ds with
  | nil => rfl
  | cons d ds =>
    obtain rfl := hd d (by simp)
    exact hfrom ds 1 fun e he => hd e (by simp [he])

/-- FSK and PSK have one reference amplitude for every entry (41_modulation R227). -/
theorem Configured.exists_aref (hc : Configured F s c) (hv : s.modCfg.variant = .fsk ∨ s.modCfg.variant = .psk) :
    ∃ a, ∀ r ∈ c.arefs, r = a := by
  have hcar := hc.carrier
  rcases hv with hv | hv <;> cases hcr : c.carrier <;> simp [HoldsCarrier, hv, hcr] at hcar
  case inl.fsk a | inr.psk f a =>
    refine ⟨a, fun r hr => ?_⟩
    rw [Modem.arefs, hcr] at hr
    obtain ⟨_, -, rfl⟩ := List.mem_map.1 hr
    rfl

/-- With a checked configuration DEMODULATE_BINS meets no unwritten register. -/
theorem Configured.demodulateBinsBody_halts (hc : Configured F s c) :
    HaltsIn (fun h => ∀ r, h ≠ .unwritten (.reg r)) (demodulateBinsBody F s) :=
  .bind (fun h hh => by rw [hc.modConfig] at hh; cases hh) fun _ _ => .bind (.failIf nofun) fun _ _ =>
    .bind (.failIf nofun) fun _ _ => by
      split
      · exact .ok _
      · refine .bind (.failIf nofun) fun _ _ => .bind (.failIf nofun) fun _ _ =>
          .bind (.collect fun k _ h hh => ?_) fun _ _ => .ok _
        rcases fetchNum_eq_error.1 hh with ⟨-, rfl⟩ | ⟨w, -, -, rfl⟩ <;> nofun

/-- A DEMODULATE_BINS that succeeds with a checked configuration is a completed computation. -/
theorem Configured.demodulateBinsWith_done (hc : Configured F s c) {t : State} (h : demodulateBinsWith F s = .next t)
    (hd : t.status.done = true) : ∃ r, demodulateBinsBody F s = .ok r ∧ t = s.succeed r := by
  rw [demodulateBinsWith, convB_eq] at h
  split at h
  case isFalse => cases h; simp at hd
  rcases finish_eq s (demodulateBinsBody F) with ⟨-, hf⟩ | ⟨r, hr, -⟩
  · rcases conclude_eq_next (hf.symm.trans h) with hok | ⟨e, n, -, rfl⟩
    · exact hok
    · simp at hd
  · exact absurd rfl (hc.demodulateBinsBody_halts _ hr r)

end Sys2Proof.Claims

/-- Settles O41: the reference amplitudes are all alike, so the first is nearest to every median. -/
theorem binsOfFskAndPskTakeTheLowestLevel : Obligations.BinsOfFskAndPskTakeTheLowestLevel := by
  unfold Obligations.BinsOfFskAndPskTakeTheLowestLevel
  intro F hF s t c v hc hv hlow h hd j hj
  obtain ⟨r, hr, rfl⟩ := hc.demodulateBinsWith_done h hd
  obtain ⟨a, ha⟩ := hc.exists_aref hv
  have hnear (x : ℝ) : nearest F c.arefs x = 0 := by
    refine argmin_of_forall_eq (y := |x - a|) (Bool.eq_false_iff.2 fun hlt => lt_irrefl _ ((hF.lt _ _).1 hlt)) fun d hd => ?_
    obtain ⟨b, hb, rfl⟩ := List.mem_map.1 hd
    rw [hF.abs, hF.sub, ha b hb]
  have hword : c.levelWord 0 = word v := by rw [Modem.levelWord, List.getD_eq_getElem?_getD, hlow, Option.getD_some]
  have hout : ∀ w ∈ r.out, w = word v := by
    obtain ⟨c', hc', -, -, ⟨-, rfl⟩ | ⟨-, -, -, xs, -, rfl⟩⟩ := demodulateBinsBody_eq_ok.1 hr
    · simp
    · obtain rfl := Except.ok.inj (hc.modConfig.symm.trans hc')
      intro w hw
      obtain ⟨g, -, rfl⟩ := List.mem_map.1 hw
      rw [hnear, hword]
  have hlt : j < r.out.length := lt_of_lt_lenWord hj
  rw [State.succeed_outBuf, Memory.read_writeFrom_zero_of_lt _ hlt, hout _ (List.getElem_mem hlt)]

/-! ### The round trip of MODULATE and DEMODULATE -/

namespace Sys2Proof.Claims

/-- In an ascending list, an element that stands more than `length − count` times holds every place between. -/
theorem getD_of_count {d : List Nat} (hd : d.Pairwise (· ≤ ·)) {i p : Nat} (hlo : d.length ≤ p + d.count i)
    (hhi : p < d.count i) : d.getD p 0 = i := by
  have hp : p < d.length := hhi.trans_le List.count_le_length
  rw [List.getD_eq_getElem _ _ hp]
  have hsplit : (d.take p).count i + (d.drop p).count i = d.count i := by
    rw [← List.count_append, List.take_append_drop]
  have hle {a b : Nat} (hab : a ≤ b) (hb : b < d.length) : d[a] ≤ d[b] := by
    rcases hab.lt_or_eq with hlt | rfl
    · exact List.pairwise_iff_getElem.1 hd a b (hlt.trans hb) hb hlt
    · exact le_rfl
  rcases lt_trichotomy d[p] i with hlt | heq | hgt
  · have hzero : (d.take (p + 1)).count i = 0 := List.count_eq_zero.2 fun hm => by
      obtain ⟨q, hq, hqi⟩ := List.mem_take_iff_getElem.1 hm
      have := hle (a := q) (b := p) (by omega) hp
      omega
    have hsplit' : (d.take (p + 1)).count i + (d.drop (p + 1)).count i = d.count i := by
      rw [← List.count_append, List.take_append_drop]
    have hlen : (d.drop (p + 1)).count i ≤ (d.drop (p + 1)).length := List.count_le_length
    rw [List.length_drop] at hlen
    omega
  · exact heq
  · have hzero : (d.drop p).count i = 0 := List.count_eq_zero.2 fun hm => by
      obtain ⟨q, hq, hqi⟩ := List.mem_drop_iff_getElem.1 hm
      have := hle (a := p) (b := p + q) (by omega) (by omega)
      omega
    have hlen : (d.take p).count i ≤ (d.take p).length := List.count_le_length
    rw [List.length_take] at hlen
    omega

/-- A code that more than half of the codes are wins the vote. -/
theorem vote_of_majority {codes : List Nat} {i : Nat} (h : codes.length < 2 * codes.count i) : vote codes = i := by
  have hcount : (codes.insertionSort (· ≤ ·)).count i = codes.count i := (List.perm_insertionSort _ codes).count_eq i
  have hmid {p : Nat} (hlo : codes.length ≤ p + codes.count i) (hhi : p < codes.count i) :
      (codes.insertionSort (· ≤ ·)).getD p 0 = i :=
    getD_of_count (List.pairwise_insertionSort _ codes) (by rwa [sort_length, hcount]) (by rwa [hcount])
  unfold vote
  dsimp only
  split
  · exact hmid (by omega) (by omega)
  · rw [hmid (p := codes.length / 2 - 1) (by omega) (by omega), hmid (p := codes.length / 2) (by omega) (by omega),
      if_pos (by omega)]
    omega

/-- The places at which a list holds `i` are as many as it counts. -/
theorem length_filter_le_count {codes : List Nat} {i : Nat} {p : Nat → Bool}
    (h : ∀ q, q < codes.length → p q = true → codes[q]? = some i) :
    ((List.range codes.length).filter p).length ≤ codes.count i := by
  have hmap : (List.range codes.length).map (fun q => codes.getD q 0) = codes :=
    List.ext_getElem (by simp) fun q _ hq => by simp [hq]
  conv_rhs => rw [← hmap, List.count, List.countP_map]
  rw [← List.countP_eq_length_filter]
  refine List.countP_mono_left fun q hq hp => ?_
  simp [h q (List.mem_range.1 hq) hp]

/-- A sample that is the reference of entry `i`, no lower entry having the same, is classified as `i`. -/
theorem classify_of_reference {F : NumFmt ℝ} (hF : F.Exact) {c : Modem ℝ} {t : ℝ} {i : Nat} (hi : i < c.par.length)
    (hne : ∀ i' (hi' : i' < i), refAt F c.carrier (c.par[i']'(hi'.trans hi)) t ≠ refAt F c.carrier c.par[i] t) :
    classify F c (refAt F c.carrier c.par[i] t) t = i := by
  obtain ⟨hlt, hle, hleast⟩ := classifyPicksTheLeastNearestIndex F hF c (refAt F c.carrier c.par[i] t) t
    (List.ne_nil_of_length_pos (Nat.zero_lt_of_lt hi))
  rcases lt_trichotomy (classify F c (refAt F c.carrier c.par[i] t) t) i with h | h | h
  · have hzero := hle i hi
    rw [sub_self, abs_zero, abs_nonpos_iff, sub_eq_zero] at hzero
    exact absurd hzero.symm (hne _ h)
  · exact h
  · have hneg := hleast i h
    rw [sub_self, abs_zero] at hneg
    exact absurd hneg (not_lt.2 (abs_nonneg _))

/-- A MODULATE that succeeds had an output that fits. -/
theorem ReadyToModulate.le_capOut {Num : Type} {F : NumFmt Num} {reg : Reg} {s t : State} {c : Modem Num} {n : Nat}
    {d : Num} (hr : ReadyToModulate F reg s c n d) (h : modulateWith F reg s = .next t) (hd : t.status.done = true) :
    n * uint s.inLen ≤ s.cfg.capOut := by
  by_contra hlt
  cases ((modulateErrors F reg).capacity s c n d hr (.inr (not_le.1 hlt))).symm.trans h
  cases hd

/-- What the host's copy of a MODULATE's output holds: at each of the instants the symbol's reference, and the instant. -/
theorem holdsNums_of_copy {F : NumFmt ℝ} {s t u : State} {c : Modem ℝ} {n : Nat} {l : List Int} {out tout : List Word}
    {pt : Nat → ℝ} (hc : Configured F s c) (hmem : ∀ x ∈ l, x ∈ c.lvl) (hdel : Delivers s t out tout)
    (hlen : uint t.outLen = n * l.length)
    (hpts : ∀ k i (hi : i < c.par.length), k < n * l.length → c.lvl[i]? = l[k / n]? →
      out[k]? = some (F.enc (refAt F c.carrier c.par[i] (pt k))) ∧ tout[k]? = some (F.enc (pt k)))
    (hcopy : CopiedOutToIn t u) (hcopyT : CopiedToutToTin t u)
    (hnum : ∀ k p, k < n * l.length → p ∈ c.par → F.num (F.enc (pt k)) = some (pt k) ∧
      F.num (F.enc (refAt F c.carrier p (pt k))) = some (refAt F c.carrier p (pt k))) :
    HoldsNums F u.tinBuf ((List.range (n * l.length)).map pt) ∧
    ∃ xs, xs.length = n * l.length ∧ HoldsNums F u.inBuf xs ∧
      ∀ k i (hi : i < c.par.length), k < n * l.length → c.lvl[i]? = l[k / n]? →
        xs[k]? = some (refAt F c.carrier c.par[i] (pt k)) := by
  have hentry (k) (hk : k < n * l.length) : ∃ i, ∃ _ : i < c.par.length, c.lvl[i]? = l[k / n]? := by
    have hk' := Nat.div_lt_of_lt_mul hk
    obtain ⟨i, hi, hil⟩ := List.getElem_of_mem (hmem _ (List.getElem_mem hk'))
    exact ⟨i, hc.parCount ▸ hi, by rw [List.getElem?_eq_getElem hi, hil, List.getElem?_eq_getElem hk']⟩
  have hcopied (k i) (hi : i < c.par.length) (hk : k < n * l.length) (hil : c.lvl[i]? = l[k / n]?) :
      u.inBuf.read k = some (F.enc (refAt F c.carrier c.par[i] (pt k))) ∧ u.tinBuf.read k = some (F.enc (pt k)) := by
    obtain ⟨ho, hto⟩ := hpts k i hi hk hil
    exact ⟨by rw [hcopy.2 k (hlen ▸ hk), hdel.out, ho, Option.some_or],
      by rw [hcopyT.2 k (hlen ▸ hk), hdel.tout, hto, Option.some_or]⟩
  choose! e he hel using hentry
  refine ⟨fun k hk => ?_, (List.range (n * l.length)).map fun k => refAt F c.carrier (c.par.getD (e k) 0) (pt k),
    by simp, fun k hk => ?_, fun k i hi hk hil => ?_⟩
  · have hk' : k < n * l.length := by simpa using hk
    exact ⟨_, (hcopied k _ (he k hk') hk' (hel k hk')).2,
      by simpa using (hnum k _ hk' (List.getElem_mem (he k hk'))).1⟩
  · have hk' : k < n * l.length := by simpa using hk
    exact ⟨_, (hcopied k _ (he k hk') hk' (hel k hk')).1,
      by simpa [he k hk'] using (hnum k _ hk' (List.getElem_mem (he k hk'))).2⟩
  · obtain rfl : i = e k := (List.getElem?_inj (hc.parCount ▸ hi) (hc.ascending.imp ne_of_lt)).1 (hil.trans (hel k hk).symm)
    simp [hk, hi]

/-- A group most of whose samples are references of entry `i` that no lower entry has is voted `i`. -/
theorem vote_of_references {F : NumFmt ℝ} (hF : F.Exact) {c : Modem ℝ} {pt : Nat → ℝ} {i : Nat} {codes : List Nat}
    (hi : i < c.par.length)
    (hcodes : ∀ q, q < codes.length → codes[q]? = some (classify F c (refAt F c.carrier c.par[i] (pt q)) (pt q)))
    (hmost : codes.length < 2 * ((List.range codes.length).filter fun q => decide (∀ i' (hi' : i' < i),
      refAt F c.carrier (c.par[i']'(hi'.trans hi)) (pt q) ≠ refAt F c.carrier c.par[i] (pt q))).length) :
    vote codes = i := by
  refine vote_of_majority (hmost.trans_le (Nat.mul_le_mul_left 2 (length_filter_le_count fun q hq hp => ?_)))
  rw [hcodes q hq, classify_of_reference hF hi (of_decide_eq_true hp)]

end Sys2Proof.Claims

/-- Settles O42: MODULATE and DEMODULATE deliver their results, the copy carries the one's to the other, and a group most
of whose samples no lower entry has is voted its own symbol. -/
theorem demodulateRecoversUnambiguousSymbols : Obligations.DemodulateRecoversUnambiguousSymbols := by
  unfold Obligations.DemodulateRecoversUnambiguousSymbols
  intro F hF reg s t u c n d l _ hready hl hmem h hd hcopy hcopyT hcfg hconf hin h32 hnum
  have hn : 0 < n := Nat.pos_of_ne_zero hconf.pos
  have hle : l.length ≤ n * l.length := Nat.le_mul_of_pos_left _ hn
  have hout := hready.le_capOut h hd
  rw [hl.1] at hout
  obtain ⟨t', out, tout, ht, hdel, hlen, -, hpts⟩ :=
    modulateDelivers_of_run (run := modulateWith F reg) (fun _ => rfl) s c n d l hready hl hmem (hle.trans hin) hout
  cases h.symm.trans ht
  have houtLen : uint t.outLen = n * l.length := (hdel.len (hlen ▸ h32)).trans hlen
  obtain ⟨hts, xs, hxsLen, hxs, hx⟩ := holdsNums_of_copy hready.conf.conf hmem hdel houtLen hpts hcopy hcopyT hnum
  obtain ⟨v, out', hv, hdel', hlen', hlevels⟩ :=
    demodulateDelivers_of_run (run := demodulateWith F) (fun _ => rfl) u c n l.length xs _ hconf (hcopy.1.trans houtLen)
      (hcopyT.1.trans houtLen) hxsLen (by simp) hxs hts (hcfg ▸ hin) (hcfg ▸ hle.trans hout)
  refine ⟨v, hv, by rw [hdel'.status], (hdel'.len (hlen' ▸ hle.trans_lt h32)).trans hlen', fun j i hj hi hij hmost => ?_⟩
  obtain ⟨codes, rfl, hcodes, x, hxv, hword⟩ := hlevels j hj
  have hvote : vote codes = i := vote_of_references hF hi (fun q hq => ?_) hmost
  · rw [hvote, hij] at hxv
    rw [hdel'.out, hword, ← Option.some.inj hxv, Option.some_or]
  · have hk : j * codes.length + q < codes.length * l.length := by nlinarith
    have hsym : (j * codes.length + q) / codes.length = j := by
      rw [Nat.mul_comm, Nat.mul_add_div hn, Nat.div_eq_of_lt hq, Nat.add_zero]
    exact hcodes q _ _ hq (hx _ i hi hk (by rw [hsym, hij, List.getElem?_eq_getElem hj])) (by simp [hk])

end
